-- ==== Sys2Proof/Word.lean ====
section
/-! DEFINITION. The words of CORE: register words, bytes, and the two record types that the NODE
and CODE buffers hold (10_state.md R20, R36, R39, R40). -/

namespace Sys2Proof

/-- A register: 32 bits (00_scope.md R5, XLEN; 10_state.md R20). -/
abbrev Word := BitVec 32

/-- An element of PIX, STRM or VB; also an intensity or symbol (10_state.md R36, R41, R42). -/
abbrev Byte := BitVec 8

/-- An element of NODE (10_state.md R39). -/
structure NodeRec where
  freq  : BitVec 40
  leaf  : Bool
  sym   : Byte
  left  : BitVec 9
  right : BitVec 9
  deriving DecidableEq, Repr, Inhabited

/-- An element of CODE (10_state.md R40): bit j of the field `bits` is the spec's `bits[j]`, and
`bits[0]`, the edge leaving the root, is the first bit emitted to the stream. -/
structure CodeRec where
  present : Bool
  len     : BitVec 8
  bits    : BitVec 255
  deriving DecidableEq, Repr, Inhabited

end Sys2Proof
end

