-- ==== Sys2Proof/Config.lean ====
section
/-! DEFINITION. What an instance of CORE fixes (00_scope.md R5, 20_memory.md R71) and the free
values: the contents that 60_exceptions.md R202 calls unspecified (93_implementation_defined.md
U1). -/

namespace Sys2Proof.Machine

/-- The element-indexed buffer spaces of 20_memory.md R60. The bank number is the host's and may
be out of range: then the element does not exist. -/
inductive Space where
  | pix
  | plane (p : Nat)
  | freq
  | node
  | code
  | strm (p : Nat)
  | vb
  deriving DecidableEq, Repr

end Sys2Proof.Machine

namespace Sys2Proof.Config

open Sys2Proof.Machine (Space)

/-- NSYMMAX: the number of intensity values (00_scope.md R5). -/
def symbols : Nat := 256

/-- NPLANE: the number of bit-planes and of stream banks (00_scope.md R5). -/
def planes : Nat := 8

/-- NNODEMAX: the capacity of NODE, 2 × 256 − 1 (00_scope.md R5). -/
def nodes : Nat := 511

/-- What a bus address can name: a register by number, or an element of a buffer space. -/
inductive BusSpace where
  | reg
  | buf (sp : Space)
  deriving DecidableEq, Repr

/-- Byte offsets of `count` consecutive elements of one space or bank: element first + j stands at
offset + stride × j. A span of stride 0 places its first element only. -/
structure BusSpan where
  space  : BusSpace
  first  : Nat
  count  : Nat
  offset : Nat
  stride : Nat
  deriving DecidableEq, Repr

/-- BusMap, where a platform that memory-maps CORE puts it in the host's address space: a base
address per space and the byte offset of each element in it (20_memory.md R71). The offsets are a
list of spans, as plain data; every placement of finitely many elements is one
(notes/assumptions/11.md). -/
structure BusMap where
  regBase   : Nat
  pixBase   : Nat
  planeBase : Nat
  freqBase  : Nat
  nodeBase  : Nat
  codeBase  : Nat
  strmBase  : Nat
  vbBase    : Nat
  spans     : List BusSpan
  deriving DecidableEq, Repr

/-- DESIGN CHOICE (notes/assumptions/11.md): the placement of the instance that State.reset
describes. Registers stand at 4 × k, as 20_memory.md R71 suggests; the bases, and the offsets in
the buffers, are the model's. -/
def BusMap.suggested (maxPix maxVb : Nat) : BusMap where
  regBase := 0
  pixBase := 0x100000000
  planeBase := 0x200000000
  freqBase := 0x300000000
  nodeBase := 0x400000000
  codeBase := 0x500000000
  strmBase := 0x600000000
  vbBase := 0x700000000
  spans :=
    [ { space := .reg, first := 0, count := 24, offset := 0, stride := 4 },
      { space := .buf .pix, first := 0, count := maxPix, offset := 0, stride := 1 },
      { space := .buf .freq, first := 0, count := symbols, offset := 0, stride := 4 },
      { space := .buf .node, first := 0, count := nodes, offset := 0, stride := 16 },
      { space := .buf .code, first := 0, count := symbols, offset := 0, stride := 64 },
      { space := .buf .vb, first := 0, count := maxVb, offset := 0, stride := 1 } ] ++
    ((List.range planes).map fun p =>
      { space := .buf (.plane p), first := 0, count := maxPix, offset := 0x10000000 * p, stride := 1 }) ++
    ((List.range planes).map fun p =>
      { space := .buf (.strm p), first := 0, count := 2 * maxPix, offset := 0x10000000 * p, stride := 1 })

/-- The OPEN parameters (00_scope.md R5, 93_implementation_defined.md U13). An instance has one value of each, which no operation,
host move or reset changes (70_reset_and_hazards.md R222). -/
structure Params where
  /-- MAXPIX: the capacity of PIX and of each plane, in pixels. -/
  maxPix  : Nat
  /-- MAXVB: the capacity of VB, in bytes. -/
  maxVb   : Nat
  /-- MAXSCAN: the largest candidate code length that HDEC tries. -/
  maxScan : Nat
  /-- BusMap: any injective placement (92_eei_decisions.md D31). No operation and no host move
  reads it. -/
  busMap  : BusMap
  deriving DecidableEq, Repr

/-- MAXSTRM: the capacity of each stream bank, 2 × MAXPIX (00_scope.md R5). -/
def Params.maxStrm (P : Params) : Nat := 2 * P.maxPix

/-- DESIGN CHOICE (notes/assumptions/1.md, unsafe): the parameters of the instance that State.reset
describes. The spec leaves them OPEN; these are the largest capacities it allows, its example
value of MAXSCAN, and a placement of the model's. -/
def Params.largest : Params where
  maxPix := 2 ^ 24
  maxVb := 16843009
  maxScan := 32
  busMap := .suggested (2 ^ 24) 16843009

/-! The free values. The first argument is the number of the draw (State.draws), the second the
index of the element. No body: nothing can be proved of what they are. -/

/-- An unspecified element of PIX, VB or one bank of STRM. -/
opaque freeByte : Nat → Nat → Byte

/-- An unspecified element of one bank of PLANE. -/
opaque freeBit : Nat → Nat → Bool

/-- An unspecified element of FREQ. -/
opaque freeCount : Nat → Nat → Word

/-- An unspecified element of NODE. -/
opaque freeNode : Nat → Nat → NodeRec

/-- An unspecified element of CODE. -/
opaque freeCode : Nat → Nat → CodeRec

/-- An intensity that no rule determines (notes/assumptions/9.md). -/
opaque freeSymbol : Nat → Byte

/-- What an element of one type is when nothing has been written to it: its reset value, and its
value after the draw that made it unspecified. -/
structure Elem (α : Type) where
  zero : α
  free : Nat → Nat → α

/-- Elements of PIX, STRM and VB. -/
def byteElem : Elem Byte := { zero := 0, free := freeByte }

/-- Elements of PLANE: false is 0, black (10_state.md R37). -/
def bitElem : Elem Bool := { zero := false, free := freeBit }

/-- Elements of FREQ. -/
def freqElem : Elem Word := { zero := 0, free := freeCount }

/-- Elements of NODE: at reset every field is 0 (10_state.md R39). -/
def nodeElem : Elem NodeRec :=
  { zero := { freq := 0, leaf := false, sym := 0, left := 0, right := 0 }, free := freeNode }

/-- Elements of CODE: at reset every field is 0 (10_state.md R40). -/
def codeElem : Elem CodeRec :=
  { zero := { present := false, len := 0, bits := 0 }, free := freeCode }

end Sys2Proof.Config
end

