-- ==== Sys2Proof/Syntax.lean ====
section
/-! DEFINITION. The fourteen operations of command set IPCORE-1 (30_encoding.md R85,
opcode_table.json) and their assembler spelling (R89). -/

namespace Sys2Proof

/-- One constructor per row of the opcode table. The only operand a command word carries is the
plane index p = word[10:8], every value 0..7 legal (30_encoding.md R83). -/
inductive Instr where
  | venc
  | vdec
  | bpx
  | bpc
  | bpenc (p : Fin 8)
  | bpdec (p : Fin 8)
  | rgenc
  | rgdec
  | hfreq
  | hbuild
  | hgen
  | henc
  | hdec
  | srst
  deriving DecidableEq, Repr

/-- The operation's mnemonic (30_encoding.md R85). -/
def Instr.mnemonic : Instr → String
  | .venc => "VENC"
  | .vdec => "VDEC"
  | .bpx => "BPX"
  | .bpc => "BPC"
  | .bpenc _ => "BPENC"
  | .bpdec _ => "BPDEC"
  | .rgenc => "RGENC"
  | .rgdec => "RGDEC"
  | .hfreq => "HFREQ"
  | .hbuild => "HBUILD"
  | .hgen => "HGEN"
  | .henc => "HENC"
  | .hdec => "HDEC"
  | .srst => "SRST"

/-- The plane operand of a format-P operation (30_encoding.md R82). -/
def Instr.plane? : Instr → Option (Fin 8)
  | .venc => none
  | .vdec => none
  | .bpx => none
  | .bpc => none
  | .bpenc p => some p
  | .bpdec p => some p
  | .rgenc => none
  | .rgdec => none
  | .hfreq => none
  | .hbuild => none
  | .hgen => none
  | .henc => none
  | .hdec => none
  | .srst => none

/-- How a command is written: the mnemonic, and for format P the plane in decimal
(30_encoding.md R89). -/
def Instr.assembly (i : Instr) : String :=
  match i.plane? with
  | none => i.mnemonic
  | some p => i.mnemonic ++ " " ++ toString p.val

end Sys2Proof
end

