-- ==== Sys2Proof/WellFormed.lean ====
section
/-! DEFINITION. The checks on what comes from outside: command words by match and mask
(30_encoding.md R84, opcode_table.json), the parameters of an instance (00_scope.md R5), and
instructions. -/

namespace Sys2Proof

/-- A row of the opcode table: a word w matches when w AND mask = value (30_encoding.md R84). -/
structure OpcodeRow where
  mnemonic : String
  mask     : Word
  value    : Word
  deriving DecidableEq, Repr

/-- opcode_table.json, row for row. -/
def opcodeTable : List OpcodeRow :=
  [ { mnemonic := "VENC",   mask := 0xFFFFFFFF, value := 0x00000001 },
    { mnemonic := "VDEC",   mask := 0xFFFFFFFF, value := 0x00000002 },
    { mnemonic := "BPX",    mask := 0xFFFFFFFF, value := 0x00000010 },
    { mnemonic := "BPC",    mask := 0xFFFFFFFF, value := 0x00000011 },
    { mnemonic := "BPENC",  mask := 0xFFFFF8FF, value := 0x00000012 },
    { mnemonic := "BPDEC",  mask := 0xFFFFF8FF, value := 0x00000013 },
    { mnemonic := "RGENC",  mask := 0xFFFFFFFF, value := 0x00000020 },
    { mnemonic := "RGDEC",  mask := 0xFFFFFFFF, value := 0x00000021 },
    { mnemonic := "HFREQ",  mask := 0xFFFFFFFF, value := 0x00000030 },
    { mnemonic := "HBUILD", mask := 0xFFFFFFFF, value := 0x00000031 },
    { mnemonic := "HGEN",   mask := 0xFFFFFFFF, value := 0x00000032 },
    { mnemonic := "HENC",   mask := 0xFFFFFFFF, value := 0x00000033 },
    { mnemonic := "HDEC",   mask := 0xFFFFFFFF, value := 0x00000034 },
    { mnemonic := "SRST",   mask := 0xFFFFFFFF, value := 0x0000007F } ]

/-- Does the word match the row? -/
def OpcodeRow.accepts (r : OpcodeRow) (w : Word) : Bool := w &&& r.mask == r.value

/-- A command word is well formed when some row of the table accepts it; every other word is
illegal (30_encoding.md R84, R86). -/
def wellFormedWord (w : Word) : Bool := opcodeTable.any fun r => r.accepts w

/-- The plane index, where there is one, is one of 0..7 (30_encoding.md R83). The type of the
operand says so already: no ill-formed instruction can be written. -/
def Instr.wellFormed (i : Instr) : Bool :=
  match i.plane? with
  | none => true
  | some p => p.val < Config.planes

/-- The constraints of 00_scope.md R5 on the parameters. -/
def Config.Params.wf (P : Config.Params) : Bool :=
  1 ≤ P.maxPix && P.maxPix ≤ 2 ^ 24 &&
  max 2 ((P.maxPix + 254) / 255) ≤ P.maxVb && P.maxVb ≤ 16843009 &&
  1 ≤ P.maxScan && P.maxScan ≤ 255

end Sys2Proof
end

