-- ==== Sys2Proof/Decode.lean ====
section
/-! DEFINITION. The decoder of command words (30_encoding.md R80 to R88), total and rejecting by
name, and the encoder (R89). -/

namespace Sys2Proof

/-- Why a word is no command: the three kinds of illegal word of 30_encoding.md R86. -/
inductive Reject where
  /-- bits 7:0 are not one of the fourteen opcodes -/
  | unknownOpcode (op : Byte)
  /-- a format-N opcode with one of bits 31:8 set -/
  | nonzeroAboveN (w : Word)
  /-- a format-P opcode with one of bits 31:11 set -/
  | nonzeroAboveP (w : Word)
  deriving DecidableEq, Repr

/-- `op = w[7:0]` (30_encoding.md R84). -/
def opcodeField (w : Word) : Byte := w.extractLsb' 0 8

/-- `p = w[10:8]`, used as is (30_encoding.md R83). -/
def planeField (w : Word) : Fin 8 := (w.extractLsb' 8 3).toFin

/-- The twelve format-N opcodes (30_encoding.md R81, R85). -/
def formatN (op : Byte) : Option Instr :=
  if op = 0x01 then some .venc
  else if op = 0x02 then some .vdec
  else if op = 0x10 then some .bpx
  else if op = 0x11 then some .bpc
  else if op = 0x20 then some .rgenc
  else if op = 0x21 then some .rgdec
  else if op = 0x30 then some .hfreq
  else if op = 0x31 then some .hbuild
  else if op = 0x32 then some .hgen
  else if op = 0x33 then some .henc
  else if op = 0x34 then some .hdec
  else if op = 0x7F then some .srst
  else none

/-- The two format-P opcodes with the plane of the word (30_encoding.md R82, R85). -/
def formatP (op : Byte) (p : Fin 8) : Option Instr :=
  if op = 0x12 then some (.bpenc p)
  else if op = 0x13 then some (.bpdec p)
  else none

/-- The whole decoder (30_encoding.md R84, R88): a word is one operation or is rejected by name. -/
def decode (w : Word) : Except Reject Instr :=
  match formatN (opcodeField w) with
  | some i => if w.extractLsb' 8 24 = 0 then .ok i else .error (.nonzeroAboveN w)
  | none =>
    match formatP (opcodeField w) (planeField w) with
    | some i => if w.extractLsb' 11 21 = 0 then .ok i else .error (.nonzeroAboveP w)
    | none => .error (.unknownOpcode (opcodeField w))

/-- The opcode of an operation (30_encoding.md R85). -/
def Instr.opcode : Instr → Word
  | .venc => 0x01
  | .vdec => 0x02
  | .bpx => 0x10
  | .bpc => 0x11
  | .bpenc _ => 0x12
  | .bpdec _ => 0x13
  | .rgenc => 0x20
  | .rgdec => 0x21
  | .hfreq => 0x30
  | .hbuild => 0x31
  | .hgen => 0x32
  | .henc => 0x33
  | .hdec => 0x34
  | .srst => 0x7F

/-- The encoding: the opcode, plus `p << 8` for format P (30_encoding.md R89). -/
def encode (i : Instr) : Word :=
  match i.plane? with
  | none => i.opcode
  | some p => i.opcode ||| (BitVec.ofNat 32 p.val <<< 8)

/-- The instruction the decoder reads from a row of the opcode table's bits. A command is one
32-bit word (30_encoding.md R80), so the bits above 31 of an instruction are absent. -/
def decodeTableWord (_nbits w : Nat) : Option Instr :=
  if w < 2 ^ 32 then
    match decode (BitVec.ofNat 32 w) with
    | .ok i => some i
    | .error _ => none
  else none

end Sys2Proof
end

