-- ==== Sys2Proof/Machine/State.lean ====
section
/-! DEFINITION. The state of CORE (10_state.md) and the state after reset
(70_reset_and_hazards.md R220). -/

namespace Sys2Proof.Machine

/-- What the elements of a buffer that are not listed hold. -/
inductive Fill where
  /-- zero: the buffer's reset value (10_state.md R45) -/
  | zero
  /-- unspecified, from draw number n: an operation that had the buffer as its destination ended
  with an error (60_exceptions.md R202) -/
  | drawn (n : Nat)
  deriving DecidableEq, Repr

/-- A buffer, as one sparse list: strictly rising indices; see `Memory.wf` for the canonical form.
With elements that are bytes a cell is a `Host.Cell`. -/
structure Memory (α : Type) where
  fill  : Fill
  cells : List (Nat × α)
  deriving DecidableEq, Repr

/-- What a host read returns: one whole element (20_memory.md R69). -/
inductive HostDatum where
  | word (v : Word)
  | byte (v : Byte)
  | bit  (v : Bool)
  | node (v : NodeRec)
  | code (v : CodeRec)
  deriving DecidableEq, Repr

/-- A word the host writes: a constant, or one it makes from a register it reads first
(`mov`, `setv` and `clrv` of 30_encoding.md R90). -/
inductive HostWord where
  | const     (w : Word)
  | reg       (k : Nat)
  | regOr     (k : Nat) (m : Word)
  | regAndNot (k : Nat) (m : Word)
  /-- the product of two registers: N = WIDTH × HEIGHT, the length of an `rdbuf` of PIX
  (30_encoding.md R91 to R93) -/
  | regTimes  (k l : Nat)
  deriving DecidableEq, Repr

/-- The host's moves (20_memory.md R61, 30_encoding.md R90), each possible only between
operations, and the reset input (70_reset_and_hazards.md R220). -/
inductive HostMove where
  /-- HostReadReg(k) -/
  | readReg (k : Nat)
  /-- HostWriteReg(k, v); k = 0 issues a command -/
  | writeReg (k : Nat) (v : HostWord)
  /-- HostReadBuf(space, index) -/
  | readBuf (sp : Space) (i : Nat)
  /-- `rdbuf`: HostReadBuf of n consecutive elements from index i -/
  | readRange (sp : Space) (i : Nat) (n : HostWord)
  /-- HostWriteBuf(space, index, v) -/
  | writeBuf (sp : Space) (i : Nat) (v : Nat)
  /-- `stop-on-error` comes into force, or, by no line of R90, is lifted
  (notes/assumptions/18.md) -/
  | stopOnError (on : Bool)
  /-- the reset input of the instance -/
  | hardReset
  deriving DecidableEq, Repr

/-- The whole state of one instance. -/
structure State where
  /-- the instance's parameters, arguments of the model (00_scope.md R5); no step changes them -/
  params      : Config.Params
  /-- STATUS, register 1 (10_state.md R22) -/
  status      : Word
  /-- RESULT, register 2 (10_state.md R23) -/
  result      : Word
  /-- VALID, register 3 (10_state.md R33) -/
  valid       : Word
  /-- WIDTH, register 4 (10_state.md R24) -/
  width       : Word
  /-- HEIGHT, register 5 (10_state.md R25) -/
  height      : Word
  /-- ARG, register 6 (10_state.md R26) -/
  arg         : Word
  /-- VLEN, register 7 (10_state.md R27) -/
  vlen        : Word
  /-- BITCNT, register 8 (10_state.md R28) -/
  bitcnt      : Word
  /-- NSYM, register 9 (10_state.md R29) -/
  nsym        : Word
  /-- ROOT, register 10 (10_state.md R30) -/
  root        : Word
  /-- NCODE, register 11 (10_state.md R31) -/
  ncode       : Word
  /-- SLEN0 .. SLEN7, registers 16 to 23 (10_state.md R35) -/
  slen        : Vector Word 8
  /-- PIX (10_state.md R36) -/
  pix         : Memory Byte
  /-- PLANE[0] .. PLANE[7] (10_state.md R37) -/
  plane       : Vector (Memory Bool) 8
  /-- FREQ (10_state.md R38) -/
  freq        : Memory Word
  /-- NODE (10_state.md R39) -/
  node        : Memory NodeRec
  /-- CODE (10_state.md R40) -/
  code        : Memory CodeRec
  /-- STRM[0] .. STRM[7] (10_state.md R41) -/
  strm        : Vector (Memory Byte) 8
  /-- VB (10_state.md R42) -/
  vb          : Memory Byte
  /-- the model's own: the number of unspecified buffers drawn so far (notes/assumptions/2.md) -/
  draws       : Nat
  /-- the model's own: the host moves not yet performed, first first (notes/assumptions/5.md) -/
  script      : List HostMove
  /-- the model's own: is the host's `stop-on-error` in force (30_encoding.md R90) -/
  stopOnError : Bool
  /-- the model's own: what the host's reads returned, newest first -/
  readings    : List HostDatum
  deriving DecidableEq, Repr

/-- Why CORE can stop. Nothing raises a fault: every error of the spec ends one operation, is
reported in STATUS and RESULT, and the next command is accepted (60_exceptions.md R202, R204);
a host access that names nothing reads 0 or is ignored (20_memory.md R61). So there is no
constructor. -/
inductive Fault where
  deriving DecidableEq, Repr

/-- Why the model can decline an instruction. -/
inductive Refusal where
  /-- raised by an arm of `exec` whose instruction has no meaning yet; safe. No arm raises it. -/
  | notModelled (mnemonic : String)
  deriving DecidableEq, Repr

/-- A buffer after reset: nothing listed, every element zero (10_state.md R45). -/
def Memory.empty {α : Type} : Memory α := { fill := .zero, cells := [] }

/-- The state of 70_reset_and_hazards.md R220 for an instance with the given parameters. -/
def State.resetWith (P : Config.Params) : State where
  params := P
  status := 0
  result := 0
  valid := 0
  width := 0
  height := 0
  arg := 0
  vlen := 0
  bitcnt := 0
  nsym := 0
  root := 0
  ncode := 0
  slen := Vector.replicate 8 0
  pix := .empty
  plane := Vector.replicate 8 .empty
  freq := .empty
  node := .empty
  code := .empty
  strm := Vector.replicate 8 .empty
  vb := .empty
  draws := 0
  script := []
  stopOnError := false
  readings := []

/-- The machine right after reset (70_reset_and_hazards.md R220), for the instance of
`Config.Params.largest` (notes/assumptions/1.md). -/
def State.reset : State := State.resetWith .largest

end Sys2Proof.Machine
end

