-- ==== Sys2Proof/Machine/Flags.lean ====
section
/-! DEFINITION. The fields of STATUS and the flags of VALID: their bits, how an operation sets,
clears and checks them, and how a host write changes them (10_state.md R22, R33, R34;
60_exceptions.md R190, R202, R203). -/

namespace Sys2Proof.Machine

/-- The error kinds (60_exceptions.md R190). -/
inductive ErrKind where
  | invalidDimensions
  | malformedArtifact
  | unmatchedCode
  | emptyImage
  | illegalCommand
  | capacityExceeded
  | sourceInvalid
  | noCode
  deriving DecidableEq, Repr

/-- The code of a kind, as STATUS.ERRCODE holds it (60_exceptions.md R190). -/
def ErrKind.errcode : ErrKind → Word
  | .invalidDimensions => 1
  | .malformedArtifact => 2
  | .unmatchedCode => 3
  | .emptyImage => 4
  | .illegalCommand => 5
  | .capacityExceeded => 6
  | .sourceInvalid => 7
  | .noCode => 8

/-! The fields of STATUS (10_state.md R22). -/

/-- STATUS.BUSY, bit 0. -/
def statusBusy (w : Word) : Bool := w.getLsbD 0

/-- STATUS.DONE, bit 1. -/
def statusDone (w : Word) : Bool := w.getLsbD 1

/-- STATUS.ERR, bit 2. -/
def statusErr (w : Word) : Bool := w.getLsbD 2

/-- STATUS.ERRCODE, bits 7:4. -/
def statusErrcode (w : Word) : BitVec 4 := w.extractLsb' 4 4

/-- The bits of STATUS that are fields; the others are reserved and read 0 (10_state.md R22, R44). -/
def statusMask : Word := 0x000000F7

/-- STATUS while an operation runs: BUSY 1, everything else 0 (46_system.md R180). -/
def statusRunning : Word := 0x00000001

/-- STATUS after a success: DONE 1 (60_exceptions.md R203). -/
def statusSuccess : Word := 0x00000002

/-- STATUS after an error: `0x00000006 + (code << 4)` (60_exceptions.md R202). -/
def statusError (k : ErrKind) : Word := 0x00000006 + (k.errcode <<< 4)

/-! The flags of VALID (10_state.md R33), each as the mask of its bit. -/

/-- PIXV, bit 0. -/
def pixv : Word := 0x00000001
/-- FREQV, bit 1. -/
def freqv : Word := 0x00000002
/-- TREEV, bit 2. -/
def treev : Word := 0x00000004
/-- CODEV, bit 3. -/
def codev : Word := 0x00000008
/-- VBV, bit 4. -/
def vbv : Word := 0x00000010
/-- PLANEVp, bit 8 + p. -/
def planev (p : Fin 8) : Word := 1 <<< (8 + p.val)
/-- All eight PLANEV flags. -/
def planevAll : Word := 0x0000FF00
/-- STRMVp, bit 16 + p. -/
def strmv (p : Fin 8) : Word := 1 <<< (16 + p.val)

/-- HS: the flags the host may set and clear (10_state.md R34). -/
def hostSettable : Word := 0x00FF0013
/-- DO: the flags the host may only clear (10_state.md R34). -/
def derivedOnly : Word := 0x0000FF0C
/-- The bits of VALID that are flags; the others are reserved and read 0 (10_state.md R33, R44). -/
def validMask : Word := 0x00FFFF1F

/-- VALID after a host write of w: `(w AND HS) OR (old AND w AND DO)` (10_state.md R34). -/
def validAfterHostWrite (old w : Word) : Word :=
  (w &&& hostSettable) ||| (old &&& w &&& derivedOnly)

/-- The flags of a mask that are 0: SourceInvalid's information word (60_exceptions.md R197). -/
def State.missingFlags (m : Word) (s : State) : Word := m &&& ~~~ s.valid

/-- Set the flags of a mask. -/
def State.setFlags (m : Word) (s : State) : State := { s with valid := s.valid ||| m }

/-- Clear the flags of a mask. -/
def State.clearFlags (m : Word) (s : State) : State := { s with valid := s.valid &&& ~~~ m }

end Sys2Proof.Machine
end

