-- ==== Sys2Proof/Machine/Ops.lean ====
section
/-! DEFINITION. The operations over buffers (20_memory.md R61, R62) and the two ways an operation
ends: `State.finish`, the spec's `done` (60_exceptions.md R203), and `State.raise` (R202). There is
no return from an error (R204): the host reads STATUS and issues the next command. -/

namespace Sys2Proof.Machine

/-! ### One buffer -/

/-- What an element that is not listed holds. -/
def Memory.unlisted {α : Type} (e : Config.Elem α) (m : Memory α) (i : Nat) : α :=
  match m.fill with
  | .zero => e.zero
  | .drawn n => e.free n i

/-- The listed element at an index, if there is one. -/
def lookupCell {α : Type} : List (Nat × α) → Nat → Option α
  | [], _ => none
  | c :: cs, i => if c.1 = i then some c.2 else lookupCell cs i

/-- List an element at its place in the rising order, in place of an old one at that index. -/
def insertCell {α : Type} : List (Nat × α) → Nat → α → List (Nat × α)
  | [], i, v => [(i, v)]
  | c :: cs, i, v =>
    if i < c.1 then (i, v) :: c :: cs
    else if i = c.1 then (i, v) :: cs
    else c :: insertCell cs i v

/-- Take the element at an index off the list. -/
def eraseCell {α : Type} : List (Nat × α) → Nat → List (Nat × α)
  | [], _ => []
  | c :: cs, i => if c.1 = i then eraseCell cs i else c :: eraseCell cs i

/-- `BUF[i]` (00_scope.md R8). -/
def Memory.get {α : Type} (e : Config.Elem α) (m : Memory α) (i : Nat) : α :=
  (lookupCell m.cells i).getD (m.unlisted e i)

/-- `BUF[i] <- v` (00_scope.md R8), in the canonical form: over the reset fill a zero is not
listed; over an unspecified fill every written element is (notes/assumptions/4.md). -/
def Memory.write {α : Type} [DecidableEq α] (e : Config.Elem α) (m : Memory α) (i : Nat) (v : α) :
    Memory α :=
  if m.fill = .zero ∧ v = e.zero then { m with cells := eraseCell m.cells i }
  else { m with cells := insertCell m.cells i v }

/-- `MemRead(BUF:i, n)` (00_scope.md R8). -/
def Memory.readFrom {α : Type} (e : Config.Elem α) (m : Memory α) (i : Nat) : Nat → List α
  | 0 => []
  | n + 1 => m.get e i :: m.readFrom e (i + 1) n

/-- `MemWrite(BUF:i, n, s)`, with n the length of s (00_scope.md R8). -/
def Memory.writeFrom {α : Type} [DecidableEq α] (e : Config.Elem α) (m : Memory α) (i : Nat) :
    List α → Memory α
  | [] => m
  | v :: vs => (m.write e i v).writeFrom e (i + 1) vs

/-- A buffer every element of which is unspecified, by draw number n (60_exceptions.md R202). -/
def Memory.unspecified {α : Type} (n : Nat) : Memory α := { fill := .drawn n, cells := [] }

/-- Strictly rising indices, none of them below `lo`. -/
def risingFrom {α : Type} : Nat → List (Nat × α) → Bool
  | _, [] => true
  | lo, c :: cs => decide (lo ≤ c.1) && risingFrom (c.1 + 1) cs

/-- The canonical form: strictly rising indices, and over the reset fill no listed zero. -/
def Memory.wf {α : Type} [DecidableEq α] (e : Config.Elem α) (m : Memory α) : Bool :=
  risingFrom 0 m.cells && (decide (m.fill ≠ .zero) || m.cells.all fun c => decide (c.2 ≠ e.zero))

/-- Every listed index lies inside the buffer's capacity (20_memory.md R60). -/
def Memory.within {α : Type} (m : Memory α) (capacity : Nat) : Bool :=
  m.cells.all fun c => decide (c.1 < capacity)

/-! ### The end of an operation -/

/-- What an operation writes: the buffer, bank or banks named after "Writes" in its rule. -/
inductive Dest where
  | none
  | pix
  | planes
  | plane (p : Fin 8)
  | freq
  | node
  | code
  | strm (p : Fin 8)
  | vb
  deriving DecidableEq, Repr

/-- The flags of VALID that belong to a destination (10_state.md R33). -/
def Dest.flags : Dest → Word
  | .none => 0
  | .pix => pixv
  | .planes => planevAll
  | .plane p => planev p
  | .freq => freqv
  | .node => treev
  | .code => codev
  | .strm p => strmv p
  | .vb => vbv

/-- Every element of the destination becomes unspecified, over the buffer's whole capacity
(60_exceptions.md R202): each buffer or bank takes a draw number that nothing has used before
(notes/assumptions/2.md). -/
def State.unspecify (d : Dest) (s : State) : State :=
  match d with
  | .none => s
  | .pix => { s with pix := .unspecified s.draws, draws := s.draws + 1 }
  | .planes => { s with plane := Vector.ofFn fun p : Fin 8 => .unspecified (s.draws + p.val), draws := s.draws + 8 }
  | .plane p => { s with plane := s.plane.set p.val (.unspecified s.draws) p.isLt, draws := s.draws + 1 }
  | .freq => { s with freq := .unspecified s.draws, draws := s.draws + 1 }
  | .node => { s with node := .unspecified s.draws, draws := s.draws + 1 }
  | .code => { s with code := .unspecified s.draws, draws := s.draws + 1 }
  | .strm p => { s with strm := s.strm.set p.val (.unspecified s.draws) p.isLt, draws := s.draws + 1 }
  | .vb => { s with vb := .unspecified s.draws, draws := s.draws + 1 }

/-- `raise Kind(info)` (60_exceptions.md R202): STATUS and RESULT report the error, the
destination's flags are cleared and its elements become unspecified; everything else, the length
registers among it, is unchanged. With `Dest.none` this is VDEC's error, and IllegalCommand's
(R195). -/
def State.raise (k : ErrKind) (info : Word) (d : Dest) (s : State) : State :=
  { (s.unspecify d).clearFlags d.flags with status := statusError k, result := info }

/-- `done(r)` (60_exceptions.md R203), with the destination's flags set. -/
def State.finish (r : Word) (d : Dest) (s : State) : State :=
  { s.setFlags d.flags with status := statusSuccess, result := r }

/-- The error that ends an operation: its kind and its information word. -/
structure OpError where
  kind : ErrKind
  info : Word
  deriving DecidableEq, Repr

/-- The answer of a meaning. -/
abbrev Answer := Host.Outcome State Fault Refusal

/-- Run an operation's body to its `done` or to its first `raise`; an error is raised in the state
in which the operation was issued, since what the operation wrote before is unspecified after it
(60_exceptions.md R202, R208). -/
def conclude (d : Dest) (s : State) (body : Except OpError State) : Answer :=
  match body with
  | .ok t => .next t
  | .error e => .next (s.raise e.kind e.info d)

/-- The next state of an answer, changed by f; a fault or a refusal stays as it is. -/
def onNext (f : State → State) (a : Answer) : Answer :=
  match a with
  | .next s => .next (f s)
  | .fault r => .fault r
  | .refused r => .refused r

end Sys2Proof.Machine
end

