-- ==== Sys2Proof/Machine/Operands.lean ====
section
/-! DEFINITION. What operations and host moves read and write: the grid and its check
(60_exceptions.md R200), source flags (R197), the elements of each buffer, the registers by number
(10_state.md R20) and the host's accesses (20_memory.md R61, 46_system.md R184, R185). -/

namespace Sys2Proof.Machine

open Sys2Proof.Config

/-- A natural number as a register word; every rule keeps it below 2^32 (00_scope.md R6). -/
def toWord (n : Nat) : Word := BitVec.ofNat 32 n

/-! ### The checks -/

/-- InvalidDimensions' information word: bit 0 when W ≤ 0, bit 1 when H ≤ 0, on the signed values
(60_exceptions.md R191). -/
def dimensionErrors (s : State) : Word :=
  (if s.width.toInt ≤ 0 then 1 else 0) + (if s.height.toInt ≤ 0 then 2 else 0)

/-- N = W × H, exact (00_scope.md R9, R10). -/
def pixelCount (s : State) : Nat := (s.width.toInt * s.height.toInt).toNat

/-- GridCheck (60_exceptions.md R200). -/
def gridCheck (s : State) : Except OpError Nat :=
  if dimensionErrors s ≠ 0 then .error ⟨.invalidDimensions, dimensionErrors s⟩
  else if pixelCount s > s.params.maxPix then
    .error ⟨.capacityExceeded, toWord (min (pixelCount s) (2 ^ 32 - 1))⟩
  else .ok (pixelCount s)

/-- SourceInvalid, with the mask of the required flags that are 0 (60_exceptions.md R197). -/
def requireFlags (m : Word) (s : State) : Except OpError Unit :=
  if s.missingFlags m ≠ 0 then .error ⟨.sourceInvalid, s.missingFlags m⟩ else .ok ()

/-! ### The elements of the buffers -/

/-- `PIX[i]` -/
def State.pixAt (s : State) (i : Nat) : Byte := s.pix.get byteElem i
/-- `PLANE[p][i]` -/
def State.planeAt (s : State) (p : Fin 8) (i : Nat) : Bool := s.plane[p].get bitElem i
/-- `FREQ[i]` -/
def State.freqAt (s : State) (i : Nat) : Word := s.freq.get freqElem i
/-- `NODE[i]` -/
def State.nodeAt (s : State) (i : Nat) : NodeRec := s.node.get nodeElem i
/-- `CODE[i]` -/
def State.codeAt (s : State) (i : Nat) : CodeRec := s.code.get codeElem i
/-- `STRM[p][i]` -/
def State.strmAt (s : State) (p : Fin 8) (i : Nat) : Byte := s.strm[p].get byteElem i
/-- `VB[i]` -/
def State.vbAt (s : State) (i : Nat) : Byte := s.vb.get byteElem i

/-- `MemRead(PIX:0, n)`: the image in traversal order (00_scope.md R10). -/
def State.pixels (s : State) (n : Nat) : List Byte := s.pix.readFrom byteElem 0 n
/-- `MemRead(PLANE[p]:0, n)` -/
def State.planeBits (s : State) (p : Fin 8) (n : Nat) : List Bool := s.plane[p].readFrom bitElem 0 n
/-- `MemRead(STRM[p]:0, n)` -/
def State.strmBytes (s : State) (p : Fin 8) (n : Nat) : List Byte := s.strm[p].readFrom byteElem 0 n

/-- `MemWrite(PIX:0, ..)` -/
def State.putPixels (vs : List Byte) (s : State) : State :=
  { s with pix := s.pix.writeFrom byteElem 0 vs }
/-- `MemWrite(PLANE[p]:0, ..)` -/
def State.putPlane (p : Fin 8) (vs : List Bool) (s : State) : State :=
  { s with plane := s.plane.set p.val (s.plane[p].writeFrom bitElem 0 vs) p.isLt }
/-- `MemWrite(STRM[p]:0, ..)`, with `SLENp` the number of bytes written. -/
def State.putStream (p : Fin 8) (vs : List Byte) (s : State) : State :=
  { s with
    strm := s.strm.set p.val (s.strm[p].writeFrom byteElem 0 vs) p.isLt
    slen := s.slen.set p.val (toWord vs.length) p.isLt }

/-! ### Registers by number (10_state.md R20) -/

/-- The word the host reads from register k: CMD and the reserved numbers read 0, and so do the
reserved bits of STATUS and VALID (10_state.md R20, R21, R44). -/
def State.readReg (s : State) (k : Nat) : Word :=
  if k = 1 then s.status &&& statusMask
  else if k = 2 then s.result
  else if k = 3 then s.valid &&& validMask
  else if k = 4 then s.width
  else if k = 5 then s.height
  else if k = 6 then s.arg
  else if k = 7 then s.vlen
  else if k = 8 then s.bitcnt
  else if k = 9 then s.nsym
  else if k = 10 then s.root
  else if k = 11 then s.ncode
  else if h : 16 ≤ k ∧ k < 24 then s.slen[k - 16]
  else 0

/-- A host write of w to register k, for every k but CMD: the read-write registers take the word
unchecked, VALID follows 10_state.md R34, and every other number ignores the write
(46_system.md R184). -/
def State.writeReg (k : Nat) (w : Word) (s : State) : State :=
  if k = 3 then { s with valid := validAfterHostWrite s.valid w }
  else if k = 4 then { s with width := w }
  else if k = 5 then { s with height := w }
  else if k = 6 then { s with arg := w }
  else if k = 7 then { s with vlen := w }
  else if k = 8 then { s with bitcnt := w }
  else if h : 16 ≤ k ∧ k < 24 then { s with slen := s.slen.set (k - 16) w }
  else s

/-- The word a host write carries, from what the host reads first (30_encoding.md R90). -/
def State.hostWord (s : State) : HostWord → Word
  | .const w => w
  | .reg k => s.readReg k
  | .regOr k m => s.readReg k ||| m
  | .regAndNot k m => s.readReg k &&& ~~~ m
  | .regTimes k l => s.readReg k * s.readReg l

/-! ### Host accesses to the buffers (20_memory.md R61, 46_system.md R185) -/

/-- HostReadBuf: the stored element; an index outside the space reads 0. -/
def State.readBuf (s : State) (sp : Space) (i : Nat) : HostDatum :=
  match sp with
  | .pix => .byte (if i < s.params.maxPix then s.pixAt i else 0)
  | .plane p =>
    .bit (if h : p < 8 then (if i < s.params.maxPix then s.planeAt ⟨p, h⟩ i else false) else false)
  | .freq => .word (if i < symbols then s.freqAt i else 0)
  | .node => .node (if i < nodes then s.nodeAt i else nodeElem.zero)
  | .code => .code (if i < symbols then s.codeAt i else codeElem.zero)
  | .strm p =>
    .byte (if h : p < 8 then (if i < s.params.maxStrm then s.strmAt ⟨p, h⟩ i else 0) else 0)
  | .vb => .byte (if i < s.params.maxVb then s.vbAt i else 0)

/-- HostWriteBuf: PIX, FREQ, STRM and VB take the value, reduced to the element's width, at an
index in range; every other write is ignored. No flag and no length register changes. -/
def State.writeBuf (sp : Space) (i : Nat) (v : Nat) (s : State) : State :=
  match sp with
  | .pix =>
    if i < s.params.maxPix then { s with pix := s.pix.write byteElem i (BitVec.ofNat 8 v) } else s
  | .plane _ => s
  | .freq =>
    if i < symbols then { s with freq := s.freq.write freqElem i (BitVec.ofNat 32 v) } else s
  | .node => s
  | .code => s
  | .strm p =>
    if h : p < 8 then
      if i < s.params.maxStrm then
        { s with strm := s.strm.set p (s.strm[p].write byteElem i (BitVec.ofNat 8 v)) }
      else s
    else s
  | .vb =>
    if i < s.params.maxVb then { s with vb := s.vb.write byteElem i (BitVec.ofNat 8 v) } else s

/-- What `rdbuf` returns, last element first: n consecutive elements from index i
(30_encoding.md R90). -/
def State.readBufRange (s : State) (sp : Space) (i : Nat) : Nat → List HostDatum
  | 0 => []
  | n + 1 => s.readBufRange sp (i + 1) n ++ [s.readBuf sp i]

end Sys2Proof.Machine
end

