-- ==== Sys2Proof/Machine/BitPlane.lean ====
section
/-! DEFINITION. The bit-plane extractor and combiner: BPX and BPC (41_bitplane.md). -/

namespace Sys2Proof.Machine

/-- `planebit(v, p) = (v >> p) AND 1`: plane 0 is the least-significant bit (41_bitplane.md R110;
90_conflicts.md C1). -/
def planebit (v : Byte) (p : Fin 8) : Bool := v.getLsbD p.val

/-- `combine(b0, ..., b7)`: the sum of bp × 2^p (41_bitplane.md R110). -/
def combine (b : Fin 8 → Bool) : Byte :=
  BitVec.ofNat 8 ((List.finRange 8).foldl (fun acc p => acc + (b p).toNat * 2 ^ p.val) 0)

/-- BPX (41_bitplane.md R111). -/
def execBpx (s : State) : Answer :=
  conclude .planes s <| do
    let n ← gridCheck s
    requireFlags pixv s
    .ok ({ s with
            plane := Vector.ofFn fun p : Fin 8 =>
              s.plane[p].writeFrom Config.bitElem 0 ((s.pixels n).map fun v => planebit v p) }.finish
          (toWord n) .planes)

/-- BPC (41_bitplane.md R112). -/
def execBpc (s : State) : Answer :=
  conclude .pix s <| do
    let n ← gridCheck s
    requireFlags planevAll s
    .ok ((s.putPixels ((List.range n).map fun i => combine fun p => s.planeAt p i)).finish
          (toWord n) .pix)

end Sys2Proof.Machine
end

