-- ==== Sys2Proof/Machine/HuffmanBuild.lean ====
section
/-! DEFINITION. The frequency counter, the Huffman tree builder and the prefix-code table
generator: HFREQ, HBUILD and HGEN (44_huffman_build.md). -/

namespace Sys2Proof.Machine

open Sys2Proof.Config

/-! ### HFREQ -/

/-- The 256 counts of an image's intensities (44_huffman_build.md R141). -/
def histogram (px : List Byte) : List Nat :=
  (List.range symbols).map fun x => px.count (BitVec.ofNat 8 x)

/-- HFREQ (44_huffman_build.md R141). All 256 elements are written, so nothing of the old buffer is
left (70_reset_and_hazards.md R229). -/
def execHfreq (s : State) : Answer :=
  conclude .freq s <| do
    let n ← gridCheck s
    requireFlags pixv s
    let counts := histogram (s.pixels n)
    .ok ({ s with freq := Memory.empty.writeFrom freqElem 0 (counts.map toWord) }.finish
          (toWord (counts.countP fun c => c ≠ 0)) .freq)

/-! ### HBUILD -/

/-- The key of a node: its frequency and its index in NODE (44_huffman_build.md R142). -/
abbrev QueueKey := Nat × Nat

/-- Keys are compared lexicographically: lower frequency first, then lower index
(44_huffman_build.md R142). -/
def keyLess (a b : QueueKey) : Bool := a.1 < b.1 || (a.1 == b.1 && a.2 < b.2)

/-- `popmin`: the least key of the live nodes, and the others (44_huffman_build.md R142). -/
def popMin : List QueueKey → Option (QueueKey × List QueueKey)
  | [] => none
  | k :: ks =>
    match popMin ks with
    | none => some (k, [])
    | some (m, rest) => if keyLess k m then some (k, ks) else some (m, k :: rest)

/-- The intensities with a nonzero count, ascending. -/
def State.occurring (s : State) : List Nat :=
  (List.range symbols).filter fun x => s.freqAt x ≠ 0

/-- The leaf of an intensity (10_state.md R39). -/
def leafNode (count : Word) (x : Nat) : NodeRec :=
  { freq := count.zeroExtend 40, leaf := true, sym := BitVec.ofNat 8 x, left := 0, right := 0 }

/-- The leaves, in ascending intensity (44_huffman_build.md R143). -/
def State.leafNodes (s : State) : List NodeRec := s.occurring.map fun x => leafNode (s.freqAt x) x

/-- The keys of a list of nodes, numbered from k. -/
def queueKeys : Nat → List NodeRec → List QueueKey
  | _, [] => []
  | k, n :: ns => (n.freq.toNat, k) :: queueKeys (k + 1) ns

/-- The internal node made of the two nodes popped first and second: the first is the left child
(44_huffman_build.md R143). The sum fits 40 bits (10_state.md R39). -/
def mergedNode (a b : QueueKey) : NodeRec :=
  { freq := BitVec.ofNat 40 (a.1 + b.1), leaf := false, sym := 0,
    left := BitVec.ofNat 9 a.2, right := BitVec.ofNat 9 b.2 }

/-- The merge loop (44_huffman_build.md R143): the nodes made so far, in index order, and the live
nodes' keys. The fuel bounds the number of merges by the number of leaves. -/
def mergeLoop : Nat → List NodeRec → List QueueKey → List NodeRec
  | 0, made, _ => made
  | fuel + 1, made, live =>
    match popMin live with
    | none => made
    | some (a, live₁) =>
      match popMin live₁ with
      | none => made
      | some (b, live₂) =>
        mergeLoop fuel (made ++ [mergedNode a b]) ((a.1 + b.1, made.length) :: live₂)

/-- The nodes of the Huffman tree, in index order: the leaves, then the internal nodes in the order
they are made; the last is the root (44_huffman_build.md R143). -/
def huffmanNodes (leaves : List NodeRec) : List NodeRec :=
  mergeLoop leaves.length leaves (queueKeys 0 leaves)

/-- HBUILD (44_huffman_build.md R143). -/
def execHbuild (s : State) : Answer :=
  conclude .node s <| do
    requireFlags freqv s
    if s.occurring.length = 0 then .error ⟨.emptyImage, 0⟩
    else
      let made := huffmanNodes s.leafNodes
      .ok ({ s with
              node := s.node.writeFrom nodeElem 0 made
              nsym := toWord s.occurring.length
              root := toWord (made.length - 1) }.finish (toWord s.occurring.length) .node)

/-! ### HGEN -/

/-- `visit` (44_huffman_build.md R145): the leaves below node k in depth-first order, each with its
symbol and its path. Descending left adds a 0, descending right a 1. The fuel bounds the depth
(R149; notes/assumptions/10.md). -/
def visit (node : Nat → NodeRec) : Nat → Nat → List Bool → List (Byte × List Bool)
  | 0, _, _ => []
  | fuel + 1, k, path =>
    if (node k).leaf then [((node k).sym, path)]
    else
      visit node fuel (node k).left.toNat (path ++ [false]) ++
      visit node fuel (node k).right.toNat (path ++ [true])

/-- The record of a code: bit j of `bits` is the path's bit j, and the bits above are 0
(10_state.md R40). -/
def codeRec (path : List Bool) : CodeRec :=
  { present := true, len := BitVec.ofNat 8 path.length,
    bits := (BitVec.ofBoolListLE path).setWidth 255 }

/-- The codes of the tree: one per leaf; the single symbol's is the one-bit code "0"
(44_huffman_build.md R145, R147). -/
def State.treeCodes (s : State) : List (Byte × List Bool) :=
  if s.nsym = 1 then [((s.nodeAt s.root.toNat).sym, [false])]
  else visit s.nodeAt 256 s.root.toNat []

/-- CODE after the 256 entries are cleared and the given codes written, in order. -/
def codeTable (codes : List (Byte × List Bool)) : Memory CodeRec :=
  codes.foldl (fun m c => m.write codeElem c.1.toNat (codeRec c.2)) .empty

/-- The greatest code length (44_huffman_build.md R145). -/
def greatestLength (codes : List (Byte × List Bool)) : Nat :=
  codes.foldl (fun m c => max m c.2.length) 0

/-- HGEN (44_huffman_build.md R145). -/
def execHgen (s : State) : Answer :=
  conclude .code s <| do
    requireFlags treev s
    .ok ({ s with code := codeTable s.treeCodes, ncode := s.nsym }.finish
          (toWord (greatestLength s.treeCodes)) .code)

end Sys2Proof.Machine
end

