-- ==== Sys2Proof/Machine/Varint.lean ====
section
/-! DEFINITION. The varint encoder and decoder: VENC and VDEC (40_varint.md). -/

namespace Sys2Proof.Machine

open Sys2Proof.Config

/-- `varint(n)`: q = (n − 1) div 255 saturation bytes and a last byte in 1..255; `[0]` for n = 0
(40_varint.md R100; 90_conflicts.md C2). -/
def varint (n : Nat) : List Byte :=
  if n = 0 then [0]
  else List.replicate ((n - 1) / 255) 255 ++ [BitVec.ofNat 8 (n - 255 * ((n - 1) / 255))]

/-- `unvarint(s) = 255 × (k − 1) + s[k − 1]`, from the byte count and the last byte only
(40_varint.md R101). -/
def unvarint (k : Nat) (last : Byte) : Nat := 255 * (k - 1) + last.toNat

/-- `max(1, ⌈n / 255⌉)`, the length of varint(n) (40_varint.md R100, R102). -/
def varintLength (n : Nat) : Nat := max 1 ((n + 254) / 255)

/-- VENC (40_varint.md R102). -/
def execVenc (s : State) : Answer :=
  conclude .vb s <|
    if varintLength s.arg.toNat > s.params.maxVb then
      .error ⟨.capacityExceeded, toWord (varintLength s.arg.toNat)⟩
    else
      .ok ({ s with
              vb := s.vb.writeFrom byteElem 0 (varint s.arg.toNat)
              vlen := toWord (varintLength s.arg.toNat) }.finish
            (toWord (varintLength s.arg.toNat)) .vb)

/-- VDEC (40_varint.md R103): it has no destination, so its errors change STATUS and RESULT
only. -/
def execVdec (s : State) : Answer :=
  conclude .none s <| do
    requireFlags vbv s
    if s.vlen.toNat > s.params.maxVb then .error ⟨.capacityExceeded, s.vlen⟩
    else if s.vlen = 0 then .error ⟨.malformedArtifact, 0⟩
    else .ok (s.finish (toWord (unvarint s.vlen.toNat (s.vbAt (s.vlen.toNat - 1)))) .none)

end Sys2Proof.Machine
end

