-- ==== Sys2Proof/Machine/RleGray.lean ====
section
/-! DEFINITION. The run-length encoder and decoder in grayscale mode: RGENC and RGDEC
(42_rle_gray.md). -/

namespace Sys2Proof.Machine

/-- The maximal runs of a sequence, each a length and a value, in order (42_rle_gray.md R120). -/
def runs {α : Type} [DecidableEq α] : List α → List (Nat × α)
  | [] => []
  | x :: xs =>
    match runs xs with
    | [] => [(1, x)]
    | r :: rs => if x = r.2 then (r.1 + 1, x) :: rs else (1, x) :: r :: rs

/-- `items(L, v)`: each byte of varint(L) paired with the intensity (42_rle_gray.md R120). -/
def items (L : Nat) (v : Byte) : List Byte := (varint L).flatMap fun b => [b, v]

/-- The grayscale stream of an image: `items` of every maximal run in order (42_rle_gray.md R120). -/
def grayStream (px : List Byte) : List Byte := (runs px).flatMap fun r => items r.1 r.2

/-- The replay of a grayscale stream into a grid of n pixels (42_rle_gray.md R122). `i` pixels and
`pos` bytes are done; the answer is the remaining pixels and the number of bytes consumed in
all. The truncation test precedes the overrun test (60_exceptions.md R207). -/
def grayReplay (n : Nat) : List Byte → Nat → Nat → Except OpError (List Byte × Nat)
  | len :: val :: rest, i, pos =>
    if n ≤ i then .ok ([], pos)
    else if i + len.toNat > n then .error ⟨.malformedArtifact, toWord i⟩
    else do
      let r ← grayReplay n rest (i + len.toNat) (pos + 2)
      .ok (List.replicate len.toNat val ++ r.1, r.2)
  | _, i, pos => if n ≤ i then .ok ([], pos) else .error ⟨.malformedArtifact, toWord i⟩

/-- A declared stream length that does not fit the bank (60_exceptions.md R196). -/
def streamFits (p : Fin 8) (s : State) : Except OpError Unit :=
  if s.slen[p].toNat > s.params.maxStrm then .error ⟨.capacityExceeded, s.slen[p]⟩ else .ok ()

/-- RGENC (42_rle_gray.md R121). -/
def execRgenc (s : State) : Answer :=
  conclude (.strm 0) s <| do
    let n ← gridCheck s
    requireFlags pixv s
    .ok ((s.putStream 0 (grayStream (s.pixels n))).finish
          (toWord (grayStream (s.pixels n)).length) (.strm 0))

/-- RGDEC (42_rle_gray.md R122). -/
def execRgdec (s : State) : Answer :=
  conclude .pix s <| do
    let n ← gridCheck s
    requireFlags (strmv 0) s
    streamFits 0 s
    let r ← grayReplay n (s.strmBytes 0 s.slen[0].toNat) 0 0
    .ok ((s.putPixels r.1).finish (toWord r.2) .pix)

end Sys2Proof.Machine
end

