-- ==== Sys2Proof/Machine/HuffmanStream.lean ====
section
/-! DEFINITION. The Huffman bit-packer and bit-stream scanner: HENC and HDEC
(45_huffman_stream.md). -/

namespace Sys2Proof.Machine

open Sys2Proof.Config

/-- The code as a bit sequence, `bits[0 .. len−1]` (10_state.md R40). -/
def codeBits (c : CodeRec) : List Bool := (List.range c.len.toNat).map fun j => c.bits.getLsbD j

/-- A bit sequence read as a binary number, first bit most significant. -/
def bitsValue (bs : List Bool) : Nat := bs.foldl (fun v b => 2 * v + b.toNat) 0

/-- `value(c)` (10_state.md R40; 45_huffman_stream.md R162). -/
def codeValue (c : CodeRec) : Nat := bitsValue (codeBits c)

/-! ### HENC -/

/-- The codes of the pixels, concatenated in traversal order; `i` pixels and `cnt` bits are done.
For one pixel NoCode is tested before the capacity (45_huffman_stream.md R161,
60_exceptions.md R207). -/
def packCodes (code : Nat → CodeRec) (capacity : Nat) : List Byte → Nat → Nat → Except OpError (List Bool)
  | [], _, _ => .ok []
  | v :: vs, i, cnt =>
    if (code v.toNat).present = false then .error ⟨.noCode, toWord i⟩
    else if cnt + (code v.toNat).len.toNat > capacity then .error ⟨.capacityExceeded, toWord i⟩
    else do
      let rest ← packCodes code capacity vs (i + 1) (cnt + (code v.toNat).len.toNat)
      .ok (codeBits (code v.toNat) ++ rest)

/-- Byte k of a packed stream: stream bit 8 × k + j is its bit 7 − j, and the positions past the
end are padding zeros (20_memory.md R65). -/
def packedByte (bits : List Bool) (k : Nat) : Byte :=
  BitVec.ofNat 8 (bitsValue ((List.range 8).map fun j => bits.getD (8 * k + j) false))

/-- The bytes of a packed stream, ⌈|bits| / 8⌉ of them (20_memory.md R65). -/
def packedBytes (bits : List Bool) : List Byte :=
  (List.range ((bits.length + 7) / 8)).map fun k => packedByte bits k

/-- HENC (45_huffman_stream.md R161). -/
def execHenc (s : State) : Answer :=
  conclude (.strm 0) s <| do
    let n ← gridCheck s
    requireFlags (pixv ||| codev) s
    let bits ← packCodes s.codeAt (8 * s.params.maxStrm) (s.pixels n) 0 0
    .ok (({ s with bitcnt := toWord bits.length }.putStream 0 (packedBytes bits)).finish
          (toWord bits.length) (.strm 0))

/-! ### HDEC -/

/-- `StreamBit(k)` (20_memory.md R65). -/
def State.streamBit (s : State) (k : Nat) : Bool := (s.strmAt 0 (k / 8)).getLsbD (7 - k % 8)

/-- `window(pos, L)`: the L stream bits from pos as a number, first bit most significant
(45_huffman_stream.md R162). -/
def State.window (s : State) (pos L : Nat) : Nat :=
  bitsValue ((List.range L).map fun j => s.streamBit (pos + j))

/-- `lookup(L, v)` (45_huffman_stream.md R162): the intensity whose code has length L and value v.
In a valid table at most one does; in any other table this is the least (notes/assumptions/9.md). -/
def State.lookupCode (s : State) (L v : Nat) : Option Byte :=
  ((List.range symbols).find? fun x =>
      (s.codeAt x).present && (s.codeAt x).len.toNat == L && codeValue (s.codeAt x) == v).map
    fun x => BitVec.ofNat 8 x

/-- The scan of one pixel i from stream position pos: candidate length L and `tries` − 1 more after
it. At each length the exhaustion test comes first, then the lookup; the answer is the symbol and
the length that matched (45_huffman_stream.md R163). -/
def State.scanCode (s : State) (i pos : Nat) : Nat → Nat → Except OpError (Byte × Nat)
  | _, 0 => .error ⟨.unmatchedCode, toWord pos⟩
  | L, tries + 1 =>
    if pos + L > s.bitcnt.toNat then .error ⟨.malformedArtifact, toWord i⟩
    else
      match s.lookupCode L (s.window pos L) with
      | some x => .ok (x, L)
      | none => s.scanCode i pos (L + 1) tries

/-- The scan of the pixels that remain, `i` done so far and the stream at position pos; the answer
is their intensities and the final position (45_huffman_stream.md R163). -/
def State.scanPixels (s : State) : Nat → Nat → Nat → Except OpError (List Byte × Nat)
  | 0, _, pos => .ok ([], pos)
  | n + 1, i, pos => do
    let c ← s.scanCode i pos 1 s.params.maxScan
    let r ← s.scanPixels n (i + 1) (pos + c.2)
    .ok (c.1 :: r.1, r.2)

/-- The one intensity with a code, for the degenerate decode (45_huffman_stream.md R164); in a
table with none, which no operation makes, a free value (notes/assumptions/9.md). -/
def State.soleSymbol (s : State) : Byte :=
  match (List.range symbols).find? fun x => (s.codeAt x).present with
  | some x => BitVec.ofNat 8 x
  | none => freeSymbol s.draws

/-- HDEC (45_huffman_stream.md R163), with the degenerate decode of R164. -/
def execHdec (s : State) : Answer :=
  conclude .pix s <| do
    let n ← gridCheck s
    requireFlags codev s
    if s.ncode = 1 then
      .ok ((s.putPixels (List.replicate n s.soleSymbol)).finish 0 .pix)
    else
      requireFlags (strmv 0) s
      streamFits 0 s
      if s.bitcnt.toNat > 8 * s.slen[0].toNat then .error ⟨.malformedArtifact, 0⟩
      else
        let r ← s.scanPixels n 0 0
        .ok ((s.putPixels r.1).finish (toWord r.2) .pix)

end Sys2Proof.Machine
end

