-- ==== Sys2Proof/Machine/RlePlane.lean ====
section
/-! DEFINITION. The run-length encoder and decoder in bit-plane mode: BPENC and BPDEC
(43_rle_bitplane.md). -/

namespace Sys2Proof.Machine

/-- `pitems(L)`: the bytes of varint(L) with a zero byte between each two (43_rle_bitplane.md R130). -/
def pitems (L : Nat) : List Byte := (varint L).intersperse 0

/-- The stream of a plane: a zero lead byte if it begins with false, then `pitems` of every maximal
run in order (43_rle_bitplane.md R130). -/
def planeStream (bits : List Bool) : List Byte :=
  (if bits.head? = some false then [0] else []) ++ (runs bits).flatMap fun r => pitems r.1

/-- The replay of a plane stream into n pixels (43_rle_bitplane.md R132): `i` pixels and `pos`
bytes are done and the next run has colour `c`, which flips after every item, also after an item
of length 0. -/
def planeReplay (n : Nat) : List Byte → Nat → Nat → Bool → Except OpError (List Bool × Nat)
  | [], i, pos, _ => if n ≤ i then .ok ([], pos) else .error ⟨.malformedArtifact, toWord i⟩
  | len :: rest, i, pos, c =>
    if n ≤ i then .ok ([], pos)
    else if i + len.toNat > n then .error ⟨.malformedArtifact, toWord i⟩
    else do
      let r ← planeReplay n rest (i + len.toNat) (pos + 1) (!c)
      .ok (List.replicate len.toNat c ++ r.1, r.2)

/-- BPENC p (43_rle_bitplane.md R131). -/
def execBpenc (p : Fin 8) (s : State) : Answer :=
  conclude (.strm p) s <| do
    let n ← gridCheck s
    requireFlags (planev p) s
    .ok ((s.putStream p (planeStream (s.planeBits p n))).finish
          (toWord (planeStream (s.planeBits p n)).length) (.strm p))

/-- BPDEC p (43_rle_bitplane.md R132); the first run is white. -/
def execBpdec (p : Fin 8) (s : State) : Answer :=
  conclude (.plane p) s <| do
    let n ← gridCheck s
    requireFlags (strmv p) s
    streamFits p s
    let r ← planeReplay n (s.strmBytes p s.slen[p].toNat) 0 0 true
    .ok ((s.putPlane p r.1).finish (toWord r.2) (.plane p))

end Sys2Proof.Machine
end

