-- ==== Sys2Proof/Machine/System.lean ====
section
/-! DEFINITION. The system operation SRST and the reset input (46_system.md R181,
70_reset_and_hazards.md R220, R222). -/

namespace Sys2Proof.Machine

/-- Every register and every buffer element at its reset value (70_reset_and_hazards.md R220). The
parameters are not state and stay (R222); so does what is the host's: its pending moves, its
stop-on-error, what it has read. The draw counter only rises (notes/assumptions/3.md). -/
def State.toReset (s : State) : State :=
  { State.resetWith s.params with
    draws := s.draws
    script := s.script
    stopOnError := s.stopOnError
    readings := s.readings }

/-- SRST (46_system.md R181). -/
def execSrst (s : State) : Answer :=
  conclude .none s <| .ok (s.toReset.finish 0 .none)

end Sys2Proof.Machine
end

