-- ==== Sys2Proof/Machine/Dispatch.lean ====
section
/-! DEFINITION. The meaning of each operation (30_encoding.md R85). -/

namespace Sys2Proof.Machine

def exec (i : Instr) (s : State) : Host.Outcome State Fault Refusal :=
  match i with
  | .venc => Sys2Proof.Machine.execVenc s
  | .vdec => Sys2Proof.Machine.execVdec s
  | .bpx => Sys2Proof.Machine.execBpx s
  | .bpc => Sys2Proof.Machine.execBpc s
  | .bpenc p => Sys2Proof.Machine.execBpenc p s
  | .bpdec p => Sys2Proof.Machine.execBpdec p s
  | .rgenc => Sys2Proof.Machine.execRgenc s
  | .rgdec => Sys2Proof.Machine.execRgdec s
  | .hfreq => Sys2Proof.Machine.execHfreq s
  | .hbuild => Sys2Proof.Machine.execHbuild s
  | .hgen => Sys2Proof.Machine.execHgen s
  | .henc => Sys2Proof.Machine.execHenc s
  | .hdec => Sys2Proof.Machine.execHdec s
  | .srst => Sys2Proof.Machine.execSrst s

end Sys2Proof.Machine
end

