-- ==== Sys2Proof/Machine/Port.lean ====
section
/-! DEFINITION. The command port and the host's moves (46_system.md R180, R184, R185; 20_memory.md
R61; 30_encoding.md R90): what one step of the machine does. -/

namespace Sys2Proof.Machine

/-- STATUS as an operation starts: BUSY 1, DONE, ERR and ERRCODE 0 (46_system.md R180). -/
def State.begin (s : State) : State := { s with status := statusRunning }

/-- A host write of w to CMD (46_system.md R180): the operation w decodes to, or IllegalCommand
with w as its information word, which changes STATUS and RESULT only (60_exceptions.md R195). -/
def issue (w : Word) (s : State) : Answer :=
  match decode w with
  | .ok i => exec i s.begin
  | .error _ => conclude .none s.begin (.error ⟨.illegalCommand, w⟩)

/-- With stop-on-error in force the host reads STATUS after a command and abandons its script if
ERR = 1 (30_encoding.md R90). DESIGN CHOICE (notes/assumptions/18.md): the script that is abandoned
is every move still pending, wherever it came from, and stop-on-error stays in force after the
script's end and after it is abandoned; only the move `stopOnError false`, which no script line is,
lifts it. -/
def State.afterCommand (s : State) : State :=
  if s.stopOnError && statusErr s.status then { s with script := [] } else s

/-- A host move (20_memory.md R61, 30_encoding.md R90). DESIGN CHOICE (notes/assumptions/18.md):
stop-on-error's look at STATUS, which R90 puts after every `cmd`, follows every write to CMD, so also
`wr CMD, v` and `mov CMD, REG`, and a word that is no command. -/
def runMove (m : HostMove) (s : State) : Answer :=
  match m with
  | .readReg k => .next { s with readings := .word (s.readReg k) :: s.readings }
  | .writeReg k v =>
    if k = 0 then onNext State.afterCommand (issue (s.hostWord v) s)
    else .next (s.writeReg k (s.hostWord v))
  | .readBuf sp i => .next { s with readings := s.readBuf sp i :: s.readings }
  | .readRange sp i n =>
    .next { s with readings := s.readBufRange sp i (s.hostWord n).toNat ++ s.readings }
  | .writeBuf sp i v => .next (s.writeBuf sp i v)
  | .stopOnError on => .next { s with stopOnError := on }
  | .hardReset => .next s.toReset

/-- The next pending host move is performed; with none pending CORE is idle with all state held
(60_exceptions.md R209). -/
def runNext (s : State) : Answer :=
  match s.script with
  | [] => .next s
  | m :: rest => runMove m { s with script := rest }

/-- A command word, put before every other pending move. -/
def State.withCommand (w : Word) (s : State) : State :=
  { s with script := .writeReg 0 (.const w) :: s.script }

end Sys2Proof.Machine
end

