-- ==== Sys2Proof/Machine/Step.lean ====
section
/-! DEFINITION. One step of the machine, and where its next command stands. -/

namespace Sys2Proof.Machine

/-- One step: one host move, and with a write to CMD the whole operation it issues
(46_system.md R180). -/
def step (s : State) : Host.Outcome State Fault Refusal := runNext s

/-- s with the command word w as the host's next move (notes/assumptions/5.md). A command is one
32-bit word (30_encoding.md R80), whatever number of bits the table gives. -/
def State.withFetchWord (s : State) (_nbits w : Nat) : State := s.withCommand (BitVec.ofNat 32 w)

end Sys2Proof.Machine
end

