-- ==== Sys2Proof/Machine/Script.lean ====
section
/-! DEFINITION. Host scripts and the pseudo-operations made of them (30_encoding.md R90 to R93): a
program for CORE, as the list of host moves that State.script holds. -/

namespace Sys2Proof.Machine

open Sys2Proof.Config

/-! Register numbers (10_state.md R20). -/

/-- CMD -/
def regCmd : Nat := 0
/-- STATUS -/
def regStatus : Nat := 1
/-- RESULT -/
def regResult : Nat := 2
/-- VALID -/
def regValid : Nat := 3
/-- WIDTH -/
def regWidth : Nat := 4
/-- HEIGHT -/
def regHeight : Nat := 5
/-- ARG -/
def regArg : Nat := 6
/-- VLEN -/
def regVlen : Nat := 7
/-- BITCNT -/
def regBitcnt : Nat := 8
/-- NSYM -/
def regNsym : Nat := 9
/-- ROOT -/
def regRoot : Nat := 10
/-- NCODE -/
def regNcode : Nat := 11
/-- SLENp -/
def regSlen (p : Fin 8) : Nat := 16 + p.val

/-- The lines of a host script (30_encoding.md R90). -/
inductive ScriptLine where
  /-- `wr REG, v` -/
  | wr (k : Nat) (v : Word)
  /-- `ld BUF, [b0, b1, ...]` -/
  | ld (sp : Space) (vs : List Nat)
  /-- `ld FREQ, (s: c, ...)`: the given counts, and 0 at every other intensity -/
  | ldFreq (counts : List (Nat × Nat))
  /-- `setv F1, F2, ...` -/
  | setv (mask : Word)
  /-- `clrv F1, F2, ...` -/
  | clrv (mask : Word)
  /-- `cmd MNEMONIC [p]` -/
  | cmd (i : Instr)
  /-- `rd REG` -/
  | rd (k : Nat)
  /-- `rdbuf BUF, a .. a + n − 1` -/
  | rdbuf (sp : Space) (a : Nat) (n : HostWord)
  /-- `mov REGa, REGb` -/
  | mov (a b : Nat)
  /-- `stop-on-error` -/
  | stopOnError
  deriving DecidableEq, Repr

/-- The writes of `ld`: element k of the list at index i + k. -/
def loadMoves (sp : Space) : Nat → List Nat → List HostMove
  | _, [] => []
  | i, v :: vs => .writeBuf sp i v :: loadMoves sp (i + 1) vs

/-- The count that `ld FREQ` gives to an intensity: the one named for it, 0 where none is
(30_encoding.md R90). DESIGN CHOICE (notes/assumptions/19.md): of an intensity named twice, the
first count named; what is named for a number above 255 is not written. -/
def countFor (counts : List (Nat × Nat)) (x : Nat) : Nat :=
  match counts.find? fun c => c.1 == x with
  | some c => c.2
  | none => 0

/-- The host moves of a line (30_encoding.md R90). -/
def ScriptLine.moves : ScriptLine → List HostMove
  | .wr k v => [.writeReg k (.const v)]
  | .ld sp vs => loadMoves sp 0 vs
  | .ldFreq counts => loadMoves .freq 0 ((List.range symbols).map (countFor counts))
  | .setv mask => [.writeReg regValid (.regOr regValid mask)]
  | .clrv mask => [.writeReg regValid (.regAndNot regValid mask)]
  | .cmd i => [.writeReg regCmd (.const (encode i))]
  | .rd k => [.readReg k]
  | .rdbuf sp a n => [.readRange sp a n]
  | .mov a b => [.writeReg a (.reg b)]
  | .stopOnError => [.stopOnError true]

/-- The host moves of a script. -/
def scriptMoves (ls : List ScriptLine) : List HostMove := ls.flatMap ScriptLine.moves

/-- The state with a script placed from outside, to be performed after what is pending
(notes/assumptions/5.md); with moves of an earlier script still pending the two are one script to
stop-on-error (notes/assumptions/18.md). -/
def State.withScript (ls : List ScriptLine) (s : State) : State :=
  { s with script := s.script ++ scriptMoves ls }

/-! ### The pseudo-operations -/

/-- Encode a dimension register and read its varint out (30_encoding.md R91). -/
def encodeDimension (k : Nat) : List ScriptLine :=
  [.mov regArg k, .cmd .venc, .rd regVlen, .rdbuf .vb 0 (.reg regVlen)]

/-- Load a varint, decode it and move it to a dimension register (30_encoding.md R91). -/
def decodeDimension (k : Nat) (v : List Byte) : List ScriptLine :=
  [.ld .vb (v.map BitVec.toNat), .wr regVlen (toWord v.length), .setv vbv, .cmd .vdec,
   .mov k regResult]

/-- Load a stream bank, its length and its flag (30_encoding.md R91 to R93). -/
def loadStream (p : Fin 8) (bytes : List Byte) : List ScriptLine :=
  [.ld (.strm p.val) (bytes.map BitVec.toNat), .wr (regSlen p) (toWord bytes.length)]

/-- Read a stream bank's length and bytes out. -/
def readStream (p : Fin 8) : List ScriptLine :=
  [.rd (regSlen p), .rdbuf (.strm p.val) 0 (.reg (regSlen p))]

/-- `HCOMPRESS` (30_encoding.md R91). -/
def hcompress (crossProcess : Bool) : List ScriptLine :=
  [.stopOnError, .cmd .hfreq, .cmd .hbuild, .cmd .hgen, .cmd .henc]
  ++ encodeDimension regWidth ++ encodeDimension regHeight
  ++ .rd regBitcnt :: readStream 0
  ++ (if crossProcess then [.rdbuf .freq 0 (.const 256)] else [])

/-- `HDECOMPRESS` (30_encoding.md R91), with the frequency counts when the code table of the
compression is no longer valid in this instance. -/
def hdecompress (width height : List Byte) (counts : Option (List (Nat × Nat)))
    (bytes : List Byte) (bitCount : Word) : List ScriptLine :=
  .stopOnError :: decodeDimension regWidth width ++ decodeDimension regHeight height
  ++ (match counts with
      | none => []
      | some cs => [.ldFreq cs, .setv freqv, .cmd .hbuild, .cmd .hgen])
  ++ loadStream 0 bytes
  ++ [.wr regBitcnt bitCount, .setv (strmv 0), .cmd .hdec, .rdbuf .pix 0 (.regTimes regWidth regHeight)]

/-- `RGCOMPRESS` (30_encoding.md R92). -/
def rgcompress : List ScriptLine :=
  [.stopOnError, .cmd .rgenc] ++ encodeDimension regWidth ++ encodeDimension regHeight
  ++ readStream 0

/-- `RGDECOMPRESS` (30_encoding.md R92). -/
def rgdecompress (width height bytes : List Byte) : List ScriptLine :=
  .stopOnError :: decodeDimension regWidth width ++ decodeDimension regHeight height
  ++ loadStream 0 bytes
  ++ [.setv (strmv 0), .cmd .rgdec, .rdbuf .pix 0 (.regTimes regWidth regHeight)]

/-- `BPCOMPRESS` (30_encoding.md R93). -/
def bpcompress : List ScriptLine :=
  [.stopOnError, .cmd .bpx] ++ (List.finRange 8).map (fun p => .cmd (.bpenc p))
  ++ encodeDimension regWidth ++ encodeDimension regHeight
  ++ (List.finRange 8).flatMap readStream

/-- `BPDECOMPRESS` (30_encoding.md R93), with one stream per plane. -/
def bpdecompress (width height : List Byte) (bytes : Fin 8 → List Byte) : List ScriptLine :=
  .stopOnError :: decodeDimension regWidth width ++ decodeDimension regHeight height
  ++ (List.finRange 8).flatMap (fun p => loadStream p (bytes p) ++ [.setv (strmv p)])
  ++ (List.finRange 8).map (fun p => .cmd (.bpdec p))
  ++ [.cmd .bpc, .rdbuf .pix 0 (.regTimes regWidth regHeight)]

end Sys2Proof.Machine
end

