-- ==== Sys2Proof/Machine/Bus.lean ====
section
/-! DEFINITION. A platform that memory-maps CORE: the address of each register and element under
the parameter BusMap, and the host move that an access to an address is (20_memory.md R71). The
host's moves themselves stay the abstract ones of R61. -/

namespace Sys2Proof.Config

open Sys2Proof.Machine (Space)

/-- The base address of a space; the eight banks of PLANE are one space, and so are those of STRM
(20_memory.md R60, R71). -/
def BusMap.base (M : BusMap) : BusSpace → Nat
  | .reg => M.regBase
  | .buf .pix => M.pixBase
  | .buf (.plane _) => M.planeBase
  | .buf .freq => M.freqBase
  | .buf .node => M.nodeBase
  | .buf .code => M.codeBase
  | .buf (.strm _) => M.strmBase
  | .buf .vb => M.vbBase

/-- The byte offset that a span gives an element, if it places it. -/
def BusSpan.offsetOf (e : BusSpan) (sp : BusSpace) (k : Nat) : Option Nat :=
  if e.space = sp ∧ e.first ≤ k ∧ k < e.first + e.count ∧ (0 < e.stride ∨ k = e.first) then
    some (e.offset + e.stride * (k - e.first))
  else none

/-- The element of a span's space that stands d bytes above the space's base, if one does. -/
def BusSpan.elementAt (e : BusSpan) (d : Nat) : Option Nat :=
  if e.offset ≤ d ∧ (d - e.offset) % e.stride = 0 ∧ (d - e.offset) / e.stride < e.count then
    some (e.first + (d - e.offset) / e.stride)
  else none

/-- The address of register or element k of a space: the space's base plus the offset of the first
span that places it (20_memory.md R71). -/
def BusMap.address (M : BusMap) (sp : BusSpace) (k : Nat) : Option Nat :=
  (M.spans.findSome? fun e => e.offsetOf sp k).map fun o => M.base sp + o

/-- The register or element that stands at an address. -/
def BusMap.locate (M : BusMap) (a : Nat) : Option (BusSpace × Nat) :=
  M.spans.findSome? fun e =>
    if M.base e.space ≤ a then
      match e.elementAt (a - M.base e.space) with
      | some k => if M.address e.space k = some a then some (e.space, k) else none
      | none => none
    else none

end Sys2Proof.Config

namespace Sys2Proof.Machine

open Sys2Proof.Config

/-- An access of the platform's bus, of one whole register or element (20_memory.md R67, R69). -/
inductive BusAccess where
  | read (a : Nat)
  | write (a : Nat) (v : Nat)
  deriving DecidableEq, Repr

/-- The host move that reads a register or an element (20_memory.md R61). -/
def readMove (sp : BusSpace) (k : Nat) : HostMove :=
  match sp with
  | .reg => .readReg k
  | .buf b => .readBuf b k

/-- The host move that writes a register or an element (20_memory.md R61). -/
def writeMove (sp : BusSpace) (k v : Nat) : HostMove :=
  match sp with
  | .reg => .writeReg k (.const (BitVec.ofNat 32 v))
  | .buf b => .writeBuf b k v

/-- The host move that a bus access is; none where the address is not CORE's (20_memory.md R71). -/
def BusAccess.move? (M : BusMap) : BusAccess → Option HostMove
  | .read a => (M.locate a).map fun x => readMove x.1 x.2
  | .write a v => (M.locate a).map fun x => writeMove x.1 x.2 v

/-- The state with bus accesses placed from outside, to be performed after what is pending
(notes/assumptions/5.md), under the instance's own BusMap. -/
def State.withBusAccesses (accs : List BusAccess) (s : State) : State :=
  { s with script := s.script ++ accs.filterMap fun x => x.move? s.params.busMap }

end Sys2Proof.Machine
end

