-- ==== Sys2Proof/Safety.lean ====
section
/-! DEFINITION. The words in which statements about CORE are made: when an operation's checks pass,
what an operation may touch, and the invariants of buffers, registers, the tree and the code table.
Nothing here is used by the machine. -/

namespace Sys2Proof.Machine

open Sys2Proof.Config

/-! ### The placement on a bus (20_memory.md R71) -/

/-- Two registers or elements never stand at one address (92_eei_decisions.md D31). -/
def BusInjective (M : BusMap) : Prop :=
  ∀ sp k sp' k' a, M.address sp k = some a → M.address sp' k' = some a → sp = sp' ∧ k = k'

/-- The instance with another placement. -/
def State.withBusMap (M : BusMap) (s : State) : State :=
  { s with params := { s.params with busMap := M } }

/-! ### When the checks of an operation pass -/

/-- GridCheck returns n (60_exceptions.md R200): both dimensions positive on the signed reading,
n their exact product, at most MAXPIX. -/
abbrev GridOk (s : State) (n : Nat) : Prop :=
  0 < s.width.toInt ∧ 0 < s.height.toInt ∧ (n : Int) = s.width.toInt * s.height.toInt ∧
  n ≤ s.params.maxPix

/-- Every flag of the mask is 1. -/
abbrev FlagsSet (m : Word) (s : State) : Prop := s.valid &&& m = m

/-- The nine operations that call GridCheck (60_exceptions.md R200). -/
def usesGrid : Instr → Bool
  | .venc => false
  | .vdec => false
  | .bpx => true
  | .bpc => true
  | .bpenc _ => true
  | .bpdec _ => true
  | .rgenc => true
  | .rgdec => true
  | .hfreq => true
  | .hbuild => false
  | .hgen => false
  | .henc => true
  | .hdec => true
  | .srst => false

/-- The buffer, bank or banks named after "Writes" in the operation's rule. -/
def destination : Instr → Dest
  | .venc => .vb
  | .vdec => .none
  | .bpx => .planes
  | .bpc => .pix
  | .bpenc p => .strm p
  | .bpdec p => .plane p
  | .rgenc => .strm 0
  | .rgdec => .pix
  | .hfreq => .freq
  | .hbuild => .node
  | .hgen => .code
  | .henc => .strm 0
  | .hdec => .pix
  | .srst => .none

/-- The flags that the operation's first source check requires (60_exceptions.md R197). -/
def sourceFlags : Instr → Word
  | .venc => 0
  | .vdec => vbv
  | .bpx => pixv
  | .bpc => planevAll
  | .bpenc p => planev p
  | .bpdec p => strmv p
  | .rgenc => pixv
  | .rgdec => strmv 0
  | .hfreq => pixv
  | .hbuild => freqv
  | .hgen => treev
  | .henc => pixv ||| codev
  | .hdec => codev
  | .srst => 0

/-! ### The contents of buffers, element by element -/

/-- PIX[0 .. n−1]. -/
def State.image (s : State) (n : Nat) : List Byte := (List.range n).map s.pixAt

/-- PLANE[p][0 .. n−1]. -/
def State.planeImage (s : State) (p : Fin 8) (n : Nat) : List Bool := (List.range n).map (s.planeAt p)

/-- STRM[p][0 .. n−1]. -/
def State.stream (s : State) (p : Fin 8) (n : Nat) : List Byte := (List.range n).map (s.strmAt p)

/-- VB[0 .. n−1]. -/
def State.varintBytes (s : State) (n : Nat) : List Byte := (List.range n).map s.vbAt

/-- The 0 that an element of a space reads as (20_memory.md R61). -/
def zeroDatum : Space → HostDatum
  | .pix => .byte 0
  | .plane _ => .bit false
  | .freq => .word 0
  | .node => .node { freq := 0, leaf := false, sym := 0, left := 0, right := 0 }
  | .code => .code { present := false, len := 0, bits := 0 }
  | .strm _ => .byte 0
  | .vb => .byte 0

/-- The element exists in this instance (20_memory.md R60). -/
def Space.has (P : Params) : Space → Nat → Bool
  | .pix, i => i < P.maxPix
  | .plane p, i => p < 8 && i < P.maxPix
  | .freq, i => i < 256
  | .node, i => i < 511
  | .code, i => i < 256
  | .strm p, i => p < 8 && i < 2 * P.maxPix
  | .vb, i => i < P.maxVb

/-- The host may write the space: PIX, FREQ, STRM and VB (20_memory.md R61). -/
def Space.hostWritable : Space → Bool
  | .pix => true
  | .plane _ => false
  | .freq => true
  | .node => false
  | .code => false
  | .strm _ => true
  | .vb => true

/-- A host value reduced to the width of the space's element (20_memory.md R61). -/
def Space.reduced (sp : Space) (v : Nat) : HostDatum :=
  match sp with
  | .freq => .word (BitVec.ofNat 32 v)
  | _ => .byte (BitVec.ofNat 8 v)

/-! ### What is left alone -/

/-- The pieces of state, each bank and each length register its own. -/
inductive Field where
  | params | status | result | valid | width | height | arg | vlen | bitcnt | nsym | root | ncode
  | slen (p : Fin 8)
  | pix
  | plane (p : Fin 8)
  | freq | node | code
  | strm (p : Fin 8)
  | vb | draws | script | stopOnError | readings
  deriving DecidableEq, Repr

/-- The piece of state is the same in both states. -/
def Field.Same (s t : State) : Field → Prop
  | .params => t.params = s.params
  | .status => t.status = s.status
  | .result => t.result = s.result
  | .valid => t.valid = s.valid
  | .width => t.width = s.width
  | .height => t.height = s.height
  | .arg => t.arg = s.arg
  | .vlen => t.vlen = s.vlen
  | .bitcnt => t.bitcnt = s.bitcnt
  | .nsym => t.nsym = s.nsym
  | .root => t.root = s.root
  | .ncode => t.ncode = s.ncode
  | .slen p => t.slen[p] = s.slen[p]
  | .pix => t.pix = s.pix
  | .plane p => t.plane[p] = s.plane[p]
  | .freq => t.freq = s.freq
  | .node => t.node = s.node
  | .code => t.code = s.code
  | .strm p => t.strm[p] = s.strm[p]
  | .vb => t.vb = s.vb
  | .draws => t.draws = s.draws
  | .script => t.script = s.script
  | .stopOnError => t.stopOnError = s.stopOnError
  | .readings => t.readings = s.readings

/-- Every piece of state outside the list is the same in both states. -/
def KeepsAllBut (touched : List Field) (s t : State) : Prop := ∀ f, f ∉ touched → f.Same s t

/-- The buffers of a destination. -/
def Dest.fields : Dest → List Field
  | .none => []
  | .pix => [.pix]
  | .planes => (List.finRange 8).map .plane
  | .plane p => [.plane p]
  | .freq => [.freq]
  | .node => [.node]
  | .code => [.code]
  | .strm p => [.strm p]
  | .vb => [.vb]

/-- Every buffer of the destination is unspecified: it lists nothing and takes its elements from a
draw that the state before had not made, each bank from its own (notes/assumptions/2.md). -/
def Dest.Drawn (s t : State) : Dest → Prop
  | .none => t.draws = s.draws
  | .pix => t.pix = .unspecified s.draws ∧ t.draws = s.draws + 1
  | .planes => (∀ p : Fin 8, t.plane[p] = .unspecified (s.draws + p.val)) ∧ t.draws = s.draws + 8
  | .plane p => t.plane[p] = .unspecified s.draws ∧ t.draws = s.draws + 1
  | .freq => t.freq = .unspecified s.draws ∧ t.draws = s.draws + 1
  | .node => t.node = .unspecified s.draws ∧ t.draws = s.draws + 1
  | .code => t.code = .unspecified s.draws ∧ t.draws = s.draws + 1
  | .strm p => t.strm[p] = .unspecified s.draws ∧ t.draws = s.draws + 1
  | .vb => t.vb = .unspecified s.draws ∧ t.draws = s.draws + 1

/-- From index k on, the destination's elements are the same in both states. -/
def Dest.SameFrom (k : Nat) (s t : State) : Dest → Prop
  | .none => True
  | .pix => ∀ j, k ≤ j → t.pixAt j = s.pixAt j
  | .planes => ∀ p j, k ≤ j → t.planeAt p j = s.planeAt p j
  | .plane p => ∀ j, k ≤ j → t.planeAt p j = s.planeAt p j
  | .freq => ∀ j, k ≤ j → j < 256 → t.freqAt j = s.freqAt j
  | .node => ∀ j, k ≤ j → t.nodeAt j = s.nodeAt j
  | .code => ∀ j, k ≤ j → j < 256 → t.codeAt j = s.codeAt j
  | .strm p => ∀ j, k ≤ j → t.strmAt p j = s.strmAt p j
  | .vb => ∀ j, k ≤ j → t.vbAt j = s.vbAt j

/-- How many elements a success that went from s to t has written, from index 0 on
(70_reset_and_hazards.md R229): N pixels, the length register's bytes, the 2 × NSYM − 1 nodes, or
the whole table. -/
def writtenCount (s t : State) : Instr → Nat
  | .venc => t.vlen.toNat
  | .vdec => 0
  | .bpx => pixelCount s
  | .bpc => pixelCount s
  | .bpenc p => t.slen[p].toNat
  | .bpdec _ => pixelCount s
  | .rgenc => t.slen[(0 : Fin 8)].toNat
  | .rgdec => pixelCount s
  | .hfreq => 256
  | .hbuild => 2 * t.nsym.toNat - 1
  | .hgen => 256
  | .henc => t.slen[(0 : Fin 8)].toNat
  | .hdec => pixelCount s
  | .srst => 0

/-- The error kinds an operation can report (60_exceptions.md R191 to R199). -/
def errorKinds : Instr → List ErrKind
  | .venc => [.capacityExceeded]
  | .vdec => [.sourceInvalid, .capacityExceeded, .malformedArtifact]
  | .bpx => [.invalidDimensions, .capacityExceeded, .sourceInvalid]
  | .bpc => [.invalidDimensions, .capacityExceeded, .sourceInvalid]
  | .bpenc _ => [.invalidDimensions, .capacityExceeded, .sourceInvalid]
  | .bpdec _ => [.invalidDimensions, .capacityExceeded, .sourceInvalid, .malformedArtifact]
  | .rgenc => [.invalidDimensions, .capacityExceeded, .sourceInvalid]
  | .rgdec => [.invalidDimensions, .capacityExceeded, .sourceInvalid, .malformedArtifact]
  | .hfreq => [.invalidDimensions, .capacityExceeded, .sourceInvalid]
  | .hbuild => [.sourceInvalid, .emptyImage]
  | .hgen => [.sourceInvalid]
  | .henc => [.invalidDimensions, .capacityExceeded, .sourceInvalid, .noCode]
  | .hdec => [.invalidDimensions, .capacityExceeded, .sourceInvalid, .malformedArtifact, .unmatchedCode]
  | .srst => []

/-- The registers, other than STATUS, RESULT and VALID, that a success of the operation writes
(10_state.md R20). -/
def lengthFields : Instr → List Field
  | .venc => [.vlen]
  | .vdec => []
  | .bpx => []
  | .bpc => []
  | .bpenc p => [.slen p]
  | .bpdec _ => []
  | .rgenc => [.slen 0]
  | .rgdec => []
  | .hfreq => []
  | .hbuild => [.nsym, .root]
  | .hgen => [.ncode]
  | .henc => [.slen 0, .bitcnt]
  | .hdec => []
  | .srst => []

/-- What RGDEC (p = 0) and BPDEC p read, the flag apart, is the same in both states. -/
def SameStream (p : Fin 8) (s t : State) : Prop :=
  t.params = s.params ∧ t.width = s.width ∧ t.height = s.height ∧ t.strm[p] = s.strm[p] ∧
  t.slen[p] = s.slen[p]

/-- What HDEC reads, the flags apart, is the same in both states (45_huffman_stream.md R166). -/
def SameHuffman (s t : State) : Prop :=
  SameStream 0 s t ∧ t.bitcnt = s.bitcnt ∧ t.code = s.code ∧ t.ncode = s.ncode

/-! ### Runs (42_rle_gray.md R120, 43_rle_bitplane.md R130) -/

/-- `rs` are the maximal runs of `xs`: none empty, neighbours of different values, and written out
one after the other they are `xs`. -/
def MaximalRuns {α : Type} (rs : List (Nat × α)) (xs : List α) : Prop :=
  (∀ r ∈ rs, 1 ≤ r.1) ∧ rs.IsChain (fun a b => a.2 ≠ b.2) ∧
  (rs.flatMap fun r => List.replicate r.1 r.2) = xs

/-- The pixels that plane items stand for: item number t is white when t is even
(43_rle_bitplane.md R130). -/
def planeItemPixels (its : List Byte) : List Bool :=
  its.zipIdx.flatMap fun it => List.replicate it.1.toNat (it.2 % 2 == 0)

/-- The pixels that the lengths of items cover. -/
def itemsTotal (its : List Byte) : Nat := (its.map BitVec.toNat).sum

/-! ### The tree (44_huffman_build.md R144) -/

/-- Key order (44_huffman_build.md R142): by frequency, then by index. -/
def KeyBelow (s : State) (j k : Nat) : Prop :=
  (s.nodeAt j).freq.toNat < (s.nodeAt k).freq.toNat ∨
  ((s.nodeAt j).freq = (s.nodeAt k).freq ∧ j < k)

/-- Node k is an internal node of the tree. -/
def Internal (s : State) (k : Nat) : Prop := s.nsym.toNat ≤ k ∧ k ≤ s.root.toNat

/-- Node j is a child of node k. -/
def ChildOf (s : State) (j k : Nat) : Prop :=
  (s.nodeAt k).left.toNat = j ∨ (s.nodeAt k).right.toNat = j

/-- The invariants of a valid tree, (a) to (g) of 44_huffman_build.md R144, with the fields that
10_state.md R39 says are 0. -/
structure TreeOk (s : State) : Prop where
  /-- (a) -/
  size : 1 ≤ s.nsym.toNat ∧ s.nsym.toNat ≤ 256 ∧ s.root.toNat = 2 * s.nsym.toNat - 2
  /-- (b) leaves exactly below NSYM -/
  leaves : ∀ k, k ≤ s.root.toNat → ((s.nodeAt k).leaf = true ↔ k < s.nsym.toNat)
  /-- (b) in ascending intensity, each with a nonzero count -/
  ascending : ∀ j k, j < k → k < s.nsym.toNat → (s.nodeAt j).sym.toNat < (s.nodeAt k).sym.toNat
  counted : ∀ k, k < s.nsym.toNat → (s.nodeAt k).freq ≠ 0
  /-- the fields that are 0 in a leaf and in an internal node -/
  leafFields : ∀ k, k < s.nsym.toNat → (s.nodeAt k).left = 0 ∧ (s.nodeAt k).right = 0
  innerFields : ∀ k, Internal s k → (s.nodeAt k).sym = 0
  /-- (c) -/
  below : ∀ k, Internal s k →
    (s.nodeAt k).left.toNat < k ∧ (s.nodeAt k).right.toNat < k ∧
    (s.nodeAt k).left ≠ (s.nodeAt k).right
  /-- (d) -/
  oneParent : ∀ j, j < s.root.toNat → ∃ k, Internal s k ∧ ChildOf s j k ∧
    ∀ k', Internal s k' → ChildOf s j k' → k' = k
  /-- (e) -/
  sums : ∀ k, Internal s k → (s.nodeAt k).freq.toNat =
    (s.nodeAt (s.nodeAt k).left.toNat).freq.toNat + (s.nodeAt (s.nodeAt k).right.toNat).freq.toNat
  /-- (f) -/
  ordered : ∀ k, Internal s k → KeyBelow s (s.nodeAt k).left.toNat (s.nodeAt k).right.toNat
  /-- (g) -/
  rising : ∀ j k, Internal s j → Internal s k → j ≤ k →
    (s.nodeAt j).freq.toNat ≤ (s.nodeAt k).freq.toNat

/-- Node j is live when node k is made: it exists and no node before k has taken it
(44_huffman_build.md R142). -/
def LiveAt (s : State) (k j : Nat) : Prop :=
  j < k ∧ ∀ k', s.nsym.toNat ≤ k' → k' < k → ¬ ChildOf s j k'

/-- Every internal node has popped the two live nodes of least key: the least as its left child,
the next least as its right (44_huffman_build.md R142, R143). -/
def Greedy (s : State) : Prop :=
  ∀ k, Internal s k →
    LiveAt s k (s.nodeAt k).left.toNat ∧ LiveAt s k (s.nodeAt k).right.toNat ∧
    (∀ j, LiveAt s k j → j ≠ (s.nodeAt k).left.toNat → KeyBelow s (s.nodeAt k).left.toNat j) ∧
    (∀ j, LiveAt s k j → j ≠ (s.nodeAt k).left.toNat → j ≠ (s.nodeAt k).right.toNat →
      KeyBelow s (s.nodeAt k).right.toNat j)

/-- Where the bits of a code lead from node k: left on 0, right on 1, nowhere below a leaf
(44_huffman_build.md R145). -/
def State.descend (s : State) : Nat → List Bool → Option Nat
  | k, [] => some k
  | k, b :: bs =>
    if (s.nodeAt k).leaf then none
    else s.descend (if b then (s.nodeAt k).right.toNat else (s.nodeAt k).left.toNat) bs

/-! ### The code table (44_huffman_build.md R146) -/

/-- Intensity x has a code. -/
def HasCode (s : State) (x : Nat) : Prop := x < symbols ∧ (s.codeAt x).present = true

/-- The invariants of a valid table, (a) to (c) of 44_huffman_build.md R146, with the bits that
10_state.md R40 says are 0. -/
structure CodeOk (s : State) : Prop where
  /-- (a) -/
  size : 1 ≤ s.ncode.toNat ∧ s.ncode.toNat ≤ 256 ∧
    s.ncode.toNat = (List.range symbols).countP fun x => (s.codeAt x).present
  lengths : ∀ x, HasCode s x → 1 ≤ (s.codeAt x).len.toNat
  absent : ∀ x, x < symbols → (s.codeAt x).present = false → s.codeAt x = codeElem.zero
  padding : ∀ x j, x < symbols → (s.codeAt x).len.toNat ≤ j → (s.codeAt x).bits.getLsbD j = false
  /-- (b) -/
  prefixFree : ∀ x y, HasCode s x → HasCode s y → x ≠ y →
    ¬ (codeBits (s.codeAt x) <+: codeBits (s.codeAt y))
  /-- (c) -/
  complete : 2 ≤ s.ncode.toNat → ∀ f : Nat → Bool, ∃ x, HasCode s x ∧
    ∀ j, j < (s.codeAt x).len.toNat → (s.codeAt x).bits.getLsbD j = f j

/-- The first k bits of the stream in STRM[0] (20_memory.md R65). -/
def State.streamBits (s : State) (k : Nat) : List Bool := (List.range k).map s.streamBit

/-- The codes of some pixels, one after the other (45_huffman_stream.md R160). -/
def State.codesOf (s : State) (px : List Byte) : List Bool :=
  px.flatMap fun v => codeBits (s.codeAt v.toNat)

/-- From bit position pos of the stream, inside BITCNT, no code of at most MAXSCAN bits matches. -/
def NoMatchAt (s : State) (pos : Nat) : Prop :=
  ∀ x, HasCode s x → (s.codeAt x).len.toNat ≤ s.params.maxScan →
    pos + (s.codeAt x).len.toNat ≤ s.bitcnt.toNat →
    ∃ j, j < (s.codeAt x).len.toNat ∧ (s.codeAt x).bits.getLsbD j ≠ s.streamBit (pos + j)

/-! ### Invariants of every step -/

/-- One buffer: canonical, inside its capacity, and unspecified only by a draw already made. -/
abbrev Memory.sound {α : Type} [DecidableEq α] (e : Elem α) (capacity draws : Nat) (m : Memory α) :
    Prop :=
  m.wf e = true ∧ m.within capacity = true ∧ (∀ n, m.fill = .drawn n → n < draws)

/-- Every buffer of the machine (20_memory.md R60). -/
structure BuffersOk (s : State) : Prop where
  pix : s.pix.sound byteElem s.params.maxPix s.draws
  plane : ∀ p : Fin 8, s.plane[p].sound bitElem s.params.maxPix s.draws
  freq : s.freq.sound freqElem symbols s.draws
  node : s.node.sound nodeElem nodes s.draws
  code : s.code.sound codeElem symbols s.draws
  strm : ∀ p : Fin 8, s.strm[p].sound byteElem s.params.maxStrm s.draws
  vb : s.vb.sound byteElem s.params.maxVb s.draws

/-- STATUS and VALID as the host finds them between operations (10_state.md R22, R33, R44): BUSY 0,
ERR 1 exactly when ERRCODE is not 0, an error only with DONE, a legal code, reserved bits 0. -/
structure RegistersOk (s : State) : Prop where
  notBusy : statusBusy s.status = false
  errMeansCode : statusErr s.status = true ↔ statusErrcode s.status ≠ 0
  errMeansDone : statusErr s.status = true → statusDone s.status = true
  legalCode : (statusErrcode s.status).toNat ≤ 8
  statusReserved : s.status &&& ~~~ statusMask = 0
  validReserved : s.valid &&& ~~~ validMask = 0

/-- The tree is valid while TREEV is 1 (44_huffman_build.md R144). -/
def TreeInv (s : State) : Prop := FlagsSet treev s → TreeOk s

/-- The table is valid while CODEV is 1 (44_huffman_build.md R146). -/
def CodeInv (s : State) : Prop := FlagsSet codev s → CodeOk s

end Sys2Proof.Machine
end

