-- ==== Sys2Proof/Certificates/Slice0/Obligations.lean ====
section
/-! DEFINITION. The statements about CORE, from the numbered rules of spec/. Here nothing is
proved. `exec i s = .next t` reads: operation i, issued in state s, ends in state t. -/

open Sys2Proof Sys2Proof.Machine

/-! ### Encoding -/

/-- 30_encoding.md R84, R85, R89: decoding and encoding are inverse to each other, both ways: no
bit of a command word is dropped and no second word means the same operation. -/
def Obligations.DecodeAndEncodeAreInverse : Prop :=
  ∀ (w : Word) (i : Instr), decode w = .ok i ↔ w = encode i

/-- 30_encoding.md R84: by match and mask. No word matches two rows of the opcode table; a word
that matches a row decodes to that row's operation, with the plane of bits 10:8 if the row is
format P; a word that matches none ends with IllegalCommand(w). -/
def Obligations.EveryWordIsOneRowOrIllegal : Prop :=
  ∀ w : Word,
    (∀ r ∈ opcodeTable, ∀ r' ∈ opcodeTable, r.accepts w = true → r'.accepts w = true → r = r') ∧
    (∀ r ∈ opcodeTable, r.accepts w = true →
      ∃ i, decode w = .ok i ∧ i.mnemonic = r.mnemonic ∧
        ∀ p, i.plane? = some p → p.val = w.toNat / 256 % 8) ∧
    ((∀ r ∈ opcodeTable, r.accepts w = false) →
      ∀ s : State, ∃ t, issue w s = .next t ∧ t.status = 0x00000056 ∧ t.result = w ∧
        KeepsAllBut [.status, .result] s t)

/-- 95_test_vectors.md section 2.8, from 30_encoding.md R85 and R89: words written out from the
opcode map. -/
def Obligations.SampleWordsDecode : Prop :=
  decode 0x00000001 = .ok .venc ∧ decode 0x00000010 = .ok .bpx ∧
  decode 0x00000712 = .ok (.bpenc 7) ∧ decode 0x00000313 = .ok (.bpdec 3) ∧
  decode 0x00000020 = .ok .rgenc ∧ decode 0x00000031 = .ok .hbuild ∧
  decode 0x00000034 = .ok .hdec ∧ decode 0x0000007F = .ok .srst ∧
  decode 0x00000000 = .error (.unknownOpcode 0) ∧
  decode 0x00000812 = .error (.nonzeroAboveP 0x00000812) ∧
  decode 0x00000110 = .error (.nonzeroAboveN 0x00000110)

/-! ### The command port and the host -/

/-- 46_system.md R180: when the host's next move writes a word to CMD and the word decodes to i,
the step is i, run in the state where that move is no longer pending and STATUS shows BUSY; after
it the host looks at STATUS if its stop-on-error is in force (30_encoding.md R90). That the
command is the head of `script` is the model's form (notes/assumptions/5.md), and that the look
follows every write to CMD its choice (notes/assumptions/18.md). -/
def Obligations.StepRunsTheDecodedOperation : Prop :=
  ∀ (s : State) (v : HostWord) (rest : List HostMove) (i : Instr),
    s.script = .writeReg 0 v :: rest → decode (s.hostWord v) = .ok i →
    step s = onNext State.afterCommand (exec i { s with script := rest, status := 0x00000001 })

/-- 60_exceptions.md R195: an illegal word written to CMD sets STATUS (DONE, ERR, ERRCODE 5) and
RESULT, and changes nothing else of CORE. -/
def Obligations.IllegalWordChangesStatusAndResultOnly : Prop :=
  ∀ (s : State) (v : HostWord) (rest : List HostMove),
    s.script = .writeReg 0 v :: rest → wellFormedWord (s.hostWord v) = false →
    ∃ t, step s = .next t ∧ t.status = 0x00000056 ∧ t.result = s.hostWord v ∧
      t.script = (if s.stopOnError then [] else rest) ∧
      KeepsAllBut [.status, .result, .script] s t

/-- 30_encoding.md R90: with stop-on-error in force the host abandons its script after a command
that ends with ERR = 1, and only then. That every write to CMD counts as the command, and every
pending move as the script, is the model's choice (notes/assumptions/18.md). -/
def Obligations.StopOnErrorAbandonsTheScript : Prop :=
  ∀ (s : State) (v : HostWord) (rest : List HostMove), s.script = .writeReg 0 v :: rest →
    ∃ t, step s = .next t ∧
      (s.stopOnError = true → statusErr t.status = true → t.script = []) ∧
      ((s.stopOnError = false ∨ statusErr t.status = false) → t.script = rest)

/-- 46_system.md R184, 10_state.md R20: a host write to a read-write register stores the word in
that register, 4 to 8 being WIDTH, HEIGHT, ARG, VLEN and BITCNT and 16 + p SLENp, and touches no
other; one to VALID follows 10_state.md R34; one to any other number but CMD changes nothing. No
host write of these sets an error or touches a buffer. -/
def Obligations.HostRegisterWriteStoresOrIsIgnored : Prop :=
  ∀ (s : State) (k : Nat) (v : HostWord) (rest : List HostMove),
    s.script = .writeReg k v :: rest → k ≠ 0 →
    ∃ t, step s = .next t ∧ t.script = rest ∧
      (k = 4 → t.width = s.hostWord v) ∧
      (k = 5 → t.height = s.hostWord v) ∧
      (k = 6 → t.arg = s.hostWord v) ∧
      (k = 7 → t.vlen = s.hostWord v) ∧
      (k = 8 → t.bitcnt = s.hostWord v) ∧
      (∀ p : Fin 8, k = 16 + p.val → t.slen[p] = s.hostWord v) ∧
      ((4 ≤ k ∧ k ≤ 8 ∨ 16 ≤ k ∧ k ≤ 23) → t.readReg k = s.hostWord v) ∧
      (k = 3 → t.valid = (s.hostWord v &&& 0x00FF0013) |||
        (s.valid &&& s.hostWord v &&& 0x0000FF0C) ∧ t.readReg 3 = t.valid) ∧
      (∀ j, j ≠ k → t.readReg j = s.readReg j) ∧
      (¬ (3 ≤ k ∧ k ≤ 8 ∨ 16 ≤ k ∧ k ≤ 23) → KeepsAllBut [.script] s t) ∧
      KeepsAllBut ([.valid, .width, .height, .arg, .vlen, .bitcnt, .script] ++
        (List.finRange 8).map .slen) s t

/-- 10_state.md R34: a host write of w to VALID gives every host-settable flag the written bit, can
clear a derived-only flag and cannot set one, and ignores the reserved bits. -/
def Obligations.HostCannotSetDerivedFlags : Prop :=
  ∀ (s : State) (w : Word) (rest : List HostMove),
    s.script = .writeReg 3 (.const w) :: rest →
    ∃ t, step s = .next t ∧
      t.valid = (w &&& 0x00FF0013) ||| (s.valid &&& w &&& 0x0000FF0C) ∧
      (∀ b, (0x00FF0013 : Word).getLsbD b = true → t.valid.getLsbD b = w.getLsbD b) ∧
      (∀ b, (0x0000FF0C : Word).getLsbD b = true →
        t.valid.getLsbD b = (s.valid.getLsbD b && w.getLsbD b)) ∧
      (∀ b, ((0x00FFFF1F : Word).getLsbD b = false) → t.valid.getLsbD b = false) ∧
      KeepsAllBut [.valid, .script] s t

/-- 20_memory.md R61, 46_system.md R185: a host write to an element of PIX, FREQ, STRM or VB that
exists stores the value, reduced to the element's width, and leaves every other element, every
flag and every length register as it was; any other buffer write is ignored; an element that does
not exist reads 0. -/
def Obligations.HostBufferAccessIsOneElement : Prop :=
  ∀ (s : State) (sp : Space) (i v : Nat) (rest : List HostMove),
    s.script = .writeBuf sp i v :: rest →
    ∃ t, step s = .next t ∧
      (sp.hostWritable = true → sp.has s.params i = true → t.readBuf sp i = sp.reduced v) ∧
      (∀ sp' i', (sp', i') ≠ (sp, i) → t.readBuf sp' i' = s.readBuf sp' i') ∧
      (sp.hostWritable = false ∨ sp.has s.params i = false → KeepsAllBut [.script] s t) ∧
      (sp.has s.params i = false → s.readBuf sp i = zeroDatum sp) ∧
      KeepsAllBut ([.pix, .freq, .vb, .script] ++ (List.finRange 8).map .strm) s t

/-- 20_memory.md R70: every read, of any register or buffer, is idempotent and changes nothing of
CORE; the host has what it read. What a read returns: of each register number, the register of
10_state.md R20, CMD and the reserved numbers and bits as 0 (R21, R22, R33, R44); of each element
that exists, that element of the buffer the operations use (20_memory.md R60, R61). -/
def Obligations.HostReadsChangeNothing : Prop :=
  ∀ (s : State) (rest : List HostMove),
    (∀ k, s.script = .readReg k :: rest →
      ∃ t, step s = .next t ∧ t.readings = .word (s.readReg k) :: s.readings ∧ t.script = rest ∧
        KeepsAllBut [.readings, .script] s t) ∧
    (∀ sp i, s.script = .readBuf sp i :: rest →
      ∃ t, step s = .next t ∧ t.readings = s.readBuf sp i :: s.readings ∧ t.script = rest ∧
        KeepsAllBut [.readings, .script] s t) ∧
    (∀ sp i n, s.script = .readRange sp i n :: rest →
      ∃ t, step s = .next t ∧ t.script = rest ∧
        t.readings.reverse = s.readings.reverse ++
          (List.range (s.hostWord n).toNat).map (fun j => s.readBuf sp (i + j)) ∧
        KeepsAllBut [.readings, .script] s t) ∧
    (s.readReg 0 = 0 ∧ s.readReg 1 = s.status &&& 0x000000F7 ∧ s.readReg 2 = s.result ∧
      s.readReg 3 = s.valid &&& 0x00FFFF1F ∧ s.readReg 4 = s.width ∧ s.readReg 5 = s.height ∧
      s.readReg 6 = s.arg ∧ s.readReg 7 = s.vlen ∧ s.readReg 8 = s.bitcnt ∧ s.readReg 9 = s.nsym ∧
      s.readReg 10 = s.root ∧ s.readReg 11 = s.ncode ∧
      (∀ p : Fin 8, s.readReg (16 + p.val) = s.slen[p]) ∧
      (∀ k, (12 ≤ k ∧ k ≤ 15 ∨ 24 ≤ k) → s.readReg k = 0)) ∧
    ((∀ i, i < s.params.maxPix → s.readBuf .pix i = .byte (s.pixAt i)) ∧
      (∀ (p : Fin 8) i, i < s.params.maxPix → s.readBuf (.plane p.val) i = .bit (s.planeAt p i)) ∧
      (∀ i, i < 256 → s.readBuf .freq i = .word (s.freqAt i)) ∧
      (∀ i, i < 511 → s.readBuf .node i = .node (s.nodeAt i)) ∧
      (∀ i, i < 256 → s.readBuf .code i = .code (s.codeAt i)) ∧
      (∀ (p : Fin 8) i, i < 2 * s.params.maxPix →
        s.readBuf (.strm p.val) i = .byte (s.strmAt p i)) ∧
      (∀ i, i < s.params.maxVb → s.readBuf .vb i = .byte (s.vbAt i)))

/-- 30_encoding.md R90: the effect of the script lines `setv`, `clrv` and `mov` on registers: setv
adds the host-settable flags of the mask and no other, clrv takes off the flags of the mask, mov
copies what a read returns into a read-write register. -/
def Obligations.ScriptLinesSetClearAndMove : Prop :=
  ∀ (s : State) (rest : List HostMove), RegistersOk s →
    (∀ mask, s.script = (ScriptLine.setv mask).moves ++ rest →
      ∃ t, step s = .next t ∧ t.valid = s.valid ||| (mask &&& 0x00FF0013) ∧
        KeepsAllBut [.valid, .script] s t) ∧
    (∀ mask, s.script = (ScriptLine.clrv mask).moves ++ rest →
      ∃ t, step s = .next t ∧ t.valid = s.valid &&& ~~~ mask ∧
        KeepsAllBut [.valid, .script] s t) ∧
    (∀ a b, s.script = (ScriptLine.mov a b).moves ++ rest → (4 ≤ a ∧ a ≤ 8 ∨ 16 ≤ a ∧ a ≤ 23) →
      ∃ t, step s = .next t ∧ t.readReg a = s.readReg b ∧ ∀ j, j ≠ a → t.readReg j = s.readReg j)

/-- 70_reset_and_hazards.md R222: no step changes the parameters of the instance. -/
def Obligations.NoStepChangesTheParameters : Prop :=
  ∀ s t : State, step s = .next t → t.params = s.params

/-! ### Reset -/

/-- 70_reset_and_hazards.md R220: after reset every register reads 0 and every element of every
buffer is 0, whatever the instance's parameters. -/
def Obligations.ResetLeavesEverythingZero : Prop :=
  ∀ P : Config.Params,
    (∀ k, (State.resetWith P).readReg k = 0) ∧
    (∀ sp i, (State.resetWith P).readBuf sp i = zeroDatum sp) ∧
    (State.resetWith P).status = 0 ∧ (State.resetWith P).valid = 0

/-- 70_reset_and_hazards.md R221: from the reset state every command except VENC and SRST ends with
an error: InvalidDimensions for the nine grid operations, SourceInvalid for VDEC, HBUILD and HGEN,
IllegalCommand for an illegal word; VENC succeeds with VB[0] = 0, VLEN = 1. -/
def Obligations.FromResetOnlyVencAndSrstSucceed : Prop :=
  ∀ P : Config.Params, P.wf = true →
    (∀ i, usesGrid i = true → ∃ t, exec i (State.resetWith P) = .next t ∧ t.status = 0x00000016) ∧
    (∀ i, i = .vdec ∨ i = .hbuild ∨ i = .hgen →
      ∃ t, exec i (State.resetWith P) = .next t ∧ t.status = 0x00000076) ∧
    (∀ w, wellFormedWord w = false →
      ∃ t, issue w (State.resetWith P) = .next t ∧ t.status = 0x00000056) ∧
    (∃ t, exec .venc (State.resetWith P) = .next t ∧ t.status = 0x00000002 ∧
      t.vbAt 0 = 0 ∧ t.vlen = 1) ∧
    (∃ t, exec .srst (State.resetWith P) = .next t ∧ t.status = 0x00000002)

/-- 46_system.md R181: SRST, word 0x0000007F, from any state, leaves every register 0 but STATUS,
which reads 0x00000002, and every element of every buffer 0; the parameters stay
(70_reset_and_hazards.md R222). That the draw counter, the script, stop-on-error and the readings
stay is the model's choice (notes/assumptions/3.md), no rule of the spec. -/
def Obligations.SrstRestoresTheResetState : Prop :=
  encode .srst = 0x0000007F ∧ ∀ s : State, ∃ t, exec .srst s = .next t ∧
    t.readReg 1 = 0x00000002 ∧ (∀ k, k ≠ 1 → t.readReg k = 0) ∧
    (∀ sp i, t.readBuf sp i = zeroDatum sp) ∧
    t.params = s.params ∧ t.draws = s.draws ∧ t.script = s.script ∧
    t.stopOnError = s.stopOnError ∧ t.readings = s.readings

/-- 70_reset_and_hazards.md R220, R222: the reset input leaves every register 0, STATUS too, every
buffer element 0 and the parameters as they are, so that SRST differs from it in STATUS alone. That
the reset input is a move of the host's script is the model's choice (notes/assumptions/12.md). -/
def Obligations.HardResetDiffersFromSrstInStatusAlone : Prop :=
  ∀ (s : State) (rest : List HostMove), s.script = .hardReset :: rest →
    ∃ t u, step s = .next t ∧ exec .srst { s with script := rest } = .next u ∧
      (∀ k, t.readReg k = 0) ∧ (∀ sp i, t.readBuf sp i = zeroDatum sp) ∧ t.params = s.params ∧
      u.readReg 1 = 0x00000002 ∧ KeepsAllBut [.status] t u

/-! ### Errors -/

/-- 60_exceptions.md R200: each of the nine grid operations first checks the dimensions on their
signed readings, then the exact product against MAXPIX, before anything else. -/
def Obligations.GridOperationsCheckDimensionsFirst : Prop :=
  ∀ (i : Instr) (s : State), usesGrid i = true →
    ((s.width.toInt ≤ 0 ∨ s.height.toInt ≤ 0) →
      ∃ t, exec i s = .next t ∧ t.status = 0x00000016 ∧
        t.result.toNat = (if s.width.toInt ≤ 0 then 1 else 0) +
          (if s.height.toInt ≤ 0 then 2 else 0)) ∧
    (0 < s.width.toInt → 0 < s.height.toInt →
      (s.params.maxPix : Int) < s.width.toInt * s.height.toInt →
      ∃ t, exec i s = .next t ∧ t.status = 0x00000066 ∧
        (t.result.toNat : Int) = min (s.width.toInt * s.height.toInt) (2 ^ 32 - 1))

/-- 60_exceptions.md R197: an operation whose dimension check, if it has one, passes, reports
SourceInvalid with the mask of its required flags that are 0; HDEC, when CODEV is 1 and NCODE is
not 1, goes on to require STRMV0; VENC and SRST never report it. -/
def Obligations.MissingSourceFlagsAreReported : Prop :=
  (∀ (i : Instr) (s : State), (usesGrid i = true → ∃ n, GridOk s n) →
    sourceFlags i &&& ~~~ s.valid ≠ 0 →
    ∃ t, exec i s = .next t ∧ t.status = 0x00000076 ∧ t.result = sourceFlags i &&& ~~~ s.valid) ∧
  (∀ (s : State) (n : Nat), GridOk s n → FlagsSet codev s → s.ncode ≠ 1 →
    ¬ FlagsSet (strmv 0) s →
    ∃ t, exec .hdec s = .next t ∧ t.status = 0x00000076 ∧ t.result = 0x00010000) ∧
  (∀ s t : State, exec .venc s = .next t ∨ exec .srst s = .next t → t.status ≠ 0x00000076)

/-- 60_exceptions.md R202: what an error changes. STATUS reads 0x06 + (code << 4), the flags of the
destination are cleared, the destination's elements are unspecified over the whole buffer, the
length registers and everything else are unchanged. That the unspecified elements are a draw not
made before is the model's form (notes/assumptions/2.md). -/
def Obligations.ErrorTouchesOnlyTheDestination : Prop :=
  ∀ (i : Instr) (s t : State), exec i s = .next t → statusErr t.status = true →
    (∃ k ∈ errorKinds i, t.status = 0x00000006 + (k.errcode <<< 4)) ∧
    t.valid = s.valid &&& ~~~ (destination i).flags ∧
    (destination i).Drawn s t ∧
    KeepsAllBut ([.status, .result, .valid, .draws] ++ (destination i).fields) s t

/-- 60_exceptions.md R203 with 10_state.md R20 and R33: what a success changes. STATUS reads
0x00000002, the destination's flags are set, and outside the destination, its flags and its length
registers nothing changes. SRST is not one of these (46_system.md R181). -/
def Obligations.SuccessTouchesOnlyItsDestination : Prop :=
  ∀ (i : Instr) (s t : State), i ≠ .srst → exec i s = .next t → statusErr t.status = false →
    t.status = 0x00000002 ∧
    t.valid = s.valid ||| (destination i).flags ∧
    KeepsAllBut ([.status, .result, .valid] ++ (destination i).fields ++ lengthFields i) s t

/-- 70_reset_and_hazards.md R229, 10_state.md R46: a success writes its destination from index 0 up
to the count of its rule, and every element from there on keeps its old value. -/
def Obligations.ElementsPastTheWrittenRangeStay : Prop :=
  ∀ (i : Instr) (s t : State), s.params.wf = true → i ≠ .srst → exec i s = .next t →
    statusErr t.status = false → (destination i).SameFrom (writtenCount s t i) s t

/-- 46_system.md R180 with 60_exceptions.md R202 and R203: every command terminates; afterwards
BUSY is 0, DONE is 1, ERR is 1 exactly when ERRCODE is not 0, and STATUS is 0x02 or one of the error
values of the kinds that operation can report (R191 to R199). -/
def Obligations.EveryCommandEndsDone : Prop :=
  ∀ (i : Instr) (s : State), ∃ t, exec i s = .next t ∧
    statusBusy t.status = false ∧ statusDone t.status = true ∧
    (statusErr t.status = true ↔ statusErrcode t.status ≠ 0) ∧
    (t.status = 0x00000002 ∨ ∃ k ∈ errorKinds i, t.status = 0x00000006 + (k.errcode <<< 4))

/-- 00_scope.md R10: no operation's result depends on W and H separately, only on their product
and on each being positive. SRST, which clears both, is the exception. -/
def Obligations.OnlyTheProductOfTheDimensionsMatters : Prop :=
  ∀ (i : Instr) (s : State) (w h : Word) (n : Nat), i ≠ .srst → GridOk s n →
    GridOk { s with width := w, height := h } n →
    exec i { s with width := w, height := h } =
      onNext (fun t => { t with width := w, height := h }) (exec i s)

/-! ### Varints -/

/-- 40_varint.md R100, R101: the saturating varint of n has max(1, ⌈n / 255⌉) bytes, all but the
last 255, the last in 1..255 unless n is 0, no zero byte unless n is 0, and decodes to n. -/
def Obligations.VarintShapeAndRoundTrip : Prop :=
  ∀ n : Nat,
    (varint n).length = max 1 ((n + 254) / 255) ∧
    (∀ b ∈ (varint n).dropLast, b = 255) ∧
    ((0 : Byte) ∈ varint n ↔ n = 0) ∧
    ∀ last, (varint n).getLast? = some last →
      255 * ((varint n).length - 1) + last.toNat = n

/-- 40_varint.md R102: VENC, word 0x00000001, with its one check. -/
def Obligations.VencWritesTheVarintOfArg : Prop :=
  encode .venc = 0x00000001 ∧ ∀ (s : State) (k : Nat), k = max 1 ((s.arg.toNat + 254) / 255) →
    (k ≤ s.params.maxVb → ∃ t, exec .venc s = .next t ∧ t.status = 0x00000002 ∧
      t.varintBytes k = varint s.arg.toNat ∧ t.vlen.toNat = k ∧ t.result.toNat = k ∧
      t.valid = s.valid ||| 0x00000010 ∧ (∀ j, k ≤ j → t.vbAt j = s.vbAt j) ∧
      KeepsAllBut [.status, .result, .valid, .vlen, .vb] s t) ∧
    (s.params.maxVb < k → ∃ t, exec .venc s = .next t ∧ t.status = 0x00000066 ∧
      t.result.toNat = k ∧ t.valid = s.valid &&& ~~~ 0x00000010 ∧
      KeepsAllBut [.status, .result, .valid, .vb, .draws] s t)

/-- 40_varint.md R103: VDEC, word 0x00000002, with its three checks in their order. -/
def Obligations.VdecReadsTheVarint : Prop :=
  encode .vdec = 0x00000002 ∧ ∀ s : State,
    (¬ FlagsSet vbv s → ∃ t, exec .vdec s = .next t ∧ t.status = 0x00000076 ∧
      t.result = 0x00000010 ∧ KeepsAllBut [.status, .result] s t) ∧
    (FlagsSet vbv s → s.params.maxVb < s.vlen.toNat → ∃ t, exec .vdec s = .next t ∧
      t.status = 0x00000066 ∧ t.result = s.vlen ∧ KeepsAllBut [.status, .result] s t) ∧
    (FlagsSet vbv s → s.vlen = 0 → ∃ t, exec .vdec s = .next t ∧
      t.status = 0x00000026 ∧ t.result = 0 ∧ KeepsAllBut [.status, .result] s t) ∧
    (s.params.wf = true → FlagsSet vbv s → 1 ≤ s.vlen.toNat → s.vlen.toNat ≤ s.params.maxVb →
      ∃ t, exec .vdec s = .next t ∧ t.status = 0x00000002 ∧
        t.result.toNat = 255 * (s.vlen.toNat - 1) + (s.vbAt (s.vlen.toNat - 1)).toNat ∧
        KeepsAllBut [.status, .result] s t)

/-- 40_varint.md R101, R102, R103: VDEC after a VENC that succeeded gives back ARG. -/
def Obligations.VencThenVdecReturnsArg : Prop :=
  ∀ s t : State, exec .venc s = .next t → t.status = 0x00000002 →
    ∃ u, exec .vdec t = .next u ∧ u.status = 0x00000002 ∧ u.result = s.arg

/-! ### Bit-planes -/

/-- 41_bitplane.md R110: the plane functions, plane p being bit p, and that they are inverse to each
other. -/
def Obligations.PlaneFunctionsAreInverse : Prop :=
  (∀ b : Fin 8 → Bool,
    (combine b).toNat = ((List.finRange 8).map fun p => (b p).toNat * 2 ^ p.val).sum) ∧
  (∀ v : Byte, combine (planebit v) = v) ∧
  (∀ (b : Fin 8 → Bool) (p : Fin 8), planebit (combine b) p = b p) ∧
  (∀ (v : Byte) (p : Fin 8), (planebit v p).toNat = v.toNat / 2 ^ p.val % 2)

/-- 41_bitplane.md R111: BPX. -/
def Obligations.BpxExtractsThePlanes : Prop :=
  ∀ (s : State) (n : Nat), s.params.wf = true → GridOk s n → FlagsSet pixv s →
    ∃ t, exec .bpx s = .next t ∧ t.status = 0x00000002 ∧ t.result.toNat = n ∧
      (∀ (p : Fin 8) (i : Nat), i < n → t.planeAt p i = (s.pixAt i).getLsbD p.val) ∧
      (∀ (p : Fin 8) (i : Nat), n ≤ i → t.planeAt p i = s.planeAt p i) ∧
      t.valid = s.valid ||| 0x0000FF00 ∧
      KeepsAllBut ([.status, .result, .valid] ++ (List.finRange 8).map .plane) s t

/-- 41_bitplane.md R112: BPC. -/
def Obligations.BpcCombinesThePlanes : Prop :=
  ∀ (s : State) (n : Nat), s.params.wf = true → GridOk s n → FlagsSet planevAll s →
    ∃ t, exec .bpc s = .next t ∧ t.status = 0x00000002 ∧ t.result.toNat = n ∧
      (∀ (p : Fin 8) (i : Nat), i < n → (t.pixAt i).getLsbD p.val = s.planeAt p i) ∧
      (∀ i, n ≤ i → t.pixAt i = s.pixAt i) ∧
      t.valid = s.valid ||| 0x00000001 ∧
      KeepsAllBut [.status, .result, .valid, .pix] s t

/-- 41_bitplane.md R112: BPC after a successful BPX, with the dimensions and the planes unchanged,
restores PIX[0 .. N−1], whatever PIX and everything else has become in between. -/
def Obligations.BpxThenBpcRestoresTheImage : Prop :=
  ∀ (s t t' : State) (n : Nat), s.params.wf = true → GridOk s n →
    exec .bpx s = .next t → t.status = 0x00000002 →
    t'.params = t.params → t'.width = t.width → t'.height = t.height → t'.plane = t.plane →
    FlagsSet planevAll t' →
    ∃ u, exec .bpc t' = .next u ∧ u.status = 0x00000002 ∧ u.image n = s.image n

/-! ### Run-length coding, grayscale -/

/-- 42_rle_gray.md R121: RGENC writes, for the maximal runs of PIX[0 .. N−1] in order, each byte of
the run length's varint paired with the intensity; an even number of bytes, from 2 to 2 × N. -/
def Obligations.RgencWritesItemsOfTheRuns : Prop :=
  ∀ (s : State) (n : Nat), s.params.wf = true → GridOk s n → FlagsSet pixv s →
    ∃ (t : State) (rs : List (Nat × Byte)), exec .rgenc s = .next t ∧ t.status = 0x00000002 ∧
      MaximalRuns rs (s.image n) ∧
      t.stream 0 t.slen[0].toNat =
        (rs.flatMap fun r => (varint r.1).flatMap fun b => [b, r.2]) ∧
      t.slen[0].toNat = 2 * (rs.map fun r => (varint r.1).length).sum ∧
      2 ≤ t.slen[0].toNat ∧ t.slen[0].toNat ≤ 2 * n ∧ t.result = t.slen[0] ∧
      (∀ j, t.slen[0].toNat ≤ j → t.strmAt 0 j = s.strmAt 0 j) ∧
      t.valid = s.valid ||| 0x00010000 ∧
      KeepsAllBut [.status, .result, .valid, .slen 0, .strm 0] s t

/-- 42_rle_gray.md R122: RGDEC on a stream that begins with items covering exactly N pixels, the
last of them needed: PIX is their replay, what follows them is ignored, and RESULT counts the
bytes used. -/
def Obligations.RgdecReplaysTheItems : Prop :=
  ∀ (s : State) (n : Nat) (its : List (Byte × Byte)) (last : Byte × Byte) (tail : List Byte),
    s.params.wf = true → GridOk s n → FlagsSet (strmv 0) s →
    s.slen[0].toNat ≤ s.params.maxStrm →
    s.stream 0 s.slen[0].toNat = ((its ++ [last]).flatMap fun it => [it.1, it.2]) ++ tail →
    itemsTotal (its.map Prod.fst) < n → itemsTotal ((its ++ [last]).map Prod.fst) = n →
    ∃ t, exec .rgdec s = .next t ∧ t.status = 0x00000002 ∧
      t.image n = (its ++ [last]).flatMap (fun it => List.replicate it.1.toNat it.2) ∧
      t.result.toNat = 2 * (its.length + 1) ∧
      (∀ j, n ≤ j → t.pixAt j = s.pixAt j) ∧
      t.valid = s.valid ||| 0x00000001 ∧
      KeepsAllBut [.status, .result, .valid, .pix] s t

/-- 60_exceptions.md R192, 42_rle_gray.md R122: RGDEC, after items covering i < N pixels, reports
MalformedArtifact(i) when fewer than two bytes remain or the next item would pass the end of the
grid; before that, CapacityExceeded when SLEN0 is larger than the bank. -/
def Obligations.RgdecReportsMalformedStreams : Prop :=
  ∀ (s : State) (n : Nat), s.params.wf = true → GridOk s n → FlagsSet (strmv 0) s →
    (s.params.maxStrm < s.slen[0].toNat → ∃ t, exec .rgdec s = .next t ∧
      t.status = 0x00000066 ∧ t.result = s.slen[0]) ∧
    (s.slen[0].toNat ≤ s.params.maxStrm →
      ∀ (its : List (Byte × Byte)) (tail : List Byte),
        s.stream 0 s.slen[0].toNat = (its.flatMap fun it => [it.1, it.2]) ++ tail →
        itemsTotal (its.map Prod.fst) < n →
        (tail.length < 2 ∨ (∃ len val rest, tail = len :: val :: rest ∧
          n < itemsTotal (its.map Prod.fst) + len.toNat)) →
        ∃ t, exec .rgdec s = .next t ∧ t.status = 0x00000026 ∧
          t.result.toNat = itemsTotal (its.map Prod.fst) ∧ t.valid = s.valid &&& ~~~ 0x00000001)

/-- 42_rle_gray.md R123: RGDEC after a successful RGENC, with its dimensions, stream, length and flag
unchanged, succeeds, uses exactly SLEN0 bytes and restores the image, whatever everything else has
become in between; SLEN0 is twice the sum of the runs' varint lengths. -/
def Obligations.RgencThenRgdecRestoresTheImage : Prop :=
  ∀ (s t t' : State) (n : Nat), s.params.wf = true → GridOk s n →
    exec .rgenc s = .next t → t.status = 0x00000002 → SameStream 0 t t' → FlagsSet (strmv 0) t' →
    (∃ u, exec .rgdec t' = .next u ∧ u.status = 0x00000002 ∧
      u.image n = s.image n ∧ u.result = t.slen[0]) ∧
    ∃ rs, MaximalRuns rs (s.image n) ∧
      t.slen[0].toNat = 2 * (rs.map fun r => (varint r.1).length).sum

/-! ### Run-length coding, one bit-plane -/

/-- 43_rle_bitplane.md R131: BPENC p writes a zero lead byte if the plane begins with 0, then for
each maximal run in order the bytes of the run length's varint with one zero byte between each
two; from 1 to N + 1 bytes; no other bank is touched. -/
def Obligations.BpencWritesRunLengths : Prop :=
  ∀ (s : State) (n : Nat) (p : Fin 8), s.params.wf = true → GridOk s n → FlagsSet (planev p) s →
    ∃ (t : State) (rs : List (Nat × Bool)), exec (.bpenc p) s = .next t ∧
      t.status = 0x00000002 ∧ MaximalRuns rs (s.planeImage p n) ∧
      t.stream p t.slen[p].toNat = (if s.planeAt p 0 = false then [0] else []) ++
        (rs.flatMap fun r => (varint r.1).intersperse 0) ∧
      1 ≤ t.slen[p].toNat ∧ t.slen[p].toNat ≤ n + 1 ∧ t.result = t.slen[p] ∧
      (∀ j, t.slen[p].toNat ≤ j → t.strmAt p j = s.strmAt p j) ∧
      t.valid = s.valid ||| ((1 : Word) <<< (16 + p.val)) ∧
      KeepsAllBut [.status, .result, .valid, .slen p, .strm p] s t

/-- 43_rle_bitplane.md R132: BPDEC p on a stream that begins with run lengths covering exactly N
pixels, the last of them needed: PLANE[p] is their replay in alternating colours, white first, and
RESULT counts the bytes used. -/
def Obligations.BpdecReplaysTheRuns : Prop :=
  ∀ (s : State) (n : Nat) (p : Fin 8) (its : List Byte) (last : Byte) (tail : List Byte),
    s.params.wf = true → GridOk s n → FlagsSet (strmv p) s →
    s.slen[p].toNat ≤ s.params.maxStrm →
    s.stream p s.slen[p].toNat = its ++ last :: tail →
    itemsTotal its < n → itemsTotal its + last.toNat = n →
    ∃ t, exec (.bpdec p) s = .next t ∧ t.status = 0x00000002 ∧
      t.planeImage p n = planeItemPixels (its ++ [last]) ∧
      t.result.toNat = its.length + 1 ∧
      (∀ j, n ≤ j → t.planeAt p j = s.planeAt p j) ∧
      t.valid = s.valid ||| ((1 : Word) <<< (8 + p.val)) ∧
      KeepsAllBut [.status, .result, .valid, .plane p] s t

/-- 60_exceptions.md R192, 43_rle_bitplane.md R132: BPDEC p, after run lengths covering i < N
pixels, reports MalformedArtifact(i) when no byte remains or the next run would pass the end of
the plane; before that, CapacityExceeded when SLENp is larger than the bank. -/
def Obligations.BpdecReportsMalformedStreams : Prop :=
  ∀ (s : State) (n : Nat) (p : Fin 8), s.params.wf = true → GridOk s n → FlagsSet (strmv p) s →
    (s.params.maxStrm < s.slen[p].toNat → ∃ t, exec (.bpdec p) s = .next t ∧
      t.status = 0x00000066 ∧ t.result = s.slen[p]) ∧
    (s.slen[p].toNat ≤ s.params.maxStrm →
      ∀ its tail : List Byte, s.stream p s.slen[p].toNat = its ++ tail →
        itemsTotal its < n →
        (tail = [] ∨ (∃ len rest, tail = len :: rest ∧ n < itemsTotal its + len.toNat)) →
        ∃ t, exec (.bpdec p) s = .next t ∧ t.status = 0x00000026 ∧
          t.result.toNat = itemsTotal its ∧ t.valid = s.valid &&& ~~~ ((1 : Word) <<< (8 + p.val)))

/-- 43_rle_bitplane.md R133: BPDEC p after a successful BPENC p, with its dimensions, stream, length
and flag unchanged, succeeds, uses exactly SLENp bytes and restores the plane, whatever everything
else has become in between. -/
def Obligations.BpencThenBpdecRestoresThePlane : Prop :=
  ∀ (s t t' : State) (n : Nat) (p : Fin 8), s.params.wf = true → GridOk s n →
    exec (.bpenc p) s = .next t → t.status = 0x00000002 → SameStream p t t' →
    FlagsSet (strmv p) t' →
    ∃ u, exec (.bpdec p) t' = .next u ∧ u.status = 0x00000002 ∧
      u.planeImage p n = s.planeImage p n ∧ u.result = t.slen[p]

/-! ### Huffman: counts, tree, table -/

/-- 44_huffman_build.md R141: HFREQ. -/
def Obligations.HfreqCountsTheIntensities : Prop :=
  ∀ (s : State) (n : Nat), s.params.wf = true → GridOk s n → FlagsSet pixv s →
    ∃ t, exec .hfreq s = .next t ∧ t.status = 0x00000002 ∧
      (∀ x, x < 256 → (t.freqAt x).toNat = (s.image n).count (BitVec.ofNat 8 x)) ∧
      t.result.toNat = ((List.range 256).filter fun x => t.freqAt x ≠ 0).length ∧
      1 ≤ t.result.toNat ∧ t.result.toNat ≤ min n 256 ∧
      ((List.range 256).map fun x => (t.freqAt x).toNat).sum = n ∧
      t.valid = s.valid ||| 0x00000002 ∧
      KeepsAllBut [.status, .result, .valid, .freq] s t

/-- 44_huffman_build.md R142, R143: HBUILD numbers one leaf per occurring intensity in ascending
order, then makes each internal node of the two live nodes of least key; the result is a valid
tree (R144) whose root carries the sum of all counts. -/
def Obligations.HbuildBuildsTheHuffmanTree : Prop :=
  ∀ s : State, FlagsSet freqv s → (∃ x, x < 256 ∧ s.freqAt x ≠ 0) →
    ∃ t, exec .hbuild s = .next t ∧ t.status = 0x00000002 ∧
      (List.range t.nsym.toNat).map (fun k => ((t.nodeAt k).sym.toNat, (t.nodeAt k).freq.toNat)) =
        ((List.range 256).filter fun x => s.freqAt x ≠ 0).map
          (fun x => (x, (s.freqAt x).toNat)) ∧
      TreeOk t ∧ Greedy t ∧ t.result = t.nsym ∧
      (t.nodeAt t.root.toNat).freq.toNat =
        ((List.range 256).map fun x => (s.freqAt x).toNat).sum ∧
      (∀ k, t.root.toNat < k → t.nodeAt k = s.nodeAt k) ∧
      t.valid = s.valid ||| 0x00000004 ∧
      KeepsAllBut [.status, .result, .valid, .nsym, .root, .node] s t

/-- 60_exceptions.md R194: HBUILD on a valid table of zero counts reports EmptyImage, with
information word 0, and leaves NSYM and ROOT as they were; no other operation reports it. -/
def Obligations.HbuildRejectsAnEmptyTable : Prop :=
  (∀ s : State, FlagsSet freqv s → (∀ x, x < 256 → s.freqAt x = 0) →
    ∃ t, exec .hbuild s = .next t ∧ t.status = 0x00000046 ∧ t.result = 0 ∧
      t.nsym = s.nsym ∧ t.root = s.root ∧ t.valid = s.valid &&& ~~~ 0x00000004) ∧
  ∀ (i : Instr) (s t : State), exec i s = .next t → t.status = 0x00000046 →
    i = .hbuild ∧ ∀ x, x < 256 → s.freqAt x = 0

/-- 44_huffman_build.md R148: HGEN is a function of NODE, NSYM and ROOT alone, HBUILD of the 256
counts alone, so two instances with equal counts build equal trees and, from them, equal code
tables. -/
def Obligations.TreeAndTableDependOnTheCountsAlone : Prop :=
  (∀ s s' : State, FlagsSet treev s → FlagsSet treev s' →
    (∀ k, s.nodeAt k = s'.nodeAt k) → s.nsym = s'.nsym → s.root = s'.root →
    ∃ u u', exec .hgen s = .next u ∧ exec .hgen s' = .next u' ∧
      u.status = 0x00000002 ∧ u'.status = 0x00000002 ∧
      u.code = u'.code ∧ u.ncode = u'.ncode ∧ u.result = u'.result) ∧
  ∀ s s' : State, FlagsSet freqv s → FlagsSet freqv s' →
    (∃ x, x < 256 ∧ s.freqAt x ≠ 0) → (∀ x, x < 256 → s.freqAt x = s'.freqAt x) →
    ∃ t t' u u', exec .hbuild s = .next t ∧ exec .hbuild s' = .next t' ∧
      exec .hgen t = .next u ∧ exec .hgen t' = .next u' ∧
      t.status = 0x00000002 ∧ t'.status = 0x00000002 ∧
      t.nsym = t'.nsym ∧ t.root = t'.root ∧ t.result = t'.result ∧
      (∀ k, k ≤ t.root.toNat → t.nodeAt k = t'.nodeAt k) ∧
      u.status = 0x00000002 ∧ u'.status = 0x00000002 ∧
      u.code = u'.code ∧ u.ncode = u'.ncode ∧ u.result = u'.result

/-- 44_huffman_build.md R145, R147: HGEN gives each leaf's intensity the bits of the path from ROOT
to that leaf, no other intensity a code, and the single symbol of a one-leaf tree the code "0";
NCODE is NSYM and RESULT the greatest length. The tree is a valid one, as it is whenever TREEV is 1
(R144). -/
def Obligations.HgenGivesEachLeafItsPath : Prop :=
  ∀ s : State, FlagsSet treev s → TreeOk s →
    ∃ t, exec .hgen s = .next t ∧ t.status = 0x00000002 ∧
      (∀ x, x < 256 →
        ((t.codeAt x).present = true ↔ ∃ k, k < s.nsym.toNat ∧ (s.nodeAt k).sym.toNat = x)) ∧
      (∀ x, x < 256 → (t.codeAt x).present = false →
        t.codeAt x = { present := false, len := 0, bits := 0 }) ∧
      (s.nsym.toNat ≠ 1 → ∀ k, k < s.nsym.toNat →
        s.descend s.root.toNat (codeBits (t.codeAt (s.nodeAt k).sym.toNat)) = some k) ∧
      (s.nsym.toNat = 1 → codeBits (t.codeAt (s.nodeAt 0).sym.toNat) = [false]) ∧
      t.ncode = s.nsym ∧
      (∀ x, x < 256 → (t.codeAt x).len.toNat ≤ t.result.toNat) ∧
      (∃ x, x < 256 ∧ (t.codeAt x).len.toNat = t.result.toNat) ∧
      1 ≤ t.result.toNat ∧ t.result.toNat ≤ 255 ∧
      t.valid = s.valid ||| 0x00000008 ∧
      KeepsAllBut [.status, .result, .valid, .ncode, .code] s t

/-- 44_huffman_build.md R146 (d): after HFREQ, HBUILD and HGEN the packed length is least among all
assignments of nonempty prefix-free codes to the intensities that occur. -/
def Obligations.HuffmanCodesAreOptimal : Prop :=
  ∀ (s a b c : State) (n : Nat), s.params.wf = true → GridOk s n →
    exec .hfreq s = .next a → a.status = 0x00000002 →
    exec .hbuild a = .next b → b.status = 0x00000002 →
    exec .hgen b = .next c → c.status = 0x00000002 →
    (∀ assigned : Nat → List Bool,
      (∀ x, HasCode c x → assigned x ≠ []) →
      (∀ x y, HasCode c x → HasCode c y → x ≠ y → ¬ (assigned x <+: assigned y)) →
      ((List.range 256).map fun x => (c.freqAt x).toNat * (c.codeAt x).len.toNat).sum ≤
        ((List.range 256).map fun x => (c.freqAt x).toNat * (assigned x).length).sum) ∧
    ((List.range 256).map fun x => (c.freqAt x).toNat * (c.codeAt x).len.toNat).sum ≤ 8 * n

/-! ### Huffman: the packed stream -/

/-- 45_huffman_stream.md R160, R161, 20_memory.md R65: HENC, when every pixel has a code and the
codes fit the bank, packs the codes of PIX[0 .. N−1] in order, first bit in the most significant
position, and pads the last byte with zeros. -/
def Obligations.HencPacksTheCodes : Prop :=
  ∀ (s : State) (n : Nat), s.params.wf = true → GridOk s n → FlagsSet (pixv ||| codev) s →
    (∀ v ∈ s.image n, HasCode s v.toNat) →
    (s.codesOf (s.image n)).length ≤ 8 * s.params.maxStrm →
    ∃ t, exec .henc s = .next t ∧ t.status = 0x00000002 ∧
      t.bitcnt.toNat = (s.codesOf (s.image n)).length ∧
      t.streamBits t.bitcnt.toNat = s.codesOf (s.image n) ∧
      t.slen[0].toNat = (t.bitcnt.toNat + 7) / 8 ∧
      (∀ k, t.bitcnt.toNat ≤ k → k < 8 * t.slen[0].toNat → t.streamBit k = false) ∧
      (∀ j, t.slen[0].toNat ≤ j → t.strmAt 0 j = s.strmAt 0 j) ∧
      t.result = t.bitcnt ∧ t.valid = s.valid ||| 0x00010000 ∧
      KeepsAllBut [.status, .result, .valid, .bitcnt, .slen 0, .strm 0] s t

/-- 60_exceptions.md R199, R196, 45_huffman_stream.md R161: HENC, after i pixels whose codes fit,
reports NoCode(i) when pixel i has no code, and CapacityExceeded(i) when it has one that would pass
8 × MAXSTRM bits. BITCNT and SLEN0 keep their values. No other operation reports NoCode. -/
def Obligations.HencReportsTheFirstBadPixel : Prop :=
  (∀ (i : Instr) (s t : State), exec i s = .next t → t.status = 0x00000086 → i = .henc) ∧
  ∀ (s : State) (n i : Nat), s.params.wf = true → GridOk s n → FlagsSet (pixv ||| codev) s →
    i < n → (∀ v ∈ s.image i, HasCode s v.toNat) →
    (s.codesOf (s.image i)).length ≤ 8 * s.params.maxStrm →
    (¬ HasCode s (s.pixAt i).toNat → ∃ t, exec .henc s = .next t ∧ t.status = 0x00000086 ∧
      t.result.toNat = i ∧ t.bitcnt = s.bitcnt ∧ t.slen = s.slen) ∧
    (HasCode s (s.pixAt i).toNat → 8 * s.params.maxStrm < (s.codesOf (s.image (i + 1))).length →
      ∃ t, exec .henc s = .next t ∧ t.status = 0x00000066 ∧
        t.result.toNat = i ∧ t.bitcnt = s.bitcnt ∧ t.slen = s.slen)

/-- 45_huffman_stream.md R164: with NCODE = 1, HDEC fills the grid with the one intensity that has
a code, reads nothing of the stream, and RESULT is 0. -/
def Obligations.HdecDegenerateFillsTheGrid : Prop :=
  ∀ (s : State) (n : Nat) (x : Byte), GridOk s n → FlagsSet codev s → s.ncode = 1 →
    HasCode s x.toNat → (∀ y, HasCode s y → y = x.toNat) →
    ∃ t, exec .hdec s = .next t ∧ t.status = 0x00000002 ∧ t.result = 0 ∧
      t.image n = List.replicate n x ∧ (∀ j, n ≤ j → t.pixAt j = s.pixAt j) ∧
      t.valid = s.valid ||| 0x00000001 ∧ KeepsAllBut [.status, .result, .valid, .pix] s t

/-- 45_huffman_stream.md R163: HDEC on a stream that begins with the codes of N pixels, none longer
than MAXSCAN, under a valid table (44_huffman_build.md R146): PIX is those pixels and RESULT the
number of bits used. -/
def Obligations.HdecScansTheCodes : Prop :=
  ∀ (s : State) (n : Nat) (px : List Byte), s.params.wf = true → GridOk s n → CodeOk s →
    FlagsSet (codev ||| strmv 0) s → s.ncode ≠ 1 →
    s.slen[0].toNat ≤ s.params.maxStrm → s.bitcnt.toNat ≤ 8 * s.slen[0].toNat →
    px.length = n →
    (∀ v ∈ px, HasCode s v.toNat ∧ (s.codeAt v.toNat).len.toNat ≤ s.params.maxScan) →
    (s.codesOf px).length ≤ s.bitcnt.toNat →
    s.streamBits (s.codesOf px).length = s.codesOf px →
    ∃ t, exec .hdec s = .next t ∧ t.status = 0x00000002 ∧
      t.image n = px ∧ t.result.toNat = (s.codesOf px).length ∧
      (∀ j, n ≤ j → t.pixAt j = s.pixAt j) ∧
      t.valid = s.valid ||| 0x00000001 ∧ KeepsAllBut [.status, .result, .valid, .pix] s t

/-- 45_huffman_stream.md R163, 60_exceptions.md R192, R193, R196: where HDEC fails, under a valid
table. Before the scan: CapacityExceeded for SLEN0, then MalformedArtifact(0) for a BITCNT larger
than the bytes hold. In the scan, after i pixels at bit position pos where no code of at most
MAXSCAN bits matches: MalformedArtifact(i) when fewer than MAXSCAN bits remain, UnmatchedCode(pos)
when not. -/
def Obligations.HdecReportsExhaustedAndUnmatched : Prop :=
  ∀ (s : State) (n : Nat), s.params.wf = true → GridOk s n → CodeOk s →
    FlagsSet (codev ||| strmv 0) s → s.ncode ≠ 1 →
    (s.params.maxStrm < s.slen[0].toNat → ∃ t, exec .hdec s = .next t ∧
      t.status = 0x00000066 ∧ t.result = s.slen[0]) ∧
    (s.slen[0].toNat ≤ s.params.maxStrm → 8 * s.slen[0].toNat < s.bitcnt.toNat →
      ∃ t, exec .hdec s = .next t ∧ t.status = 0x00000026 ∧ t.result = 0) ∧
    (s.slen[0].toNat ≤ s.params.maxStrm → s.bitcnt.toNat ≤ 8 * s.slen[0].toNat →
      ∀ px : List Byte, px.length < n →
      (∀ v ∈ px, HasCode s v.toNat ∧ (s.codeAt v.toNat).len.toNat ≤ s.params.maxScan) →
      (s.codesOf px).length ≤ s.bitcnt.toNat →
      s.streamBits (s.codesOf px).length = s.codesOf px →
      NoMatchAt s (s.codesOf px).length →
      (s.bitcnt.toNat < (s.codesOf px).length + s.params.maxScan →
        ∃ t, exec .hdec s = .next t ∧ t.status = 0x00000026 ∧ t.result.toNat = px.length) ∧
      ((s.codesOf px).length + s.params.maxScan ≤ s.bitcnt.toNat →
        ∃ t, exec .hdec s = .next t ∧ t.status = 0x00000036 ∧
          t.result.toNat = (s.codesOf px).length))

/-- 45_huffman_stream.md R165: with a valid table whose codes are all at most MAXSCAN bits long,
HDEC never reports UnmatchedCode, whatever the stream; with a longer code in the table, a stream
that HENC itself made does report it, at the first pixel that has such a code. -/
def Obligations.HdecUnmatchedExactlyPastMaxscan : Prop :=
  (∀ s t : State, CodeOk s → (∀ x, HasCode s x → (s.codeAt x).len.toNat ≤ s.params.maxScan) →
    exec .hdec s = .next t → t.status ≠ 0x00000036) ∧
  ∀ (s t t' : State) (n i : Nat), s.params.wf = true → GridOk s n → CodeOk s →
    2 ≤ s.ncode.toNat → exec .henc s = .next t → t.status = 0x00000002 →
    SameHuffman t t' → FlagsSet (codev ||| strmv 0) t' → i < n →
    (∀ j, j < i → (s.codeAt (s.pixAt j).toNat).len.toNat ≤ s.params.maxScan) →
    s.params.maxScan < (s.codeAt (s.pixAt i).toNat).len.toNat →
    ∃ u, exec .hdec t' = .next u ∧ u.status = 0x00000036 ∧
      u.result.toNat = (s.codesOf (s.image i)).length

/-- 45_huffman_stream.md R161, R163, R164: after a successful HENC under a valid table whose codes
are all at most MAXSCAN bits long, HDEC, with what it reads unchanged, restores the image and uses
exactly BITCNT bits, none when NCODE is 1, whatever everything else has become in between. -/
def Obligations.HencThenHdecRestoresTheImage : Prop :=
  ∀ (s t t' : State) (n : Nat), s.params.wf = true → GridOk s n →
    CodeOk s → (∀ x, HasCode s x → (s.codeAt x).len.toNat ≤ s.params.maxScan) →
    exec .henc s = .next t → t.status = 0x00000002 →
    SameHuffman t t' → FlagsSet (codev ||| strmv 0) t' →
    ∃ u, exec .hdec t' = .next u ∧ u.status = 0x00000002 ∧
      u.image n = s.image n ∧ u.result = (if s.ncode = 1 then 0 else t.bitcnt)

/-- 45_huffman_stream.md R166: HFREQ, HBUILD, HGEN and HENC on a grid, then HDEC with what it reads
unchanged (the table may have been built again: only that CODE and NCODE are equal is assumed). If
the greatest code length, HGEN's RESULT, is at most MAXSCAN, the image is restored and exactly
BITCNT bits are used, none when NCODE is 1; BITCNT is at most 8 × N. -/
def Obligations.HuffmanRoundTripRestoresTheImage : Prop :=
  ∀ (s a b c t t' : State) (n : Nat), s.params.wf = true → GridOk s n →
    exec .hfreq s = .next a → a.status = 0x00000002 →
    exec .hbuild a = .next b → b.status = 0x00000002 →
    exec .hgen b = .next c → c.status = 0x00000002 →
    exec .henc c = .next t → t.status = 0x00000002 →
    SameHuffman t t' → FlagsSet (codev ||| strmv 0) t' → c.result.toNat ≤ s.params.maxScan →
    ∃ u, exec .hdec t' = .next u ∧ u.status = 0x00000002 ∧
      u.image n = s.image n ∧ u.result = (if t.ncode = 1 then 0 else t.bitcnt) ∧
      t.bitcnt.toNat ≤ 8 * n

/-! ### Invariants of every step -/

/-- 20_memory.md R60 and the canonical form: every step keeps every buffer sorted and canonical,
every listed index inside its capacity, whatever the registers hold, and no unspecified content
from a draw not yet made. -/
def Obligations.EveryStepKeepsTheBuffersCanonical : Prop :=
  ∀ s t : State, BuffersOk s → step s = .next t → BuffersOk t

/-- 10_state.md R22, R33, R44: every step keeps STATUS and VALID as the host may find them: BUSY 0,
ERR exactly with a nonzero ERRCODE, reserved bits 0. -/
def Obligations.EveryStepKeepsStatusAndValidLegal : Prop :=
  ∀ s t : State, RegistersOk s → step s = .next t → RegistersOk t

/-- 44_huffman_build.md R144: every step keeps the tree valid while TREEV is 1. -/
def Obligations.EveryStepKeepsTheTreeValid : Prop :=
  ∀ s t : State, TreeInv s → step s = .next t → TreeInv t

/-- 44_huffman_build.md R146 (a) to (c): every step keeps the code table valid while CODEV is 1,
given that the tree is valid while TREEV is 1. -/
def Obligations.EveryStepKeepsTheCodeTableValid : Prop :=
  ∀ s t : State, TreeInv s → CodeInv s → step s = .next t → CodeInv t

/-- The reset state of every instance meets the four invariants. -/
def Obligations.ResetMeetsTheInvariants : Prop :=
  ∀ P : Config.Params, BuffersOk (State.resetWith P) ∧ RegistersOk (State.resetWith P) ∧
    TreeInv (State.resetWith P) ∧ CodeInv (State.resetWith P)

/-- The canonical form (notes/assumptions/4.md): two canonical buffers over the reset fill that hold
the same elements are equal. -/
def Obligations.BuffersThatReadAlikeAreEqual : Prop :=
  ∀ m m' : Memory Byte, m.wf Config.byteElem = true → m'.wf Config.byteElem = true →
    m.fill = .zero → m'.fill = .zero →
    (∀ i, m.get Config.byteElem i = m'.get Config.byteElem i) → m = m'

/-! ### The placement on a platform's bus -/

/-- 20_memory.md R71, 92_eei_decisions.md D31: under any injective placement, a bus access to the
address of a register or element is the host's move on that register or element, performed after
what is pending, and one to an address where nothing stands is no access to CORE; the suggested
placement puts register k at 4 × k. That an access is of one whole register or element at its own
address, and becomes a move of the script, is the model's choice (notes/assumptions/11.md). -/
def Obligations.BusAccessIsTheMoveOfItsElement : Prop :=
  (∀ (s : State) (k a v : Nat), BusInjective s.params.busMap →
    s.params.busMap.address .reg k = some a →
    s.withBusAccesses [.read a, .write a v] =
      { s with script := s.script ++ [.readReg k, .writeReg k (.const (BitVec.ofNat 32 v))] }) ∧
  (∀ (s : State) (sp : Space) (i a v : Nat), BusInjective s.params.busMap →
    s.params.busMap.address (.buf sp) i = some a →
    s.withBusAccesses [.read a, .write a v] =
      { s with script := s.script ++ [.readBuf sp i, .writeBuf sp i v] }) ∧
  (∀ (s : State) (a v : Nat), (∀ sp k, s.params.busMap.address sp k ≠ some a) →
    s.withBusAccesses [.read a, .write a v] = s) ∧
  ∀ maxPix maxVb k, k < 24 →
    (Config.BusMap.suggested maxPix maxVb).address .reg k = some (4 * k)
end

