-- ==== Sys2Proof/Laws/Bus.lean ====
section
/-! SUPPORT. What the placement on a bus does: `locate` inverts `address`, and the placement of the
reset instance is injective (20_memory.md R71, 92_eei_decisions.md D31). -/

namespace Sys2Proof.Config

open Sys2Proof.Machine

/-- What `locate` finds has the address it was asked for. -/
theorem BusMap.address_of_locate {M : BusMap} {a k : Nat} {sp : BusSpace}
    (h : M.locate a = some (sp, k)) : M.address sp k = some a := by
  obtain ⟨e, -, he⟩ := List.exists_of_findSome?_eq_some h
  split at he
  · split at he
    · split at he
      · cases he; assumption
      · cases he
    · cases he
  · cases he

/-- A span finds, at the offset it gives an element, that element. -/
theorem BusSpan.elementAt_offsetOf {e : BusSpan} {sp : BusSpace} {k d : Nat}
    (h : e.offsetOf sp k = some d) : e.space = sp ∧ e.elementAt d = some k := by
  unfold BusSpan.offsetOf at h
  split at h
  · next hc =>
    obtain ⟨hs, h1, h2, h3⟩ := hc
    cases h
    have hq : (e.stride * (k - e.first)) / e.stride = k - e.first := by
      rcases h3 with h3 | h3
      · exact Nat.mul_div_cancel_left _ h3
      · subst h3; simp
    have hm : (e.stride * (k - e.first)) % e.stride = 0 := Nat.mul_mod_right _ _
    refine ⟨hs, ?_⟩
    simp only [BusSpan.elementAt, Nat.add_sub_cancel_left, hq, hm, Nat.le_add_right, true_and]
    rw [if_pos (by omega), Nat.add_sub_cancel' h1]
  · cases h

/-- Under an injective placement `locate` inverts `address`. -/
theorem BusMap.locate_of_address {M : BusMap} {a k : Nat} {sp : BusSpace} (hM : BusInjective M)
    (h : M.address sp k = some a) : M.locate a = some (sp, k) := by
  cases hl : M.locate a with
  | some x =>
    obtain ⟨h1, h2⟩ := hM _ _ _ _ _ (BusMap.address_of_locate hl) h
    rw [← h1, ← h2]
  | none =>
    obtain ⟨d, hd, rfl⟩ := Option.map_eq_some_iff.1 h
    obtain ⟨e, he, ho⟩ := List.exists_of_findSome?_eq_some hd
    obtain ⟨rfl, hk⟩ := BusSpan.elementAt_offsetOf ho
    have := List.findSome?_eq_none_iff.1 hl e he
    rw [if_pos (Nat.le_add_right _ _), Nat.add_sub_cancel_left, hk] at this
    simp [h] at this

/-- Where nothing stands, `locate` finds nothing. -/
theorem BusMap.locate_eq_none {M : BusMap} {a : Nat} (h : ∀ sp k, M.address sp k ≠ some a) :
    M.locate a = none := by
  cases hl : M.locate a with
  | none => rfl
  | some x => exact absurd (BusMap.address_of_locate hl) (h _ _)

/-- Where the suggested placement puts what it places. -/
def SuggestedAt (maxPix maxVb k a : Nat) : BusSpace → Prop
  | .reg => k < 24 ∧ a = 4 * k
  | .buf .pix => k < maxPix ∧ a = 0x100000000 + k
  | .buf (.plane p) => p < 8 ∧ k < maxPix ∧ a = 0x200000000 + 0x10000000 * p + k
  | .buf .freq => k < 256 ∧ a = 0x300000000 + 4 * k
  | .buf .node => k < 511 ∧ a = 0x400000000 + 16 * k
  | .buf .code => k < 256 ∧ a = 0x500000000 + 64 * k
  | .buf (.strm p) => p < 8 ∧ k < 2 * maxPix ∧ a = 0x600000000 + 0x10000000 * p + k
  | .buf .vb => k < maxVb ∧ a = 0x700000000 + k

theorem BusMap.suggestedAt_of_address {maxPix maxVb k a : Nat} {sp : BusSpace}
    (h : (BusMap.suggested maxPix maxVb).address sp k = some a) : SuggestedAt maxPix maxVb k a sp := by
  obtain ⟨d, hd, rfl⟩ := Option.map_eq_some_iff.1 h
  obtain ⟨e, he, ho⟩ := List.exists_of_findSome?_eq_some hd
  unfold BusSpan.offsetOf at ho
  split at ho
  · next hc =>
    obtain ⟨rfl, -, h2, -⟩ := hc
    cases ho
    simp only [BusMap.suggested, List.cons_append, List.nil_append, List.mem_cons, List.mem_append,
      List.mem_map, List.mem_range] at he
    rcases he with rfl | rfl | rfl | rfl | rfl | rfl | ⟨p, hp, rfl⟩ | ⟨p, hp, rfl⟩ <;>
      simp_all [SuggestedAt, BusMap.base, BusMap.suggested, symbols, planes, nodes] <;> omega
  · cases ho

/-- The suggested placement of a legal instance is one that BusMap may be. -/
theorem BusMap.suggested_injective {maxPix maxVb : Nat} (hp : maxPix ≤ 2 ^ 24) :
    BusInjective (BusMap.suggested maxPix maxVb) := by
  have hp' : maxPix ≤ 16777216 := hp
  intro sp k sp' k' a h h'
  have h1 := BusMap.suggestedAt_of_address h
  have h2 := BusMap.suggestedAt_of_address h'
  rcases sp with _ | (_ | p | _ | _ | _ | p | _) <;>
    rcases sp' with _ | (_ | p' | _ | _ | _ | p' | _) <;>
    simp only [SuggestedAt] at h1 h2 <;>
    simp only [BusSpace.buf.injEq, Space.plane.injEq, Space.strm.injEq, reduceCtorEq, true_and,
      false_and] <;> omega

/-- The suggested placement has register k at 4 × k (20_memory.md R71). -/
theorem BusMap.suggested_reg (maxPix maxVb : Nat) {k : Nat} (h : k < 24) :
    (BusMap.suggested maxPix maxVb).address .reg k = some (4 * k) := by
  simp [BusMap.address, BusMap.suggested, BusSpan.offsetOf, BusMap.base, h]

end Sys2Proof.Config
end

