-- ==== Sys2Proof/Laws/Memory.lean ====
section
/-! SUPPORT. The laws of one buffer: what a read gives after a write, and that every write keeps
the canonical form and the capacity. -/

namespace Sys2Proof.Machine

open Sys2Proof.Config

variable {α : Type} (e : Elem α)

/-! ### Lists of cells -/

theorem lookupCell_insertCell (cs : List (Nat × α)) (i j : Nat) (v : α) :
    lookupCell (insertCell cs i v) j = if i = j then some v else lookupCell cs j := by
  induction cs with
  | nil => rfl
  | cons c cs ih =>
    simp only [insertCell]
    split
    · simp [lookupCell]
    · split
      · next h => simp only [lookupCell]; grind
      · simp only [lookupCell, ih]; grind

theorem lookupCell_eraseCell (cs : List (Nat × α)) (i j : Nat) :
    lookupCell (eraseCell cs i) j = if i = j then none else lookupCell cs j := by
  induction cs with
  | nil => simp [eraseCell, lookupCell]
  | cons c cs ih => simp only [eraseCell]; split <;> simp only [lookupCell, ih] <;> grind

theorem risingFrom_mono (cs : List (Nat × α)) {lo lo' : Nat} (h : lo' ≤ lo)
    (hr : risingFrom lo cs = true) : risingFrom lo' cs = true := by
  cases cs with
  | nil => rfl
  | cons c cs =>
    simp only [risingFrom, Bool.and_eq_true, decide_eq_true_eq] at *
    exact ⟨h.trans hr.1, hr.2⟩

theorem risingFrom_insertCell (cs : List (Nat × α)) (i : Nat) (v : α) {lo : Nat} (hi : lo ≤ i)
    (hr : risingFrom lo cs = true) : risingFrom lo (insertCell cs i v) = true := by
  induction cs generalizing lo with
  | nil => simp [insertCell, risingFrom, hi]
  | cons c cs ih =>
    simp only [risingFrom, Bool.and_eq_true, decide_eq_true_eq] at hr
    simp only [insertCell]
    split
    · simp [risingFrom, hi, hr.2]; omega
    · split
      · next h => subst h; simp [risingFrom, hr.1, hr.2]
      · simp only [risingFrom, Bool.and_eq_true, decide_eq_true_eq]
        exact ⟨hr.1, ih (by omega) hr.2⟩

theorem risingFrom_eraseCell (cs : List (Nat × α)) (i : Nat) {lo : Nat}
    (hr : risingFrom lo cs = true) : risingFrom lo (eraseCell cs i) = true := by
  induction cs generalizing lo with
  | nil => rfl
  | cons c cs ih =>
    simp only [risingFrom, Bool.and_eq_true, decide_eq_true_eq] at hr
    simp only [eraseCell]
    split
    · exact risingFrom_mono _ (by omega) (ih hr.2)
    · simp only [risingFrom, Bool.and_eq_true, decide_eq_true_eq]
      exact ⟨hr.1, ih hr.2⟩

theorem mem_insertCell {cs : List (Nat × α)} {i : Nat} {v : α} {c : Nat × α}
    (h : c ∈ insertCell cs i v) : c = (i, v) ∨ c ∈ cs := by
  induction cs with
  | nil => simpa [insertCell] using h
  | cons d cs ih =>
    simp only [insertCell] at h
    split at h
    · simpa using h
    · split at h
      · simp only [List.mem_cons] at h ⊢; tauto
      · simp only [List.mem_cons] at h ⊢
        rcases h with h | h
        · exact .inr (.inl h)
        · exact (ih h).imp_right .inr

theorem mem_eraseCell {cs : List (Nat × α)} {i : Nat} {c : Nat × α}
    (h : c ∈ eraseCell cs i) : c ∈ cs := by
  induction cs with
  | nil => exact h
  | cons d cs ih =>
    simp only [eraseCell] at h
    split at h
    · exact List.mem_cons_of_mem _ (ih h)
    · simp only [List.mem_cons] at h ⊢; exact h.imp_right ih

/-! ### Consecutive reads -/

@[simp] theorem Memory.length_readFrom (m : Memory α) (i n : Nat) :
    (m.readFrom e i n).length = n := by
  induction n generalizing i with
  | zero => rfl
  | succ n ih => simp [Memory.readFrom, ih]

/-- MemRead, element by element. -/
theorem Memory.readFrom_eq_map (m : Memory α) (i n : Nat) :
    m.readFrom e i n = (List.range n).map fun j => m.get e (i + j) := by
  induction n generalizing i with
  | zero => rfl
  | succ n ih =>
    rw [List.range_succ_eq_map, Memory.readFrom, ih]
    simp [Function.comp_def, Nat.add_assoc, Nat.add_comm 1]

theorem Memory.getElem?_readFrom (m : Memory α) (i n j : Nat) :
    (m.readFrom e i n)[j]? = if j < n then some (m.get e (i + j)) else none := by
  rw [Memory.readFrom_eq_map]; split <;> simp_all

/-! ### The buffers after reset and after an error -/

@[simp] theorem Memory.empty_fill : (Memory.empty : Memory α).fill = .zero := rfl
@[simp] theorem Memory.empty_cells : (Memory.empty : Memory α).cells = [] := rfl
@[simp] theorem Memory.unspecified_fill (n : Nat) :
    (Memory.unspecified n : Memory α).fill = .drawn n := rfl
@[simp] theorem Memory.unspecified_cells (n : Nat) :
    (Memory.unspecified n : Memory α).cells = [] := rfl

@[simp] theorem Memory.get_empty (i : Nat) : (Memory.empty : Memory α).get e i = e.zero := rfl

@[simp] theorem Memory.get_unspecified (n i : Nat) :
    (Memory.unspecified n : Memory α).get e i = e.free n i := rfl

@[simp] theorem Memory.within_empty (n : Nat) : (Memory.empty : Memory α).within n = true := rfl

@[simp] theorem Memory.within_unspecified (k n : Nat) :
    (Memory.unspecified k : Memory α).within n = true := rfl

/-! ### One write -/

variable [DecidableEq α]

@[simp] theorem Memory.write_fill (m : Memory α) (i : Nat) (v : α) :
    (m.write e i v).fill = m.fill := by
  unfold Memory.write; split <;> rfl

/-- A read after a write: the value written at that index, the old value at every other. -/
theorem Memory.get_write (m : Memory α) (i j : Nat) (v : α) :
    (m.write e i v).get e j = if i = j then v else m.get e j := by
  have hu : (m.write e i v).unlisted e j = m.unlisted e j := by simp [Memory.unlisted]
  unfold Memory.get
  rw [hu]
  unfold Memory.write
  split
  · next h =>
    simp only [lookupCell_eraseCell]
    split
    · simp [Memory.unlisted, h.1, h.2]
    · rfl
  · simp only [lookupCell_insertCell]; split <;> rfl

@[simp] theorem Memory.get_write_same (m : Memory α) (i : Nat) (v : α) :
    (m.write e i v).get e i = v := by simp [Memory.get_write]

theorem Memory.get_write_other (m : Memory α) {i j : Nat} (v : α) (h : i ≠ j) :
    (m.write e i v).get e j = m.get e j := by simp [Memory.get_write, h]

/-- A write keeps the canonical form. -/
theorem Memory.wf_write (m : Memory α) (i : Nat) (v : α) (h : m.wf e = true) :
    (m.write e i v).wf e = true := by
  simp only [Memory.wf, Bool.and_eq_true, Bool.or_eq_true, decide_eq_true_eq, List.all_eq_true,
    Memory.write_fill] at *
  unfold Memory.write
  split
  · exact ⟨risingFrom_eraseCell _ _ h.1, h.2.imp_right fun h c hc => h c (mem_eraseCell hc)⟩
  · next hz =>
    refine ⟨risingFrom_insertCell _ _ _ (Nat.zero_le _) h.1, ?_⟩
    by_cases hf : m.fill = .zero
    · refine .inr fun c hc => ?_
      rcases mem_insertCell hc with rfl | hc
      · exact fun hv => hz ⟨hf, hv⟩
      · exact h.2.resolve_left (by simp [hf]) c hc
    · exact .inl hf

/-- A write inside the capacity keeps every listed index inside it. -/
theorem Memory.within_write (m : Memory α) (i : Nat) (v : α) {n : Nat} (hi : i < n)
    (h : m.within n = true) : (m.write e i v).within n = true := by
  simp only [Memory.within, List.all_eq_true, decide_eq_true_eq] at *
  unfold Memory.write
  split
  · exact fun c hc => h c (mem_eraseCell hc)
  · intro c hc
    rcases mem_insertCell hc with rfl | hc
    · exact hi
    · exact h c hc

/-! ### Consecutive writes -/

@[simp] theorem Memory.writeFrom_fill (m : Memory α) (i : Nat) (vs : List α) :
    (m.writeFrom e i vs).fill = m.fill := by
  induction vs generalizing m i with
  | nil => rfl
  | cons v vs ih => simp [Memory.writeFrom, ih]

/-- A read after MemWrite: the element of the sequence inside the range written, the old value
outside. -/
theorem Memory.get_writeFrom (m : Memory α) (i j : Nat) (vs : List α) :
    (m.writeFrom e i vs).get e j =
      if i ≤ j then (vs[j - i]?).getD (m.get e j) else m.get e j := by
  induction vs generalizing m i with
  | nil => simp [Memory.writeFrom]
  | cons v vs ih =>
    rw [Memory.writeFrom, ih, Memory.get_write]
    by_cases h : i = j
    · subst h; simp
    · by_cases h' : i + 1 ≤ j
      · have : j - i = (j - (i + 1)) + 1 := by omega
        simp [h, h', this, show i ≤ j by omega]
      · simp [h, h', show ¬ i ≤ j by omega]

theorem Memory.wf_writeFrom (m : Memory α) (i : Nat) (vs : List α) (h : m.wf e = true) :
    (m.writeFrom e i vs).wf e = true := by
  induction vs generalizing m i with
  | nil => exact h
  | cons v vs ih => exact ih _ _ (Memory.wf_write e m i v h)

theorem Memory.within_writeFrom (m : Memory α) (i : Nat) (vs : List α) {n : Nat}
    (hi : i + vs.length ≤ n) (h : m.within n = true) : (m.writeFrom e i vs).within n = true := by
  induction vs generalizing m i with
  | nil => exact h
  | cons v vs ih =>
    rw [List.length_cons] at hi
    exact ih _ _ (by omega) (Memory.within_write e m i v (by omega) h)

@[simp] theorem Memory.wf_empty : (Memory.empty : Memory α).wf e = true := by
  simp [Memory.wf, risingFrom]

@[simp] theorem Memory.wf_unspecified (n : Nat) : (Memory.unspecified n : Memory α).wf e = true := by
  simp [Memory.wf, risingFrom]

end Sys2Proof.Machine
end

