-- ==== Sys2Proof/Laws/State.lean ====
section
/-! SUPPORT. One lemma per field per named update of the state, so that no later proof unfolds a
record update. -/

namespace Sys2Proof.Machine

variable (s : State)

/-! ### `setFlags` -/

@[simp] theorem State.setFlags_params (m : Word) : (s.setFlags m).params = s.params := rfl
@[simp] theorem State.setFlags_status (m : Word) : (s.setFlags m).status = s.status := rfl
@[simp] theorem State.setFlags_result (m : Word) : (s.setFlags m).result = s.result := rfl
@[simp] theorem State.setFlags_valid (m : Word) : (s.setFlags m).valid = s.valid ||| m := rfl
@[simp] theorem State.setFlags_width (m : Word) : (s.setFlags m).width = s.width := rfl
@[simp] theorem State.setFlags_height (m : Word) : (s.setFlags m).height = s.height := rfl
@[simp] theorem State.setFlags_arg (m : Word) : (s.setFlags m).arg = s.arg := rfl
@[simp] theorem State.setFlags_vlen (m : Word) : (s.setFlags m).vlen = s.vlen := rfl
@[simp] theorem State.setFlags_bitcnt (m : Word) : (s.setFlags m).bitcnt = s.bitcnt := rfl
@[simp] theorem State.setFlags_nsym (m : Word) : (s.setFlags m).nsym = s.nsym := rfl
@[simp] theorem State.setFlags_root (m : Word) : (s.setFlags m).root = s.root := rfl
@[simp] theorem State.setFlags_ncode (m : Word) : (s.setFlags m).ncode = s.ncode := rfl
@[simp] theorem State.setFlags_slen (m : Word) : (s.setFlags m).slen = s.slen := rfl
@[simp] theorem State.setFlags_pix (m : Word) : (s.setFlags m).pix = s.pix := rfl
@[simp] theorem State.setFlags_plane (m : Word) : (s.setFlags m).plane = s.plane := rfl
@[simp] theorem State.setFlags_freq (m : Word) : (s.setFlags m).freq = s.freq := rfl
@[simp] theorem State.setFlags_node (m : Word) : (s.setFlags m).node = s.node := rfl
@[simp] theorem State.setFlags_code (m : Word) : (s.setFlags m).code = s.code := rfl
@[simp] theorem State.setFlags_strm (m : Word) : (s.setFlags m).strm = s.strm := rfl
@[simp] theorem State.setFlags_vb (m : Word) : (s.setFlags m).vb = s.vb := rfl
@[simp] theorem State.setFlags_draws (m : Word) : (s.setFlags m).draws = s.draws := rfl
@[simp] theorem State.setFlags_script (m : Word) : (s.setFlags m).script = s.script := rfl
@[simp] theorem State.setFlags_stopOnError (m : Word) :
    (s.setFlags m).stopOnError = s.stopOnError := rfl
@[simp] theorem State.setFlags_readings (m : Word) : (s.setFlags m).readings = s.readings := rfl

/-! ### `clearFlags` -/

@[simp] theorem State.clearFlags_params (m : Word) : (s.clearFlags m).params = s.params := rfl
@[simp] theorem State.clearFlags_status (m : Word) : (s.clearFlags m).status = s.status := rfl
@[simp] theorem State.clearFlags_result (m : Word) : (s.clearFlags m).result = s.result := rfl
@[simp] theorem State.clearFlags_valid (m : Word) :
    (s.clearFlags m).valid = s.valid &&& ~~~ m := rfl
@[simp] theorem State.clearFlags_width (m : Word) : (s.clearFlags m).width = s.width := rfl
@[simp] theorem State.clearFlags_height (m : Word) : (s.clearFlags m).height = s.height := rfl
@[simp] theorem State.clearFlags_arg (m : Word) : (s.clearFlags m).arg = s.arg := rfl
@[simp] theorem State.clearFlags_vlen (m : Word) : (s.clearFlags m).vlen = s.vlen := rfl
@[simp] theorem State.clearFlags_bitcnt (m : Word) : (s.clearFlags m).bitcnt = s.bitcnt := rfl
@[simp] theorem State.clearFlags_nsym (m : Word) : (s.clearFlags m).nsym = s.nsym := rfl
@[simp] theorem State.clearFlags_root (m : Word) : (s.clearFlags m).root = s.root := rfl
@[simp] theorem State.clearFlags_ncode (m : Word) : (s.clearFlags m).ncode = s.ncode := rfl
@[simp] theorem State.clearFlags_slen (m : Word) : (s.clearFlags m).slen = s.slen := rfl
@[simp] theorem State.clearFlags_pix (m : Word) : (s.clearFlags m).pix = s.pix := rfl
@[simp] theorem State.clearFlags_plane (m : Word) : (s.clearFlags m).plane = s.plane := rfl
@[simp] theorem State.clearFlags_freq (m : Word) : (s.clearFlags m).freq = s.freq := rfl
@[simp] theorem State.clearFlags_node (m : Word) : (s.clearFlags m).node = s.node := rfl
@[simp] theorem State.clearFlags_code (m : Word) : (s.clearFlags m).code = s.code := rfl
@[simp] theorem State.clearFlags_strm (m : Word) : (s.clearFlags m).strm = s.strm := rfl
@[simp] theorem State.clearFlags_vb (m : Word) : (s.clearFlags m).vb = s.vb := rfl
@[simp] theorem State.clearFlags_draws (m : Word) : (s.clearFlags m).draws = s.draws := rfl
@[simp] theorem State.clearFlags_script (m : Word) : (s.clearFlags m).script = s.script := rfl
@[simp] theorem State.clearFlags_stopOnError (m : Word) :
    (s.clearFlags m).stopOnError = s.stopOnError := rfl
@[simp] theorem State.clearFlags_readings (m : Word) : (s.clearFlags m).readings = s.readings := rfl

/-! ### `unspecify` -/

@[simp] theorem State.unspecify_params (d : Dest) :
    (s.unspecify d).params = s.params := by cases d <;> rfl
@[simp] theorem State.unspecify_status (d : Dest) :
    (s.unspecify d).status = s.status := by cases d <;> rfl
@[simp] theorem State.unspecify_result (d : Dest) :
    (s.unspecify d).result = s.result := by cases d <;> rfl
@[simp] theorem State.unspecify_valid (d : Dest) :
    (s.unspecify d).valid = s.valid := by cases d <;> rfl
@[simp] theorem State.unspecify_width (d : Dest) :
    (s.unspecify d).width = s.width := by cases d <;> rfl
@[simp] theorem State.unspecify_height (d : Dest) :
    (s.unspecify d).height = s.height := by cases d <;> rfl
@[simp] theorem State.unspecify_arg (d : Dest) : (s.unspecify d).arg = s.arg := by cases d <;> rfl
@[simp] theorem State.unspecify_vlen (d : Dest) :
    (s.unspecify d).vlen = s.vlen := by cases d <;> rfl
@[simp] theorem State.unspecify_bitcnt (d : Dest) :
    (s.unspecify d).bitcnt = s.bitcnt := by cases d <;> rfl
@[simp] theorem State.unspecify_nsym (d : Dest) :
    (s.unspecify d).nsym = s.nsym := by cases d <;> rfl
@[simp] theorem State.unspecify_root (d : Dest) :
    (s.unspecify d).root = s.root := by cases d <;> rfl
@[simp] theorem State.unspecify_ncode (d : Dest) :
    (s.unspecify d).ncode = s.ncode := by cases d <;> rfl
@[simp] theorem State.unspecify_slen (d : Dest) :
    (s.unspecify d).slen = s.slen := by cases d <;> rfl
@[simp] theorem State.unspecify_pix (d : Dest) :
    (s.unspecify d).pix = if d = .pix then .unspecified s.draws else s.pix := by cases d <;> rfl
@[simp] theorem State.unspecify_freq (d : Dest) :
    (s.unspecify d).freq = if d = .freq then .unspecified s.draws else s.freq := by cases d <;> rfl
@[simp] theorem State.unspecify_node (d : Dest) :
    (s.unspecify d).node = if d = .node then .unspecified s.draws else s.node := by cases d <;> rfl
@[simp] theorem State.unspecify_code (d : Dest) :
    (s.unspecify d).code = if d = .code then .unspecified s.draws else s.code := by cases d <;> rfl
@[simp] theorem State.unspecify_vb (d : Dest) :
    (s.unspecify d).vb = if d = .vb then .unspecified s.draws else s.vb := by cases d <;> rfl
@[simp] theorem State.unspecify_script (d : Dest) :
    (s.unspecify d).script = s.script := by cases d <;> rfl
@[simp] theorem State.unspecify_stopOnError (d : Dest) :
    (s.unspecify d).stopOnError = s.stopOnError := by cases d <;> rfl
@[simp] theorem State.unspecify_readings (d : Dest) :
    (s.unspecify d).readings = s.readings := by cases d <;> rfl

theorem State.unspecify_plane (d : Dest) (q : Fin 8) :
    (s.unspecify d).plane[q] =
      if d = .planes then .unspecified (s.draws + q.val)
      else if d = .plane q then .unspecified s.draws else s.plane[q] := by
  cases d with
  | plane p =>
    by_cases h : p = q
    · subst h; simp [State.unspecify]
    · simp [State.unspecify, h, Fin.val_inj]
  | _ => simp [State.unspecify]

theorem State.unspecify_strm (d : Dest) (q : Fin 8) :
    (s.unspecify d).strm[q] = if d = .strm q then .unspecified s.draws else s.strm[q] := by
  cases d with
  | strm p =>
    by_cases h : p = q
    · subst h; simp [State.unspecify]
    · simp [State.unspecify, h, Fin.val_inj]
  | _ => simp [State.unspecify]

/-- How many draw numbers a destination takes. -/
def Dest.draws : Dest → Nat
  | .none => 0
  | .planes => 8
  | _ => 1

@[simp] theorem State.unspecify_draws (d : Dest) : (s.unspecify d).draws = s.draws + d.draws := by
  cases d <;> rfl

/-! ### `raise` -/

@[simp] theorem State.raise_params (k : ErrKind) (info : Word) (d : Dest) :
    (s.raise k info d).params = s.params := by cases d <;> rfl
@[simp] theorem State.raise_status (k : ErrKind) (info : Word) (d : Dest) :
    (s.raise k info d).status = statusError k := rfl
@[simp] theorem State.raise_result (k : ErrKind) (info : Word) (d : Dest) :
    (s.raise k info d).result = info := rfl
@[simp] theorem State.raise_valid (k : ErrKind) (info : Word) (d : Dest) :
    (s.raise k info d).valid = s.valid &&& ~~~ d.flags := by cases d <;> rfl
@[simp] theorem State.raise_width (k : ErrKind) (info : Word) (d : Dest) :
    (s.raise k info d).width = s.width := by cases d <;> rfl
@[simp] theorem State.raise_height (k : ErrKind) (info : Word) (d : Dest) :
    (s.raise k info d).height = s.height := by cases d <;> rfl
@[simp] theorem State.raise_arg (k : ErrKind) (info : Word) (d : Dest) :
    (s.raise k info d).arg = s.arg := by cases d <;> rfl
@[simp] theorem State.raise_vlen (k : ErrKind) (info : Word) (d : Dest) :
    (s.raise k info d).vlen = s.vlen := by cases d <;> rfl
@[simp] theorem State.raise_bitcnt (k : ErrKind) (info : Word) (d : Dest) :
    (s.raise k info d).bitcnt = s.bitcnt := by cases d <;> rfl
@[simp] theorem State.raise_nsym (k : ErrKind) (info : Word) (d : Dest) :
    (s.raise k info d).nsym = s.nsym := by cases d <;> rfl
@[simp] theorem State.raise_root (k : ErrKind) (info : Word) (d : Dest) :
    (s.raise k info d).root = s.root := by cases d <;> rfl
@[simp] theorem State.raise_ncode (k : ErrKind) (info : Word) (d : Dest) :
    (s.raise k info d).ncode = s.ncode := by cases d <;> rfl
@[simp] theorem State.raise_slen (k : ErrKind) (info : Word) (d : Dest) :
    (s.raise k info d).slen = s.slen := by cases d <;> rfl
@[simp] theorem State.raise_pix (k : ErrKind) (info : Word) (d : Dest) :
    (s.raise k info d).pix = if d = .pix then .unspecified s.draws else s.pix := by cases d <;> rfl
@[simp] theorem State.raise_plane (k : ErrKind) (info : Word) (d : Dest) :
    (s.raise k info d).plane = (s.unspecify d).plane := rfl
@[simp] theorem State.raise_freq (k : ErrKind) (info : Word) (d : Dest) :
    (s.raise k info d).freq = if d = .freq then .unspecified s.draws else s.freq := by cases d <;> rfl
@[simp] theorem State.raise_node (k : ErrKind) (info : Word) (d : Dest) :
    (s.raise k info d).node = if d = .node then .unspecified s.draws else s.node := by cases d <;> rfl
@[simp] theorem State.raise_code (k : ErrKind) (info : Word) (d : Dest) :
    (s.raise k info d).code = if d = .code then .unspecified s.draws else s.code := by cases d <;> rfl
@[simp] theorem State.raise_strm (k : ErrKind) (info : Word) (d : Dest) :
    (s.raise k info d).strm = (s.unspecify d).strm := rfl
@[simp] theorem State.raise_vb (k : ErrKind) (info : Word) (d : Dest) :
    (s.raise k info d).vb = if d = .vb then .unspecified s.draws else s.vb := by cases d <;> rfl
@[simp] theorem State.raise_draws (k : ErrKind) (info : Word) (d : Dest) :
    (s.raise k info d).draws = s.draws + d.draws := by cases d <;> rfl
@[simp] theorem State.raise_script (k : ErrKind) (info : Word) (d : Dest) :
    (s.raise k info d).script = s.script := by cases d <;> rfl
@[simp] theorem State.raise_stopOnError (k : ErrKind) (info : Word) (d : Dest) :
    (s.raise k info d).stopOnError = s.stopOnError := by cases d <;> rfl
@[simp] theorem State.raise_readings (k : ErrKind) (info : Word) (d : Dest) :
    (s.raise k info d).readings = s.readings := by cases d <;> rfl

/-! ### `finish` -/

@[simp] theorem State.finish_params (r : Word) (d : Dest) : (s.finish r d).params = s.params := rfl
@[simp] theorem State.finish_status (r : Word) (d : Dest) :
    (s.finish r d).status = statusSuccess := rfl
@[simp] theorem State.finish_result (r : Word) (d : Dest) : (s.finish r d).result = r := rfl
@[simp] theorem State.finish_valid (r : Word) (d : Dest) :
    (s.finish r d).valid = s.valid ||| d.flags := rfl
@[simp] theorem State.finish_width (r : Word) (d : Dest) : (s.finish r d).width = s.width := rfl
@[simp] theorem State.finish_height (r : Word) (d : Dest) : (s.finish r d).height = s.height := rfl
@[simp] theorem State.finish_arg (r : Word) (d : Dest) : (s.finish r d).arg = s.arg := rfl
@[simp] theorem State.finish_vlen (r : Word) (d : Dest) : (s.finish r d).vlen = s.vlen := rfl
@[simp] theorem State.finish_bitcnt (r : Word) (d : Dest) : (s.finish r d).bitcnt = s.bitcnt := rfl
@[simp] theorem State.finish_nsym (r : Word) (d : Dest) : (s.finish r d).nsym = s.nsym := rfl
@[simp] theorem State.finish_root (r : Word) (d : Dest) : (s.finish r d).root = s.root := rfl
@[simp] theorem State.finish_ncode (r : Word) (d : Dest) : (s.finish r d).ncode = s.ncode := rfl
@[simp] theorem State.finish_slen (r : Word) (d : Dest) : (s.finish r d).slen = s.slen := rfl
@[simp] theorem State.finish_pix (r : Word) (d : Dest) : (s.finish r d).pix = s.pix := rfl
@[simp] theorem State.finish_plane (r : Word) (d : Dest) : (s.finish r d).plane = s.plane := rfl
@[simp] theorem State.finish_freq (r : Word) (d : Dest) : (s.finish r d).freq = s.freq := rfl
@[simp] theorem State.finish_node (r : Word) (d : Dest) : (s.finish r d).node = s.node := rfl
@[simp] theorem State.finish_code (r : Word) (d : Dest) : (s.finish r d).code = s.code := rfl
@[simp] theorem State.finish_strm (r : Word) (d : Dest) : (s.finish r d).strm = s.strm := rfl
@[simp] theorem State.finish_vb (r : Word) (d : Dest) : (s.finish r d).vb = s.vb := rfl
@[simp] theorem State.finish_draws (r : Word) (d : Dest) : (s.finish r d).draws = s.draws := rfl
@[simp] theorem State.finish_script (r : Word) (d : Dest) : (s.finish r d).script = s.script := rfl
@[simp] theorem State.finish_stopOnError (r : Word) (d : Dest) :
    (s.finish r d).stopOnError = s.stopOnError := rfl
@[simp] theorem State.finish_readings (r : Word) (d : Dest) :
    (s.finish r d).readings = s.readings := rfl

/-! ### `begin` -/

@[simp] theorem State.begin_params : (s.begin).params = s.params := rfl
@[simp] theorem State.begin_status : (s.begin).status = statusRunning := rfl
@[simp] theorem State.begin_result : (s.begin).result = s.result := rfl
@[simp] theorem State.begin_valid : (s.begin).valid = s.valid := rfl
@[simp] theorem State.begin_width : (s.begin).width = s.width := rfl
@[simp] theorem State.begin_height : (s.begin).height = s.height := rfl
@[simp] theorem State.begin_arg : (s.begin).arg = s.arg := rfl
@[simp] theorem State.begin_vlen : (s.begin).vlen = s.vlen := rfl
@[simp] theorem State.begin_bitcnt : (s.begin).bitcnt = s.bitcnt := rfl
@[simp] theorem State.begin_nsym : (s.begin).nsym = s.nsym := rfl
@[simp] theorem State.begin_root : (s.begin).root = s.root := rfl
@[simp] theorem State.begin_ncode : (s.begin).ncode = s.ncode := rfl
@[simp] theorem State.begin_slen : (s.begin).slen = s.slen := rfl
@[simp] theorem State.begin_pix : (s.begin).pix = s.pix := rfl
@[simp] theorem State.begin_plane : (s.begin).plane = s.plane := rfl
@[simp] theorem State.begin_freq : (s.begin).freq = s.freq := rfl
@[simp] theorem State.begin_node : (s.begin).node = s.node := rfl
@[simp] theorem State.begin_code : (s.begin).code = s.code := rfl
@[simp] theorem State.begin_strm : (s.begin).strm = s.strm := rfl
@[simp] theorem State.begin_vb : (s.begin).vb = s.vb := rfl
@[simp] theorem State.begin_draws : (s.begin).draws = s.draws := rfl
@[simp] theorem State.begin_script : (s.begin).script = s.script := rfl
@[simp] theorem State.begin_stopOnError : (s.begin).stopOnError = s.stopOnError := rfl
@[simp] theorem State.begin_readings : (s.begin).readings = s.readings := rfl

/-! ### `toReset` -/

@[simp] theorem State.toReset_params : (s.toReset).params = s.params := rfl
@[simp] theorem State.toReset_status : (s.toReset).status = 0 := rfl
@[simp] theorem State.toReset_result : (s.toReset).result = 0 := rfl
@[simp] theorem State.toReset_valid : (s.toReset).valid = 0 := rfl
@[simp] theorem State.toReset_width : (s.toReset).width = 0 := rfl
@[simp] theorem State.toReset_height : (s.toReset).height = 0 := rfl
@[simp] theorem State.toReset_arg : (s.toReset).arg = 0 := rfl
@[simp] theorem State.toReset_vlen : (s.toReset).vlen = 0 := rfl
@[simp] theorem State.toReset_bitcnt : (s.toReset).bitcnt = 0 := rfl
@[simp] theorem State.toReset_nsym : (s.toReset).nsym = 0 := rfl
@[simp] theorem State.toReset_root : (s.toReset).root = 0 := rfl
@[simp] theorem State.toReset_ncode : (s.toReset).ncode = 0 := rfl
@[simp] theorem State.toReset_slen : (s.toReset).slen = Vector.replicate 8 0 := rfl
@[simp] theorem State.toReset_pix : (s.toReset).pix = .empty := rfl
@[simp] theorem State.toReset_plane : (s.toReset).plane = Vector.replicate 8 .empty := rfl
@[simp] theorem State.toReset_freq : (s.toReset).freq = .empty := rfl
@[simp] theorem State.toReset_node : (s.toReset).node = .empty := rfl
@[simp] theorem State.toReset_code : (s.toReset).code = .empty := rfl
@[simp] theorem State.toReset_strm : (s.toReset).strm = Vector.replicate 8 .empty := rfl
@[simp] theorem State.toReset_vb : (s.toReset).vb = .empty := rfl
@[simp] theorem State.toReset_draws : (s.toReset).draws = s.draws := rfl
@[simp] theorem State.toReset_script : (s.toReset).script = s.script := rfl
@[simp] theorem State.toReset_stopOnError : (s.toReset).stopOnError = s.stopOnError := rfl
@[simp] theorem State.toReset_readings : (s.toReset).readings = s.readings := rfl

/-! ### `resetWith` -/

@[simp] theorem State.resetWith_params (P : Config.Params) : (State.resetWith P).params = P := rfl
@[simp] theorem State.resetWith_status (P : Config.Params) : (State.resetWith P).status = 0 := rfl
@[simp] theorem State.resetWith_result (P : Config.Params) : (State.resetWith P).result = 0 := rfl
@[simp] theorem State.resetWith_valid (P : Config.Params) : (State.resetWith P).valid = 0 := rfl
@[simp] theorem State.resetWith_width (P : Config.Params) : (State.resetWith P).width = 0 := rfl
@[simp] theorem State.resetWith_height (P : Config.Params) : (State.resetWith P).height = 0 := rfl
@[simp] theorem State.resetWith_arg (P : Config.Params) : (State.resetWith P).arg = 0 := rfl
@[simp] theorem State.resetWith_vlen (P : Config.Params) : (State.resetWith P).vlen = 0 := rfl
@[simp] theorem State.resetWith_bitcnt (P : Config.Params) : (State.resetWith P).bitcnt = 0 := rfl
@[simp] theorem State.resetWith_nsym (P : Config.Params) : (State.resetWith P).nsym = 0 := rfl
@[simp] theorem State.resetWith_root (P : Config.Params) : (State.resetWith P).root = 0 := rfl
@[simp] theorem State.resetWith_ncode (P : Config.Params) : (State.resetWith P).ncode = 0 := rfl
@[simp] theorem State.resetWith_slen (P : Config.Params) : (State.resetWith P).slen = Vector.replicate 8 0 := rfl
@[simp] theorem State.resetWith_pix (P : Config.Params) : (State.resetWith P).pix = .empty := rfl
@[simp] theorem State.resetWith_plane (P : Config.Params) : (State.resetWith P).plane = Vector.replicate 8 .empty := rfl
@[simp] theorem State.resetWith_freq (P : Config.Params) : (State.resetWith P).freq = .empty := rfl
@[simp] theorem State.resetWith_node (P : Config.Params) : (State.resetWith P).node = .empty := rfl
@[simp] theorem State.resetWith_code (P : Config.Params) : (State.resetWith P).code = .empty := rfl
@[simp] theorem State.resetWith_strm (P : Config.Params) : (State.resetWith P).strm = Vector.replicate 8 .empty := rfl
@[simp] theorem State.resetWith_vb (P : Config.Params) : (State.resetWith P).vb = .empty := rfl
@[simp] theorem State.resetWith_draws (P : Config.Params) : (State.resetWith P).draws = 0 := rfl
@[simp] theorem State.resetWith_script (P : Config.Params) : (State.resetWith P).script = [] := rfl
@[simp] theorem State.resetWith_stopOnError (P : Config.Params) : (State.resetWith P).stopOnError = false := rfl
@[simp] theorem State.resetWith_readings (P : Config.Params) : (State.resetWith P).readings = [] := rfl

/-! ### `putPixels` -/

@[simp] theorem State.putPixels_params (vs : List Byte) : (s.putPixels vs).params = s.params := rfl
@[simp] theorem State.putPixels_status (vs : List Byte) : (s.putPixels vs).status = s.status := rfl
@[simp] theorem State.putPixels_result (vs : List Byte) : (s.putPixels vs).result = s.result := rfl
@[simp] theorem State.putPixels_valid (vs : List Byte) : (s.putPixels vs).valid = s.valid := rfl
@[simp] theorem State.putPixels_width (vs : List Byte) : (s.putPixels vs).width = s.width := rfl
@[simp] theorem State.putPixels_height (vs : List Byte) : (s.putPixels vs).height = s.height := rfl
@[simp] theorem State.putPixels_arg (vs : List Byte) : (s.putPixels vs).arg = s.arg := rfl
@[simp] theorem State.putPixels_vlen (vs : List Byte) : (s.putPixels vs).vlen = s.vlen := rfl
@[simp] theorem State.putPixels_bitcnt (vs : List Byte) : (s.putPixels vs).bitcnt = s.bitcnt := rfl
@[simp] theorem State.putPixels_nsym (vs : List Byte) : (s.putPixels vs).nsym = s.nsym := rfl
@[simp] theorem State.putPixels_root (vs : List Byte) : (s.putPixels vs).root = s.root := rfl
@[simp] theorem State.putPixels_ncode (vs : List Byte) : (s.putPixels vs).ncode = s.ncode := rfl
@[simp] theorem State.putPixels_slen (vs : List Byte) : (s.putPixels vs).slen = s.slen := rfl
@[simp] theorem State.putPixels_pix (vs : List Byte) :
    (s.putPixels vs).pix = s.pix.writeFrom Config.byteElem 0 vs := rfl
@[simp] theorem State.putPixels_plane (vs : List Byte) : (s.putPixels vs).plane = s.plane := rfl
@[simp] theorem State.putPixels_freq (vs : List Byte) : (s.putPixels vs).freq = s.freq := rfl
@[simp] theorem State.putPixels_node (vs : List Byte) : (s.putPixels vs).node = s.node := rfl
@[simp] theorem State.putPixels_code (vs : List Byte) : (s.putPixels vs).code = s.code := rfl
@[simp] theorem State.putPixels_strm (vs : List Byte) : (s.putPixels vs).strm = s.strm := rfl
@[simp] theorem State.putPixels_vb (vs : List Byte) : (s.putPixels vs).vb = s.vb := rfl
@[simp] theorem State.putPixels_draws (vs : List Byte) : (s.putPixels vs).draws = s.draws := rfl
@[simp] theorem State.putPixels_script (vs : List Byte) : (s.putPixels vs).script = s.script := rfl
@[simp] theorem State.putPixels_stopOnError (vs : List Byte) :
    (s.putPixels vs).stopOnError = s.stopOnError := rfl
@[simp] theorem State.putPixels_readings (vs : List Byte) :
    (s.putPixels vs).readings = s.readings := rfl

/-! ### `putPlane` -/

@[simp] theorem State.putPlane_params (p : Fin 8) (vs : List Bool) :
    (s.putPlane p vs).params = s.params := rfl
@[simp] theorem State.putPlane_status (p : Fin 8) (vs : List Bool) :
    (s.putPlane p vs).status = s.status := rfl
@[simp] theorem State.putPlane_result (p : Fin 8) (vs : List Bool) :
    (s.putPlane p vs).result = s.result := rfl
@[simp] theorem State.putPlane_valid (p : Fin 8) (vs : List Bool) :
    (s.putPlane p vs).valid = s.valid := rfl
@[simp] theorem State.putPlane_width (p : Fin 8) (vs : List Bool) :
    (s.putPlane p vs).width = s.width := rfl
@[simp] theorem State.putPlane_height (p : Fin 8) (vs : List Bool) :
    (s.putPlane p vs).height = s.height := rfl
@[simp] theorem State.putPlane_arg (p : Fin 8) (vs : List Bool) :
    (s.putPlane p vs).arg = s.arg := rfl
@[simp] theorem State.putPlane_vlen (p : Fin 8) (vs : List Bool) :
    (s.putPlane p vs).vlen = s.vlen := rfl
@[simp] theorem State.putPlane_bitcnt (p : Fin 8) (vs : List Bool) :
    (s.putPlane p vs).bitcnt = s.bitcnt := rfl
@[simp] theorem State.putPlane_nsym (p : Fin 8) (vs : List Bool) :
    (s.putPlane p vs).nsym = s.nsym := rfl
@[simp] theorem State.putPlane_root (p : Fin 8) (vs : List Bool) :
    (s.putPlane p vs).root = s.root := rfl
@[simp] theorem State.putPlane_ncode (p : Fin 8) (vs : List Bool) :
    (s.putPlane p vs).ncode = s.ncode := rfl
@[simp] theorem State.putPlane_slen (p : Fin 8) (vs : List Bool) :
    (s.putPlane p vs).slen = s.slen := rfl
@[simp] theorem State.putPlane_pix (p : Fin 8) (vs : List Bool) :
    (s.putPlane p vs).pix = s.pix := rfl
@[simp] theorem State.putPlane_plane (p : Fin 8) (vs : List Bool) :
    (s.putPlane p vs).plane = s.plane.set p.val (s.plane[p].writeFrom Config.bitElem 0 vs) p.isLt := rfl
@[simp] theorem State.putPlane_freq (p : Fin 8) (vs : List Bool) :
    (s.putPlane p vs).freq = s.freq := rfl
@[simp] theorem State.putPlane_node (p : Fin 8) (vs : List Bool) :
    (s.putPlane p vs).node = s.node := rfl
@[simp] theorem State.putPlane_code (p : Fin 8) (vs : List Bool) :
    (s.putPlane p vs).code = s.code := rfl
@[simp] theorem State.putPlane_strm (p : Fin 8) (vs : List Bool) :
    (s.putPlane p vs).strm = s.strm := rfl
@[simp] theorem State.putPlane_vb (p : Fin 8) (vs : List Bool) : (s.putPlane p vs).vb = s.vb := rfl
@[simp] theorem State.putPlane_draws (p : Fin 8) (vs : List Bool) :
    (s.putPlane p vs).draws = s.draws := rfl
@[simp] theorem State.putPlane_script (p : Fin 8) (vs : List Bool) :
    (s.putPlane p vs).script = s.script := rfl
@[simp] theorem State.putPlane_stopOnError (p : Fin 8) (vs : List Bool) :
    (s.putPlane p vs).stopOnError = s.stopOnError := rfl
@[simp] theorem State.putPlane_readings (p : Fin 8) (vs : List Bool) :
    (s.putPlane p vs).readings = s.readings := rfl

/-! ### `putStream` -/

@[simp] theorem State.putStream_params (p : Fin 8) (vs : List Byte) :
    (s.putStream p vs).params = s.params := rfl
@[simp] theorem State.putStream_status (p : Fin 8) (vs : List Byte) :
    (s.putStream p vs).status = s.status := rfl
@[simp] theorem State.putStream_result (p : Fin 8) (vs : List Byte) :
    (s.putStream p vs).result = s.result := rfl
@[simp] theorem State.putStream_valid (p : Fin 8) (vs : List Byte) :
    (s.putStream p vs).valid = s.valid := rfl
@[simp] theorem State.putStream_width (p : Fin 8) (vs : List Byte) :
    (s.putStream p vs).width = s.width := rfl
@[simp] theorem State.putStream_height (p : Fin 8) (vs : List Byte) :
    (s.putStream p vs).height = s.height := rfl
@[simp] theorem State.putStream_arg (p : Fin 8) (vs : List Byte) :
    (s.putStream p vs).arg = s.arg := rfl
@[simp] theorem State.putStream_vlen (p : Fin 8) (vs : List Byte) :
    (s.putStream p vs).vlen = s.vlen := rfl
@[simp] theorem State.putStream_bitcnt (p : Fin 8) (vs : List Byte) :
    (s.putStream p vs).bitcnt = s.bitcnt := rfl
@[simp] theorem State.putStream_nsym (p : Fin 8) (vs : List Byte) :
    (s.putStream p vs).nsym = s.nsym := rfl
@[simp] theorem State.putStream_root (p : Fin 8) (vs : List Byte) :
    (s.putStream p vs).root = s.root := rfl
@[simp] theorem State.putStream_ncode (p : Fin 8) (vs : List Byte) :
    (s.putStream p vs).ncode = s.ncode := rfl
@[simp] theorem State.putStream_slen (p : Fin 8) (vs : List Byte) :
    (s.putStream p vs).slen = s.slen.set p.val (toWord vs.length) p.isLt := rfl
@[simp] theorem State.putStream_pix (p : Fin 8) (vs : List Byte) :
    (s.putStream p vs).pix = s.pix := rfl
@[simp] theorem State.putStream_plane (p : Fin 8) (vs : List Byte) :
    (s.putStream p vs).plane = s.plane := rfl
@[simp] theorem State.putStream_freq (p : Fin 8) (vs : List Byte) :
    (s.putStream p vs).freq = s.freq := rfl
@[simp] theorem State.putStream_node (p : Fin 8) (vs : List Byte) :
    (s.putStream p vs).node = s.node := rfl
@[simp] theorem State.putStream_code (p : Fin 8) (vs : List Byte) :
    (s.putStream p vs).code = s.code := rfl
@[simp] theorem State.putStream_strm (p : Fin 8) (vs : List Byte) :
    (s.putStream p vs).strm = s.strm.set p.val (s.strm[p].writeFrom Config.byteElem 0 vs) p.isLt := rfl
@[simp] theorem State.putStream_vb (p : Fin 8) (vs : List Byte) :
    (s.putStream p vs).vb = s.vb := rfl
@[simp] theorem State.putStream_draws (p : Fin 8) (vs : List Byte) :
    (s.putStream p vs).draws = s.draws := rfl
@[simp] theorem State.putStream_script (p : Fin 8) (vs : List Byte) :
    (s.putStream p vs).script = s.script := rfl
@[simp] theorem State.putStream_stopOnError (p : Fin 8) (vs : List Byte) :
    (s.putStream p vs).stopOnError = s.stopOnError := rfl
@[simp] theorem State.putStream_readings (p : Fin 8) (vs : List Byte) :
    (s.putStream p vs).readings = s.readings := rfl

/-! ### `afterCommand` -/

@[simp] theorem State.afterCommand_params :
    (s.afterCommand).params = s.params := by unfold State.afterCommand; split <;> rfl
@[simp] theorem State.afterCommand_status :
    (s.afterCommand).status = s.status := by unfold State.afterCommand; split <;> rfl
@[simp] theorem State.afterCommand_result :
    (s.afterCommand).result = s.result := by unfold State.afterCommand; split <;> rfl
@[simp] theorem State.afterCommand_valid :
    (s.afterCommand).valid = s.valid := by unfold State.afterCommand; split <;> rfl
@[simp] theorem State.afterCommand_width :
    (s.afterCommand).width = s.width := by unfold State.afterCommand; split <;> rfl
@[simp] theorem State.afterCommand_height :
    (s.afterCommand).height = s.height := by unfold State.afterCommand; split <;> rfl
@[simp] theorem State.afterCommand_arg :
    (s.afterCommand).arg = s.arg := by unfold State.afterCommand; split <;> rfl
@[simp] theorem State.afterCommand_vlen :
    (s.afterCommand).vlen = s.vlen := by unfold State.afterCommand; split <;> rfl
@[simp] theorem State.afterCommand_bitcnt :
    (s.afterCommand).bitcnt = s.bitcnt := by unfold State.afterCommand; split <;> rfl
@[simp] theorem State.afterCommand_nsym :
    (s.afterCommand).nsym = s.nsym := by unfold State.afterCommand; split <;> rfl
@[simp] theorem State.afterCommand_root :
    (s.afterCommand).root = s.root := by unfold State.afterCommand; split <;> rfl
@[simp] theorem State.afterCommand_ncode :
    (s.afterCommand).ncode = s.ncode := by unfold State.afterCommand; split <;> rfl
@[simp] theorem State.afterCommand_slen :
    (s.afterCommand).slen = s.slen := by unfold State.afterCommand; split <;> rfl
@[simp] theorem State.afterCommand_pix :
    (s.afterCommand).pix = s.pix := by unfold State.afterCommand; split <;> rfl
@[simp] theorem State.afterCommand_plane :
    (s.afterCommand).plane = s.plane := by unfold State.afterCommand; split <;> rfl
@[simp] theorem State.afterCommand_freq :
    (s.afterCommand).freq = s.freq := by unfold State.afterCommand; split <;> rfl
@[simp] theorem State.afterCommand_node :
    (s.afterCommand).node = s.node := by unfold State.afterCommand; split <;> rfl
@[simp] theorem State.afterCommand_code :
    (s.afterCommand).code = s.code := by unfold State.afterCommand; split <;> rfl
@[simp] theorem State.afterCommand_strm :
    (s.afterCommand).strm = s.strm := by unfold State.afterCommand; split <;> rfl
@[simp] theorem State.afterCommand_vb :
    (s.afterCommand).vb = s.vb := by unfold State.afterCommand; split <;> rfl
@[simp] theorem State.afterCommand_draws :
    (s.afterCommand).draws = s.draws := by unfold State.afterCommand; split <;> rfl
@[simp] theorem State.afterCommand_stopOnError :
    (s.afterCommand).stopOnError = s.stopOnError := by unfold State.afterCommand; split <;> rfl
@[simp] theorem State.afterCommand_readings :
    (s.afterCommand).readings = s.readings := by unfold State.afterCommand; split <;> rfl

end Sys2Proof.Machine
end

