-- ==== Sys2Proof/Laws/Ops.lean ====
section
/-! SUPPORT. What each shared operation can do, said once: the end of an operation, the checks, the
elements of the buffers. -/

namespace Sys2Proof.Machine

open Sys2Proof.Config

variable (s : State)

/-! ### The end of an operation -/

@[simp] theorem conclude_ok (d : Dest) (t : State) : conclude d s (.ok t) = .next t := rfl

@[simp] theorem conclude_error (d : Dest) (k : ErrKind) (info : Word) :
    conclude d s (.error ⟨k, info⟩) = .next (s.raise k info d) := rfl

/-- An operation answers a next state: its body's, or the raise of its body's error. -/
theorem conclude_cases (d : Dest) (body : Except OpError State) :
    (∃ t, body = .ok t ∧ conclude d s body = .next t) ∨
    (∃ k info, body = .error ⟨k, info⟩ ∧ conclude d s body = .next (s.raise k info d)) := by
  cases body with
  | ok t => exact .inl ⟨t, rfl, rfl⟩
  | error e => exact .inr ⟨e.kind, e.info, rfl, rfl⟩

@[simp] theorem onNext_next (f : State → State) : onNext f (.next s) = .next (f s) := rfl

/-! ### The checks -/

theorem dimensionErrors_ne_zero_iff :
    dimensionErrors s ≠ 0 ↔ s.width.toInt ≤ 0 ∨ s.height.toInt ≤ 0 := by
  unfold dimensionErrors
  by_cases h1 : s.width.toInt ≤ 0 <;> by_cases h2 : s.height.toInt ≤ 0 <;> simp [h1, h2]

theorem gridCheck_ok_iff (n : Nat) : gridCheck s = .ok n ↔ GridOk s n := by
  have hw := dimensionErrors_ne_zero_iff s
  unfold gridCheck GridOk
  by_cases h : dimensionErrors s ≠ 0
  · simp only [h, ne_eq, not_false_eq_true, if_true, reduceCtorEq, false_iff]
    rw [hw] at h; omega
  · have hp := h
    rw [hw] at hp
    push Not at hp
    have h0 : 0 ≤ s.width.toInt * s.height.toInt := Int.mul_nonneg (by omega) (by omega)
    have hn : ((pixelCount s : Nat) : Int) = s.width.toInt * s.height.toInt := by
      unfold pixelCount; omega
    rw [if_neg h]
    split
    · simp only [reduceCtorEq, false_iff]; omega
    · simp only [Except.ok.injEq]; constructor
      · rintro rfl; exact ⟨by omega, by omega, hn, by omega⟩
      · rintro ⟨-, -, h3, -⟩; omega

/-- When both dimensions are positive, pixelCount is their exact product. -/
theorem GridOk.pixelCount {s : State} {n : Nat} (h : GridOk s n) : pixelCount s = n := by
  unfold Machine.pixelCount; omega

theorem GridOk.pos {s : State} {n : Nat} (h : GridOk s n) : 1 ≤ n := by
  have := Int.mul_pos h.1 h.2.1; omega

/-- GridCheck in full: n, or one of its two errors. -/
theorem gridCheck_cases :
    (∃ n, GridOk s n ∧ gridCheck s = .ok n) ∨
    ((s.width.toInt ≤ 0 ∨ s.height.toInt ≤ 0) ∧
      gridCheck s = .error ⟨.invalidDimensions, dimensionErrors s⟩) ∨
    ((s.params.maxPix : Int) < s.width.toInt * s.height.toInt ∧ 0 < s.width.toInt ∧
      0 < s.height.toInt ∧
      gridCheck s = .error ⟨.capacityExceeded, toWord (min (pixelCount s) (2 ^ 32 - 1))⟩) := by
  by_cases h1 : s.width.toInt ≤ 0 ∨ s.height.toInt ≤ 0
  · refine .inr (.inl ⟨h1, ?_⟩)
    unfold gridCheck
    rw [if_pos ((dimensionErrors_ne_zero_iff s).2 h1)]
  · push Not at h1
    have hz : dimensionErrors s = 0 := by
      simp [dimensionErrors, show ¬ s.width.toInt ≤ 0 by omega, show ¬ s.height.toInt ≤ 0 by omega]
    have h0 : 0 ≤ s.width.toInt * s.height.toInt := Int.mul_nonneg (by omega) (by omega)
    have hn : ((pixelCount s : Nat) : Int) = s.width.toInt * s.height.toInt := by
      unfold pixelCount; omega
    by_cases h2 : pixelCount s ≤ s.params.maxPix
    · refine .inl ⟨pixelCount s, ⟨by omega, by omega, hn, h2⟩, ?_⟩
      simp [gridCheck, hz, show ¬ pixelCount s > s.params.maxPix by omega]
    · refine .inr (.inr ⟨by omega, by omega, by omega, ?_⟩)
      simp [gridCheck, hz, show pixelCount s > s.params.maxPix by omega]

/-- The flags of a mask that are 0 are none exactly when all of them are 1. -/
theorem missingFlags_eq_zero_iff (m : Word) : s.missingFlags m = 0 ↔ FlagsSet m s := by
  unfold State.missingFlags FlagsSet
  constructor <;> intro h <;> ext i hi <;> have := congrArg (BitVec.getLsbD · i) h <;>
    simp [hi] at this ⊢ <;> cases h1 : m[i] <;> cases h2 : s.valid[i] <;> simp_all

theorem requireFlags_ok_iff (m : Word) : requireFlags m s = .ok () ↔ FlagsSet m s := by
  rw [← missingFlags_eq_zero_iff]; unfold requireFlags; split <;> simp_all

theorem requireFlags_error {m : Word} (h : ¬ FlagsSet m s) :
    requireFlags m s = .error ⟨.sourceInvalid, m &&& ~~~ s.valid⟩ := by
  rw [← missingFlags_eq_zero_iff] at h; unfold requireFlags; rw [if_pos h]; rfl

theorem streamFits_ok_iff (p : Fin 8) :
    streamFits p s = .ok () ↔ s.slen[p].toNat ≤ s.params.maxStrm := by
  unfold streamFits
  split
  · exact ⟨(by intro h; cases h), fun h => absurd h (by omega)⟩
  · exact ⟨fun _ => by omega, fun _ => rfl⟩

theorem streamFits_error {p : Fin 8} (h : s.params.maxStrm < s.slen[p].toNat) :
    streamFits p s = .error ⟨.capacityExceeded, s.slen[p]⟩ := by
  unfold streamFits; rw [if_pos h]

/-! ### The elements of the buffers -/

@[simp] theorem pixels_eq_image (n : Nat) : s.pixels n = s.image n := by
  simp only [State.pixels, State.image, Memory.readFrom_eq_map, Nat.zero_add]; rfl

@[simp] theorem planeBits_eq_planeImage (p : Fin 8) (n : Nat) :
    s.planeBits p n = s.planeImage p n := by
  simp only [State.planeBits, State.planeImage, Memory.readFrom_eq_map, Nat.zero_add]; rfl

@[simp] theorem strmBytes_eq_stream (p : Fin 8) (n : Nat) : s.strmBytes p n = s.stream p n := by
  simp only [State.strmBytes, State.stream, Memory.readFrom_eq_map, Nat.zero_add]; rfl

@[simp] theorem length_image (n : Nat) : (s.image n).length = n := by simp [State.image]
@[simp] theorem length_planeImage (p : Fin 8) (n : Nat) : (s.planeImage p n).length = n := by
  simp [State.planeImage]
@[simp] theorem length_stream (p : Fin 8) (n : Nat) : (s.stream p n).length = n := by
  simp [State.stream]

/-- A function that agrees with a list on its indices lists it. -/
theorem map_range_eq_of_getElem? {α : Type} {f : Nat → α} {vs : List α}
    (h : ∀ j (_ : j < vs.length), f j = vs[j]) : (List.range vs.length).map f = vs := by
  apply List.ext_getElem (by simp)
  intro j h1 h2; simp [h j h2]

theorem pixAt_putPixels (vs : List Byte) (j : Nat) :
    (s.putPixels vs).pixAt j = (vs[j]?).getD (s.pixAt j) := by
  simp [State.pixAt, Memory.get_writeFrom]

theorem planeAt_putPlane (p q : Fin 8) (vs : List Bool) (j : Nat) :
    (s.putPlane p vs).planeAt q j =
      if p = q then (vs[j]?).getD (s.planeAt q j) else s.planeAt q j := by
  by_cases h : p = q
  · subst h; simp [State.planeAt, State.putPlane, Memory.get_writeFrom]
  · simp [State.planeAt, State.putPlane, h, Fin.val_inj]

theorem strmAt_putStream (p q : Fin 8) (vs : List Byte) (j : Nat) :
    (s.putStream p vs).strmAt q j =
      if p = q then (vs[j]?).getD (s.strmAt q j) else s.strmAt q j := by
  by_cases h : p = q
  · subst h; simp [State.strmAt, State.putStream, Memory.get_writeFrom]
  · simp [State.strmAt, State.putStream, h, Fin.val_inj]

theorem slen_putStream (p q : Fin 8) (vs : List Byte) :
    (s.putStream p vs).slen[q] = if p = q then toWord vs.length else s.slen[q] := by
  by_cases h : p = q
  · subst h; simp [State.putStream]
  · simp [State.putStream, h, Fin.val_inj]

/-! ### The canonical form, for what is built of several writes -/

theorem wf_foldl_write (codes : List (Byte × List Bool)) {m : Memory CodeRec}
    (h : m.wf codeElem = true) :
    (codes.foldl (fun m c => m.write codeElem c.1.toNat (codeRec c.2)) m).wf codeElem = true := by
  induction codes generalizing m with
  | nil => exact h
  | cons c cs ih => exact ih (Memory.wf_write _ _ _ _ h)

theorem wf_codeTable (codes : List (Byte × List Bool)) : (codeTable codes).wf codeElem = true :=
  wf_foldl_write codes (Memory.wf_empty _)

/-- Every buffer of the reset state is in canonical form. -/
theorem wf_resetWith (P : Params) (p : Fin 8) :
    (State.resetWith P).pix.wf byteElem = true ∧ (State.resetWith P).plane[p].wf bitElem = true ∧
    (State.resetWith P).freq.wf freqElem = true ∧ (State.resetWith P).node.wf nodeElem = true ∧
    (State.resetWith P).code.wf codeElem = true ∧ (State.resetWith P).strm[p].wf byteElem = true ∧
    (State.resetWith P).vb.wf byteElem = true := by
  simp [State.resetWith]

theorem toWord_toNat {n : Nat} (h : n < 2 ^ 32) : (toWord n).toNat = n := by
  unfold toWord; rw [BitVec.toNat_ofNat]; exact Nat.mod_eq_of_lt h

end Sys2Proof.Machine
end

