-- ==== Sys2Proof/Laws/Exec.lean ====
section
/-! SUPPORT. Each operation, said once: the state it ends in when its checks pass, and for all of
them together the two ways they can end. -/

namespace Sys2Proof.Machine

open Sys2Proof.Config

variable {s : State} {n : Nat}

/-! ### The body of an operation, when its checks pass and when one fails -/

theorem requireFlags_of_set {m : Word} (h : FlagsSet m s) : requireFlags m s = .ok () :=
  (requireFlags_ok_iff s m).2 h

theorem gridCheck_of_ok (h : GridOk s n) : gridCheck s = .ok n := (gridCheck_ok_iff s n).2 h

theorem streamFits_of_le {p : Fin 8} (h : s.slen[p].toNat ≤ s.params.maxStrm) :
    streamFits p s = .ok () := (streamFits_ok_iff s p).2 h

@[simp] theorem except_ok_bind {ε α β : Type} (a : α) (f : α → Except ε β) :
    (Except.ok a >>= f) = f a := rfl

@[simp] theorem except_error_bind {ε α β : Type} (e : ε) (f : α → Except ε β) :
    ((Except.error e : Except ε α) >>= f) = .error e := rfl

theorem execVenc_of_fits (h : varintLength s.arg.toNat ≤ s.params.maxVb) :
    execVenc s = .next ({ s with
      vb := s.vb.writeFrom byteElem 0 (varint s.arg.toNat)
      vlen := toWord (varintLength s.arg.toNat) }.finish
        (toWord (varintLength s.arg.toNat)) .vb) := by
  unfold execVenc; rw [if_neg (by omega)]; rfl

theorem execVdec_of_ok (hf : FlagsSet vbv s) (h : s.vlen.toNat ≤ s.params.maxVb) (h0 : s.vlen ≠ 0) :
    execVdec s = .next
      (s.finish (toWord (unvarint s.vlen.toNat (s.vbAt (s.vlen.toNat - 1)))) .none) := by
  unfold execVdec
  rw [requireFlags_of_set hf, except_ok_bind, if_neg (by omega), if_neg h0]; rfl

theorem execBpx_of_ok (hg : GridOk s n) (hf : FlagsSet pixv s) :
    execBpx s = .next ({ s with
      plane := Vector.ofFn fun p : Fin 8 => s.plane[p].writeFrom bitElem 0
        ((s.image n).map fun v => planebit v p) }.finish (toWord n) .planes) := by
  unfold execBpx
  rw [gridCheck_of_ok hg, except_ok_bind, requireFlags_of_set hf, except_ok_bind, pixels_eq_image]
  rfl

theorem execBpc_of_ok (hg : GridOk s n) (hf : FlagsSet planevAll s) :
    execBpc s = .next ((s.putPixels
      ((List.range n).map fun i => combine fun p => s.planeAt p i)).finish (toWord n) .pix) := by
  unfold execBpc
  rw [gridCheck_of_ok hg, except_ok_bind, requireFlags_of_set hf, except_ok_bind]; rfl

theorem execBpenc_of_ok {p : Fin 8} (hg : GridOk s n) (hf : FlagsSet (planev p) s) :
    execBpenc p s = .next ((s.putStream p (planeStream (s.planeImage p n))).finish
      (toWord (planeStream (s.planeImage p n)).length) (.strm p)) := by
  unfold execBpenc
  rw [gridCheck_of_ok hg, except_ok_bind, requireFlags_of_set hf, except_ok_bind,
    planeBits_eq_planeImage]; rfl

/-- BPDEC p whose checks pass ends as its replay does. -/
theorem execBpdec_of_checks {p : Fin 8} (hg : GridOk s n) (hf : FlagsSet (strmv p) s)
    (hl : s.slen[p].toNat ≤ s.params.maxStrm) :
    execBpdec p s = conclude (.plane p) s
      (planeReplay n (s.stream p s.slen[p].toNat) 0 0 true >>= fun r =>
        .ok ((s.putPlane p r.1).finish (toWord r.2) (.plane p))) := by
  unfold execBpdec
  rw [gridCheck_of_ok hg, except_ok_bind, requireFlags_of_set hf, except_ok_bind,
    streamFits_of_le hl, except_ok_bind, strmBytes_eq_stream]

theorem execRgenc_of_ok (hg : GridOk s n) (hf : FlagsSet pixv s) :
    execRgenc s = .next ((s.putStream 0 (grayStream (s.image n))).finish
      (toWord (grayStream (s.image n)).length) (.strm 0)) := by
  unfold execRgenc
  rw [gridCheck_of_ok hg, except_ok_bind, requireFlags_of_set hf, except_ok_bind, pixels_eq_image]
  rfl

/-- RGDEC whose checks pass ends as its replay does. -/
theorem execRgdec_of_checks (hg : GridOk s n) (hf : FlagsSet (strmv 0) s)
    (hl : s.slen[(0 : Fin 8)].toNat ≤ s.params.maxStrm) :
    execRgdec s = conclude .pix s
      (grayReplay n (s.stream 0 s.slen[(0 : Fin 8)].toNat) 0 0 >>= fun r =>
        .ok ((s.putPixels r.1).finish (toWord r.2) .pix)) := by
  unfold execRgdec
  rw [gridCheck_of_ok hg, except_ok_bind, requireFlags_of_set hf, except_ok_bind,
    streamFits_of_le hl, except_ok_bind, strmBytes_eq_stream]; rfl

theorem execHfreq_of_ok (hg : GridOk s n) (hf : FlagsSet pixv s) :
    execHfreq s = .next ({ s with
      freq := Memory.empty.writeFrom freqElem 0 ((histogram (s.image n)).map toWord) }.finish
        (toWord ((histogram (s.image n)).countP fun c => c ≠ 0)) .freq) := by
  unfold execHfreq
  rw [gridCheck_of_ok hg, except_ok_bind, requireFlags_of_set hf, except_ok_bind, pixels_eq_image]
  rfl

theorem execHbuild_of_ok (hf : FlagsSet freqv s) (h : s.occurring.length ≠ 0) :
    execHbuild s = .next ({ s with
      node := s.node.writeFrom nodeElem 0 (huffmanNodes s.leafNodes)
      nsym := toWord s.occurring.length
      root := toWord ((huffmanNodes s.leafNodes).length - 1) }.finish
        (toWord s.occurring.length) .node) := by
  unfold execHbuild; rw [requireFlags_of_set hf, except_ok_bind, if_neg h]; rfl

theorem execHgen_of_ok (hf : FlagsSet treev s) :
    execHgen s = .next ({ s with code := codeTable s.treeCodes, ncode := s.nsym }.finish
      (toWord (greatestLength s.treeCodes)) .code) := by
  unfold execHgen; rw [requireFlags_of_set hf, except_ok_bind]; rfl

/-- HENC whose checks pass ends as its packing does. -/
theorem execHenc_of_checks (hg : GridOk s n) (hf : FlagsSet (pixv ||| codev) s) :
    execHenc s = conclude (.strm 0) s
      (packCodes s.codeAt (8 * s.params.maxStrm) (s.image n) 0 0 >>= fun bits =>
        .ok (({ s with bitcnt := toWord bits.length }.putStream 0 (packedBytes bits)).finish
          (toWord bits.length) (.strm 0))) := by
  unfold execHenc
  rw [gridCheck_of_ok hg, except_ok_bind, requireFlags_of_set hf, except_ok_bind, pixels_eq_image]

/-- HDEC of a table with one code. -/
theorem execHdec_degenerate (hg : GridOk s n) (hf : FlagsSet codev s) (h1 : s.ncode = 1) :
    execHdec s = .next ((s.putPixels (List.replicate n s.soleSymbol)).finish 0 .pix) := by
  unfold execHdec
  rw [gridCheck_of_ok hg, except_ok_bind, requireFlags_of_set hf, except_ok_bind, if_pos h1]; rfl

/-- HDEC whose checks pass ends as its scan does. -/
theorem execHdec_of_checks (hg : GridOk s n) (hc : FlagsSet codev s) (h1 : s.ncode ≠ 1)
    (hs : FlagsSet (strmv 0) s) (hl : s.slen[(0 : Fin 8)].toNat ≤ s.params.maxStrm)
    (hb : s.bitcnt.toNat ≤ 8 * s.slen[(0 : Fin 8)].toNat) :
    execHdec s = conclude .pix s (s.scanPixels n 0 0 >>= fun r =>
      .ok ((s.putPixels r.1).finish (toWord r.2) .pix)) := by
  unfold execHdec
  rw [gridCheck_of_ok hg, except_ok_bind, requireFlags_of_set hc, except_ok_bind, if_neg h1,
    requireFlags_of_set hs, except_ok_bind, streamFits_of_le hl, except_ok_bind,
    if_neg (Nat.not_lt.2 hb : ¬ s.bitcnt.toNat > 8 * s.slen[0].toNat)]

/-! ### What the writes of an operation touch -/

theorem keepsAllBut_mono {l l' : List Field} {s t : State} (h : KeepsAllBut l s t) (hl : l ⊆ l') :
    KeepsAllBut l' s t := fun f hf => h f fun h' => hf (hl h')

theorem keepsAllBut_refl (l : List Field) (s : State) : KeepsAllBut l s s := by
  intro f _; cases f <;> rfl

theorem keepsAllBut_putPixels (s : State) (vs : List Byte) : KeepsAllBut [.pix] s (s.putPixels vs) := by
  intro f hf; cases f <;> first | (refine absurd ?_ hf; simp; done) | rfl

theorem keepsAllBut_putPlane (s : State) (p : Fin 8) (vs : List Bool) :
    KeepsAllBut [.plane p] s (s.putPlane p vs) := by
  intro f hf
  cases f with
  | plane q =>
    have h : p.val ≠ q.val := fun h => hf (by simp [Fin.ext h])
    simp [Field.Same, State.putPlane, h]
  | _ => rfl

theorem keepsAllBut_putStream (s : State) (p : Fin 8) (vs : List Byte) :
    KeepsAllBut [.strm p, .slen p] s (s.putStream p vs) := by
  intro f hf
  cases f with
  | strm q =>
    have h : p.val ≠ q.val := fun h => hf (by simp [Fin.ext h])
    simp [Field.Same, State.putStream, h]
  | slen q =>
    have h : p.val ≠ q.val := fun h => hf (by simp [Fin.ext h])
    simp [Field.Same, State.putStream, h]
  | _ => rfl

theorem keepsAllBut_setPlanes (s : State) (v : Vector (Memory Bool) 8) :
    KeepsAllBut ((List.finRange 8).map .plane) s { s with plane := v } := by
  intro f hf; cases f <;> first | (refine absurd ?_ hf; simp; done) | rfl

theorem keepsAllBut_setVb (s : State) (m : Memory Byte) (w : Word) :
    KeepsAllBut [.vb, .vlen] s { s with vb := m, vlen := w } := by
  intro f hf; cases f <;> first | (refine absurd ?_ hf; simp; done) | rfl

theorem keepsAllBut_setFreq (s : State) (m : Memory Word) :
    KeepsAllBut [.freq] s { s with freq := m } := by
  intro f hf; cases f <;> first | (refine absurd ?_ hf; simp; done) | rfl

theorem keepsAllBut_setTree (s : State) (m : Memory NodeRec) (k r : Word) :
    KeepsAllBut [.node, .nsym, .root] s { s with node := m, nsym := k, root := r } := by
  intro f hf; cases f <;> first | (refine absurd ?_ hf; simp; done) | rfl

theorem keepsAllBut_setCode (s : State) (m : Memory CodeRec) (k : Word) :
    KeepsAllBut [.code, .ncode] s { s with code := m, ncode := k } := by
  intro f hf; cases f <;> first | (refine absurd ?_ hf; simp; done) | rfl

theorem keepsAllBut_packed (s : State) (w : Word) (vs : List Byte) :
    KeepsAllBut [.strm 0, .slen 0, .bitcnt] s ({ s with bitcnt := w }.putStream 0 vs) := by
  intro f hf
  have h := keepsAllBut_putStream { s with bitcnt := w } 0 vs f
  cases f <;> first | (refine absurd ?_ hf; simp; done) | exact h (by simp_all)

/-! ### The two ways an operation ends -/

/-- The error of a body, if it ends with one, is of one of the given kinds. -/
abbrev FailsAs {α : Type} (ks : List ErrKind) (x : Except OpError α) : Prop :=
  ∀ e, x = .error e → e.kind ∈ ks

theorem failsAs_ok {α : Type} (ks : List ErrKind) (a : α) : FailsAs ks (.ok a) := by
  intro e h; cases h

theorem failsAs_error {α : Type} {ks : List ErrKind} {k : ErrKind} (info : Word) (h : k ∈ ks) :
    FailsAs ks (.error ⟨k, info⟩ : Except OpError α) := by
  intro e he; cases he; exact h

theorem failsAs_bind {α β : Type} {ks : List ErrKind} {x : Except OpError α}
    {f : α → Except OpError β} (hx : FailsAs ks x) (hf : ∀ a, FailsAs ks (f a)) :
    FailsAs ks (x >>= f) := by
  cases x with
  | ok a => exact hf a
  | error e => intro e' h; cases h; exact hx e rfl

theorem failsAs_mono {α : Type} {ks ks' : List ErrKind} {x : Except OpError α}
    (hx : FailsAs ks x) (h : ks ⊆ ks') : FailsAs ks' x := fun e he => h (hx e he)

theorem failsAs_gridCheck (s : State) :
    FailsAs [.invalidDimensions, .capacityExceeded] (gridCheck s) := by
  unfold gridCheck
  split
  · exact failsAs_error _ (by simp)
  · split
    · exact failsAs_error _ (by simp)
    · exact failsAs_ok _ _

theorem failsAs_requireFlags (m : Word) (s : State) : FailsAs [.sourceInvalid] (requireFlags m s) := by
  unfold requireFlags
  split
  · exact failsAs_error _ (by simp)
  · exact failsAs_ok _ _

theorem failsAs_streamFits (p : Fin 8) (s : State) : FailsAs [.capacityExceeded] (streamFits p s) := by
  unfold streamFits
  split
  · exact failsAs_error _ (by simp)
  · exact failsAs_ok _ _

theorem failsAs_grayReplay (n : Nat) (bs : List Byte) (i pos : Nat) :
    FailsAs [.malformedArtifact] (grayReplay n bs i pos) := by
  fun_induction grayReplay n bs i pos
  case case1 => exact failsAs_ok _ _
  case case2 => exact failsAs_error _ (by simp)
  case case3 ih => exact failsAs_bind ih fun a => failsAs_ok _ _
  case case4 => exact failsAs_ok _ _
  case case5 => exact failsAs_error _ (by simp)

theorem failsAs_planeReplay (n : Nat) (bs : List Byte) (i pos : Nat) (c : Bool) :
    FailsAs [.malformedArtifact] (planeReplay n bs i pos c) := by
  fun_induction planeReplay n bs i pos c
  case case1 => exact failsAs_ok _ _
  case case2 => exact failsAs_error _ (by simp)
  case case3 => exact failsAs_ok _ _
  case case4 => exact failsAs_error _ (by simp)
  case case5 ih => exact failsAs_bind ih fun a => failsAs_ok _ _

theorem failsAs_packCodes (code : Nat → CodeRec) (capacity : Nat) (px : List Byte) (i cnt : Nat) :
    FailsAs [.noCode, .capacityExceeded] (packCodes code capacity px i cnt) := by
  fun_induction packCodes code capacity px i cnt
  case case1 => exact failsAs_ok _ _
  case case2 => exact failsAs_error _ (by simp)
  case case3 => exact failsAs_error _ (by simp)
  case case4 ih => exact failsAs_bind ih fun a => failsAs_ok _ _

theorem failsAs_scanCode (s : State) (i pos L tries : Nat) :
    FailsAs [.malformedArtifact, .unmatchedCode] (s.scanCode i pos L tries) := by
  induction tries generalizing L with
  | zero => exact failsAs_error _ (by simp)
  | succ tries ih =>
    simp only [State.scanCode]
    split
    · exact failsAs_error _ (by simp)
    · split
      · exact failsAs_ok _ _
      · exact ih _

theorem failsAs_scanPixels (s : State) (n i pos : Nat) :
    FailsAs [.malformedArtifact, .unmatchedCode] (s.scanPixels n i pos) := by
  induction n generalizing i pos with
  | zero => exact failsAs_ok _ _
  | succ n ih =>
    exact failsAs_bind (failsAs_scanCode s _ _ _ _) fun a => failsAs_bind (ih _ _) fun b =>
      failsAs_ok _ _

/-- What a body's success is: its destination, with its length registers, written, and then
`done`. -/
abbrev WritesOnly (i : Instr) (s : State) (x : Except OpError State) : Prop :=
  ∀ u, x = .ok u → ∃ t r, u = t.finish r (destination i) ∧
    KeepsAllBut ((destination i).fields ++ lengthFields i) s t

theorem writesOnly_ok {i : Instr} {s t : State} {r : Word} {d : Dest} (hd : d = destination i)
    (h : KeepsAllBut ((destination i).fields ++ lengthFields i) s t) :
    WritesOnly i s (.ok (t.finish r d)) := by
  intro u hu; cases hu; exact ⟨t, r, by rw [hd], h⟩

theorem writesOnly_error {i : Instr} {s : State} (e : OpError) : WritesOnly i s (.error e) := by
  intro u hu; cases hu

theorem writesOnly_bind {i : Instr} {s : State} {α : Type} {x : Except OpError α}
    {f : α → Except OpError State} (hf : ∀ a, WritesOnly i s (f a)) : WritesOnly i s (x >>= f) := by
  cases x with
  | ok a => exact hf a
  | error e => exact writesOnly_error e

/-- An operation other than SRST ends with `raise`, with one of its error kinds, in the state in
which it was issued, or with `done`, with nothing but its destination and its length registers
written (60_exceptions.md R202, R203). -/
theorem exec_cases (i : Instr) (s : State) (hi : i ≠ .srst) :
    (∃ k ∈ errorKinds i, ∃ info, exec i s = .next (s.raise k info (destination i))) ∨
    (∃ t r, exec i s = .next (t.finish r (destination i)) ∧
      KeepsAllBut ((destination i).fields ++ lengthFields i) s t) := by
  have key : ∀ body, FailsAs (errorKinds i) body → WritesOnly i s body →
      (∃ k ∈ errorKinds i, ∃ info,
        conclude (destination i) s body = .next (s.raise k info (destination i))) ∨
      (∃ t r, conclude (destination i) s body = .next (t.finish r (destination i)) ∧
        KeepsAllBut ((destination i).fields ++ lengthFields i) s t) := by
    intro body hf hw
    cases body with
    | ok u => obtain ⟨t, r, rfl, h⟩ := hw u rfl; exact .inr ⟨t, r, rfl, h⟩
    | error e => exact .inl ⟨e.kind, hf e rfl, e.info, rfl⟩
  have grid := failsAs_mono (failsAs_gridCheck s) (ks' := errorKinds i)
  have flags := fun m => failsAs_mono (failsAs_requireFlags m s) (ks' := errorKinds i)
  have fits := fun p => failsAs_mono (failsAs_streamFits p s) (ks' := errorKinds i)
  cases i with
  | srst => exact absurd rfl hi
  | venc =>
    refine key _ ?_ ?_
    · split
      · exact failsAs_error _ (by simp [errorKinds])
      · exact failsAs_ok _ _
    · split
      · exact writesOnly_error _
      · exact writesOnly_ok rfl (keepsAllBut_setVb s _ _)
  | vdec =>
    refine key _ (failsAs_bind (flags _ (by simp [errorKinds])) fun _ => ?_)
      (writesOnly_bind fun _ => ?_)
    · split
      · exact failsAs_error _ (by simp [errorKinds])
      · split
        · exact failsAs_error _ (by simp [errorKinds])
        · exact failsAs_ok _ _
    · split
      · exact writesOnly_error _
      · split
        · exact writesOnly_error _
        · exact writesOnly_ok rfl (keepsAllBut_refl _ s)
  | bpx =>
    exact key _ (failsAs_bind (grid (by simp [errorKinds])) fun _ =>
        failsAs_bind (flags _ (by simp [errorKinds])) fun _ => failsAs_ok _ _)
      (writesOnly_bind fun _ => writesOnly_bind fun _ => writesOnly_ok rfl (keepsAllBut_setPlanes s _))
  | bpc =>
    exact key _ (failsAs_bind (grid (by simp [errorKinds])) fun _ =>
        failsAs_bind (flags _ (by simp [errorKinds])) fun _ => failsAs_ok _ _)
      (writesOnly_bind fun _ => writesOnly_bind fun _ => writesOnly_ok rfl (keepsAllBut_putPixels s _))
  | bpenc p =>
    exact key _ (failsAs_bind (grid (by simp [errorKinds])) fun _ =>
        failsAs_bind (flags _ (by simp [errorKinds])) fun _ => failsAs_ok _ _)
      (writesOnly_bind fun _ => writesOnly_bind fun _ => writesOnly_ok rfl (keepsAllBut_putStream s p _))
  | bpdec p =>
    exact key _ (failsAs_bind (grid (by simp [errorKinds])) fun _ =>
        failsAs_bind (flags _ (by simp [errorKinds])) fun _ =>
        failsAs_bind (fits _ (by simp [errorKinds])) fun _ =>
        failsAs_bind (failsAs_mono (failsAs_planeReplay _ _ _ _ _) (by simp [errorKinds])) fun _ =>
        failsAs_ok _ _)
      (writesOnly_bind fun _ => writesOnly_bind fun _ => writesOnly_bind fun _ =>
        writesOnly_bind fun _ => writesOnly_ok rfl (keepsAllBut_putPlane s p _))
  | rgenc =>
    exact key _ (failsAs_bind (grid (by simp [errorKinds])) fun _ =>
        failsAs_bind (flags _ (by simp [errorKinds])) fun _ => failsAs_ok _ _)
      (writesOnly_bind fun _ => writesOnly_bind fun _ => writesOnly_ok rfl (keepsAllBut_putStream s 0 _))
  | rgdec =>
    exact key _ (failsAs_bind (grid (by simp [errorKinds])) fun _ =>
        failsAs_bind (flags _ (by simp [errorKinds])) fun _ =>
        failsAs_bind (fits _ (by simp [errorKinds])) fun _ =>
        failsAs_bind (failsAs_mono (failsAs_grayReplay _ _ _ _) (by simp [errorKinds])) fun _ =>
        failsAs_ok _ _)
      (writesOnly_bind fun _ => writesOnly_bind fun _ => writesOnly_bind fun _ =>
        writesOnly_bind fun _ => writesOnly_ok rfl (keepsAllBut_putPixels s _))
  | hfreq =>
    exact key _ (failsAs_bind (grid (by simp [errorKinds])) fun _ =>
        failsAs_bind (flags _ (by simp [errorKinds])) fun _ => failsAs_ok _ _)
      (writesOnly_bind fun _ => writesOnly_bind fun _ => writesOnly_ok rfl (keepsAllBut_setFreq s _))
  | hbuild =>
    refine key _ (failsAs_bind (flags _ (by simp [errorKinds])) fun _ => ?_)
      (writesOnly_bind fun _ => ?_)
    · split
      · exact failsAs_error _ (by simp [errorKinds])
      · exact failsAs_ok _ _
    · split
      · exact writesOnly_error _
      · exact writesOnly_ok rfl (keepsAllBut_setTree s _ _ _)
  | hgen =>
    exact key _ (failsAs_bind (flags _ (by simp [errorKinds])) fun _ => failsAs_ok _ _)
      (writesOnly_bind fun _ => writesOnly_ok rfl (keepsAllBut_setCode s _ _))
  | henc =>
    exact key _ (failsAs_bind (grid (by simp [errorKinds])) fun _ =>
        failsAs_bind (flags _ (by simp [errorKinds])) fun _ =>
        failsAs_bind (failsAs_mono (failsAs_packCodes _ _ _ _ _) (by simp [errorKinds])) fun _ =>
        failsAs_ok _ _)
      (writesOnly_bind fun _ => writesOnly_bind fun _ => writesOnly_bind fun _ =>
        writesOnly_ok rfl (keepsAllBut_packed s _ _))
  | hdec =>
    refine key _ (failsAs_bind (grid (by simp [errorKinds])) fun _ =>
        failsAs_bind (flags _ (by simp [errorKinds])) fun _ => ?_)
      (writesOnly_bind fun _ => writesOnly_bind fun _ => ?_)
    · split
      · exact failsAs_ok _ _
      · refine failsAs_bind (flags _ (by simp [errorKinds])) fun _ =>
          failsAs_bind (fits _ (by simp [errorKinds])) fun _ => ?_
        split
        · exact failsAs_error _ (by simp [errorKinds])
        · exact failsAs_bind (failsAs_mono (failsAs_scanPixels _ _ _ _) (by simp [errorKinds]))
            fun _ => failsAs_ok _ _
    · split
      · exact writesOnly_ok rfl (keepsAllBut_putPixels s _)
      · refine writesOnly_bind fun _ => writesOnly_bind fun _ => ?_
        split
        · exact writesOnly_error _
        · exact writesOnly_bind fun _ => writesOnly_ok rfl (keepsAllBut_putPixels s _)

end Sys2Proof.Machine
end

