-- ==== Sys2Proof/Laws/Host.lean ====
section
/-! SUPPORT. What the host's accesses do to registers and buffers, and everything one step of the
machine can do. -/

namespace Sys2Proof.Machine

open Sys2Proof.Config

variable (s : State)

/-! ### Registers -/

/-- A write to one of the read-write registers is what a read of it returns. -/
theorem readReg_writeReg_same {k : Nat} (w : Word) (hk : 4 ≤ k ∧ k ≤ 8 ∨ 16 ≤ k ∧ k ≤ 23) :
    (s.writeReg k w).readReg k = w := by
  rcases hk with h | h
  · have : k = 4 ∨ k = 5 ∨ k = 6 ∨ k = 7 ∨ k = 8 := by omega
    rcases this with rfl | rfl | rfl | rfl | rfl <;> rfl
  · have h' : 16 ≤ k ∧ k < 24 := by omega
    simp [State.writeReg, State.readReg, h', show k ≠ 1 by omega, show k ≠ 2 by omega,
      show k ≠ 3 by omega, show k ≠ 4 by omega, show k ≠ 5 by omega, show k ≠ 6 by omega,
      show k ≠ 7 by omega, show k ≠ 8 by omega, show k ≠ 9 by omega, show k ≠ 10 by omega,
      show k ≠ 11 by omega]

/-- A register write changes what no other register reads as. -/
theorem readReg_writeReg_other {k j : Nat} (w : Word) (hj : j ≠ k) :
    (s.writeReg k w).readReg j = s.readReg j := by
  unfold State.writeReg
  split
  · next h => subst h; simp [State.readReg, hj]
  split
  · next h => subst h; simp [State.readReg, hj]
  split
  · next h => subst h; simp [State.readReg, hj]
  split
  · next h => subst h; simp [State.readReg, hj]
  split
  · next h => subst h; simp [State.readReg, hj]
  split
  · next h => subst h; simp [State.readReg, hj]
  split
  · next h =>
    have hne : ∀ h' : 16 ≤ j ∧ j < 24, k - 16 ≠ j - 16 := by omega
    unfold State.readReg
    by_cases h' : 16 ≤ j ∧ j < 24
    · simp [h', hne h']
    · simp [h']
  · rfl

/-- A write to a register number that takes none changes nothing. -/
theorem writeReg_ignored {k : Nat} (w : Word) (h : ¬ (3 ≤ k ∧ k ≤ 8 ∨ 16 ≤ k ∧ k ≤ 23)) :
    s.writeReg k w = s := by
  unfold State.writeReg
  rw [if_neg (by omega), if_neg (by omega), if_neg (by omega), if_neg (by omega),
    if_neg (by omega), if_neg (by omega), dif_neg (by omega)]

/-- What a register write can touch. -/
theorem keepsAllBut_writeReg (k : Nat) (w : Word) :
    KeepsAllBut ([.valid, .width, .height, .arg, .vlen, .bitcnt] ++ (List.finRange 8).map .slen)
      s (s.writeReg k w) := by
  intro f hf
  unfold State.writeReg
  repeat' split
  all_goals cases f <;> first | (refine absurd ?_ hf; simp; done) | rfl

/-! ### Buffers -/

/-- A buffer write in range, to a space the host may write, is what a read of the element
returns. -/
theorem readBuf_writeBuf_same {sp : Space} {i : Nat} (v : Nat) (hw : sp.hostWritable = true)
    (hi : sp.has s.params i = true) : (s.writeBuf sp i v).readBuf sp i = sp.reduced v := by
  cases sp <;> simp [Space.hostWritable, Space.has] at hw hi <;>
    simp_all [State.writeBuf, State.readBuf, State.pixAt, State.strmAt, State.freqAt, State.vbAt,
      Space.reduced, symbols, Params.maxStrm]

/-- A buffer write that no element takes changes nothing. -/
theorem writeBuf_ignored {sp : Space} {i : Nat} (v : Nat)
    (h : sp.hostWritable = false ∨ sp.has s.params i = false) : s.writeBuf sp i v = s := by
  unfold State.writeBuf
  repeat' split
  all_goals first | rfl | skip
  all_goals simp_all [Space.hostWritable, Space.has, symbols, Params.maxStrm]
  all_goals omega

/-- A buffer write changes what no other element reads as. -/
theorem readBuf_writeBuf_other {sp sp' : Space} {i i' : Nat} (v : Nat) (h : (sp', i') ≠ (sp, i)) :
    (s.writeBuf sp i v).readBuf sp' i' = s.readBuf sp' i' := by
  cases sp with
  | plane p => rfl
  | node => rfl
  | code => rfl
  | pix =>
    unfold State.writeBuf
    dsimp only
    split
    · cases sp' <;> try rfl
      have : i ≠ i' := fun h' => h (by rw [h'])
      simp [State.readBuf, State.pixAt, Memory.get_write_other _ _ _ this]
    · rfl
  | freq =>
    unfold State.writeBuf
    dsimp only
    split
    · cases sp' <;> try rfl
      have : i ≠ i' := fun h' => h (by rw [h'])
      simp [State.readBuf, State.freqAt, Memory.get_write_other _ _ _ this]
    · rfl
  | vb =>
    unfold State.writeBuf
    dsimp only
    split
    · cases sp' <;> try rfl
      have : i ≠ i' := fun h' => h (by rw [h'])
      simp [State.readBuf, State.vbAt, Memory.get_write_other _ _ _ this]
    · rfl
  | strm p =>
    unfold State.writeBuf
    dsimp only
    split
    · next hp =>
      split
      · cases sp' with
        | strm q =>
          by_cases hpq : p = q
          · subst hpq
            have : i ≠ i' := fun h' => h (by rw [h'])
            simp [State.readBuf, State.strmAt, hp, Memory.get_write_other _ _ _ this]
          · simp only [State.readBuf, State.strmAt]
            split
            · simp [hpq]
            · rfl
        | _ => rfl
      · rfl
    · rfl

/-- What a buffer write can touch. -/
theorem keepsAllBut_writeBuf (sp : Space) (i v : Nat) :
    KeepsAllBut ([.pix, .freq, .vb] ++ (List.finRange 8).map .strm) s (s.writeBuf sp i v) := by
  intro f hf
  unfold State.writeBuf
  repeat' split
  all_goals cases f <;> first | (refine absurd ?_ hf; simp; done) | rfl

/-- `rdbuf` returns n consecutive elements, the last one on top. -/
theorem reverse_readBufRange (sp : Space) (i n : Nat) :
    (s.readBufRange sp i n).reverse = (List.range n).map fun j => s.readBuf sp (i + j) := by
  induction n generalizing i with
  | zero => rfl
  | succ n ih =>
    simp only [State.readBufRange, List.reverse_append, List.reverse_singleton, ih,
      List.singleton_append, List.range_succ_eq_map, List.map_cons, List.map_map, Nat.add_zero]
    congr 1
    apply List.map_congr_left
    intro j _
    simp [Nat.add_assoc, Nat.add_comm 1]

/-! ### One step -/

/-- Everything a step can do. -/
theorem step_cases {t : State} (h : step s = .next t) :
    (s.script = [] ∧ t = s) ∨
    ∃ m rest, s.script = m :: rest ∧
      ((∃ ds, t = { s with script := rest, readings := ds ++ s.readings }) ∨
       (∃ k v, m = .writeReg k v ∧ k ≠ 0 ∧
          t = State.writeReg k (s.hostWord v) { s with script := rest }) ∨
       (∃ v i u, m = .writeReg 0 v ∧ decode (s.hostWord v) = .ok i ∧
          exec i (State.begin { s with script := rest }) = .next u ∧ t = u.afterCommand) ∨
       (∃ v, m = .writeReg 0 v ∧ (∃ e, decode (s.hostWord v) = .error e) ∧
          t = ((State.begin { s with script := rest }).raise .illegalCommand (s.hostWord v)
            .none).afterCommand) ∨
       (∃ sp i v, m = .writeBuf sp i v ∧ t = State.writeBuf sp i v { s with script := rest }) ∨
       (∃ on, m = .stopOnError on ∧ t = { s with script := rest, stopOnError := on }) ∨
       (m = .hardReset ∧ t = State.toReset { s with script := rest })) := by
  have hword : ∀ rest v, State.hostWord { s with script := rest } v = s.hostWord v := by
    intro rest v; cases v <;> rfl
  unfold step runNext at h
  split at h
  · next hs => exact .inl ⟨hs, by cases h; rfl⟩
  · next m rest hs =>
    refine .inr ⟨m, rest, hs, ?_⟩
    cases m with
    | readReg k => cases h; exact .inl ⟨[_], rfl⟩
    | readBuf sp i => cases h; exact .inl ⟨[_], rfl⟩
    | readRange sp i n => cases h; exact .inl ⟨_, rfl⟩
    | writeReg k v =>
      simp only [runMove, hword] at h
      split at h
      · next hk =>
        subst hk
        unfold issue at h
        split at h
        · next i hi =>
          cases hx : exec i (State.begin { s with script := rest }) with
          | next u =>
            rw [hx] at h; cases h
            exact .inr (.inr (.inl ⟨v, i, u, rfl, hi, hx, rfl⟩))
          | fault e => rw [hx] at h; cases h
          | refused e => rw [hx] at h; cases h
        · next e he =>
          cases h
          exact .inr (.inr (.inr (.inl ⟨v, rfl, ⟨e, he⟩, rfl⟩)))
      · next hk => cases h; exact .inr (.inl ⟨k, v, rfl, hk, rfl⟩)
    | writeBuf sp i v => cases h; exact .inr (.inr (.inr (.inr (.inl ⟨sp, i, v, rfl, rfl⟩))))
    | stopOnError on => cases h; exact .inr (.inr (.inr (.inr (.inr (.inl ⟨on, rfl, rfl⟩)))))
    | hardReset => cases h; exact .inr (.inr (.inr (.inr (.inr (.inr ⟨rfl, rfl⟩)))))

end Sys2Proof.Machine
end

