-- ==== Sys2Proof/Laws/PerInstr.lean ====
section
/-! SUPPORT. Statements made of every operation, one lemma per constructor of Instr. -/

namespace Sys2Proof.Laws.TableRow

/-- The operation's encoding is accepted by the row of the opcode table that carries its mnemonic
(30_encoding.md R84, R85, R89). -/
def Statement (i : Instr) : Prop :=
  ∃ r ∈ opcodeTable, r.mnemonic = i.mnemonic ∧ r.accepts (encode i) = true

theorem venc : Statement .venc := by unfold Statement; decide
theorem vdec : Statement .vdec := by unfold Statement; decide
theorem bpx : Statement .bpx := by unfold Statement; decide
theorem bpc : Statement .bpc := by unfold Statement; decide
theorem bpenc : ∀ p, Statement (.bpenc p) := by unfold Statement; decide
theorem bpdec : ∀ p, Statement (.bpdec p) := by unfold Statement; decide
theorem rgenc : Statement .rgenc := by unfold Statement; decide
theorem rgdec : Statement .rgdec := by unfold Statement; decide
theorem hfreq : Statement .hfreq := by unfold Statement; decide
theorem hbuild : Statement .hbuild := by unfold Statement; decide
theorem hgen : Statement .hgen := by unfold Statement; decide
theorem henc : Statement .henc := by unfold Statement; decide
theorem hdec : Statement .hdec := by unfold Statement; decide
theorem srst : Statement .srst := by unfold Statement; decide

end Sys2Proof.Laws.TableRow
end

