-- ==== Sys2Proof/Laws/Streams.lean ====
section
/-! SUPPORT. What the run-length and Huffman helpers do: maximal runs, the replay of the items at
the head of a stream, the queue's least key, packing and the scanner's windows. -/

namespace Sys2Proof.Machine

open Sys2Proof.Config

/-! ### Runs -/

/-- The head run of a nonempty sequence carries its first value. -/
theorem head_runs {α : Type} [DecidableEq α] (x : α) (xs : List α) :
    ∃ L rs, runs (x :: xs) = (L + 1, x) :: rs := by
  simp only [runs]
  split
  · exact ⟨0, [], rfl⟩
  · next r rs _ =>
    split
    · exact ⟨r.1, rs, rfl⟩
    · exact ⟨0, r :: rs, rfl⟩

/-- `runs` gives the maximal runs. -/
theorem runs_maximal {α : Type} [DecidableEq α] (xs : List α) : MaximalRuns (runs xs) xs := by
  induction xs with
  | nil => exact ⟨by simp [runs], by simp [runs], by simp [runs]⟩
  | cons x xs ih =>
    obtain ⟨hpos, hchain, hall⟩ := ih
    simp only [runs]
    split
    · next h => rw [h] at hall; simp at hall; subst hall; simp [MaximalRuns]
    · next r rs h =>
      rw [h] at hpos hchain hall
      split
      · next hx =>
        subst hx
        refine ⟨?_, ?_, ?_⟩
        · intro q hq; rcases List.mem_cons.1 hq with rfl | hq
          · simp
          · exact hpos q (List.mem_cons_of_mem _ hq)
        · cases rs with
          | nil => simp
          | cons q rs =>
            rw [List.isChain_cons_cons] at hchain ⊢; exact hchain
        · simpa [List.replicate_succ] using hall
      · next hx =>
        refine ⟨?_, ?_, ?_⟩
        · intro q hq; rcases List.mem_cons.1 hq with rfl | hq
          · simp
          · exact hpos q hq
        · rw [List.isChain_cons_cons]; exact ⟨hx, hchain⟩
        · simpa using hall

/-! ### Replays -/

/-- Items that leave room are replayed, and the replay goes on after them. -/
theorem grayReplay_items (n : Nat) (its : List (Byte × Byte)) (tail : List Byte) (i pos : Nat)
    (h : i + itemsTotal (its.map Prod.fst) < n) :
    grayReplay n ((its.flatMap fun it => [it.1, it.2]) ++ tail) i pos =
      (grayReplay n tail (i + itemsTotal (its.map Prod.fst)) (pos + 2 * its.length) >>= fun r =>
        .ok ((its.flatMap fun it => List.replicate it.1.toNat it.2) ++ r.1, r.2)) := by
  induction its generalizing i pos with
  | nil =>
    simp [itemsTotal]
    cases grayReplay n tail i pos <;> rfl
  | cons it its ih =>
    have hsum : itemsTotal ((it :: its).map Prod.fst) =
        it.1.toNat + itemsTotal (its.map Prod.fst) := by simp [itemsTotal]
    rw [hsum] at h ⊢
    simp only [List.flatMap_cons, List.cons_append, List.nil_append, grayReplay]
    rw [if_neg (by omega), if_neg (by omega), ih _ _ (by omega)]
    rw [show i + (it.1.toNat + itemsTotal (its.map Prod.fst)) =
        i + it.1.toNat + itemsTotal (its.map Prod.fst) by omega,
      show pos + 2 * (it :: its).length = pos + 2 + 2 * its.length by simp; omega]
    cases grayReplay n tail (i + it.1.toNat + itemsTotal (its.map Prod.fst))
      (pos + 2 + 2 * its.length) <;> simp

/-- The colour after some items, when the first has colour c. -/
def colourAfter (c : Bool) (its : List Byte) : Bool := if its.length % 2 = 0 then c else !c

/-- The pixels of plane items when the first has colour c. -/
def planePixelsFrom (c : Bool) : List Byte → List Bool
  | [] => []
  | len :: rest => List.replicate len.toNat c ++ planePixelsFrom (!c) rest

/-- Plane items alternate, white first. -/
theorem planeItemPixels_eq (its : List Byte) : planeItemPixels its = planePixelsFrom true its := by
  have key : ∀ (its : List Byte) (k : Nat),
      ((its.zipIdx k).flatMap fun it => List.replicate it.1.toNat (it.2 % 2 == 0)) =
        planePixelsFrom (k % 2 == 0) its := by
    intro its
    induction its with
    | nil => intro k; rfl
    | cons len rest ih =>
      intro k
      have hk : (!(k % 2 == 0)) = ((k + 1) % 2 == 0) := by
        rcases Nat.mod_two_eq_zero_or_one k with h | h <;> simp [h, Nat.add_mod]
      simp [planePixelsFrom, ih, hk]
  exact key its 0

/-- Run lengths that leave room are replayed, and the replay goes on after them. -/
theorem planeReplay_items (n : Nat) (its tail : List Byte) (i pos : Nat) (c : Bool)
    (h : i + itemsTotal its < n) :
    planeReplay n (its ++ tail) i pos c =
      (planeReplay n tail (i + itemsTotal its) (pos + its.length) (colourAfter c its) >>= fun r =>
        .ok (planePixelsFrom c its ++ r.1, r.2)) := by
  induction its generalizing i pos c with
  | nil =>
    simp [itemsTotal, colourAfter, planePixelsFrom]
    cases planeReplay n tail i pos c <;> rfl
  | cons len rest ih =>
    have hsum : itemsTotal (len :: rest) = len.toNat + itemsTotal rest := by simp [itemsTotal]
    have hc : colourAfter c (len :: rest) = colourAfter (!c) rest := by
      unfold colourAfter
      rcases Nat.mod_two_eq_zero_or_one rest.length with h | h <;> simp [h, Nat.add_mod]
    rw [hsum] at h ⊢
    simp only [List.cons_append, planeReplay]
    rw [if_neg (by omega), if_neg (by omega), ih _ _ _ (by omega), hc,
      show i + (len.toNat + itemsTotal rest) = i + len.toNat + itemsTotal rest by omega,
      show pos + (len :: rest).length = pos + 1 + rest.length by simp; omega]
    cases planeReplay n tail (i + len.toNat + itemsTotal rest) (pos + 1 + rest.length)
      (colourAfter (!c) rest) <;> simp [planePixelsFrom]

/-! ### The builder's queue -/

/-- `popmin` takes one key off, and none that stays is less. -/
theorem popMin_spec {q : List QueueKey} {m : QueueKey} {rest : List QueueKey}
    (h : popMin q = some (m, rest)) : (m :: rest).Perm q ∧ ∀ k ∈ rest, keyLess k m = false := by
  induction q generalizing m rest with
  | nil => cases h
  | cons k ks ih =>
    simp only [popMin] at h
    split at h
    · next hn =>
      cases h
      cases ks with
      | nil => simp
      | cons k' ks' =>
        simp only [popMin] at hn
        split at hn <;> first | cases hn | (split at hn <;> cases hn)
    · next m' rest' hm =>
      obtain ⟨hp, hl⟩ := ih hm
      split at h
      · next hlt =>
        cases h
        refine ⟨.refl _, fun j hj => ?_⟩
        have hj' : j = m' ∨ j ∈ rest' := by simpa using hp.mem_iff.2 hj
        simp only [keyLess, Bool.or_eq_true, Bool.and_eq_true, decide_eq_true_eq, beq_iff_eq,
          Bool.or_eq_false_iff, decide_eq_false_iff_not, Bool.and_eq_false_iff] at *
        rcases hj' with rfl | hj'
        · refine ⟨by omega, ?_⟩
          by_cases he : j.1 = k.1
          · exact .inr (by omega)
          · exact .inl (by simpa using he)
        · have := hl j hj'
          refine ⟨by omega, ?_⟩
          by_cases he : j.1 = k.1
          · refine .inr ?_
            have h2 := this.2
            rcases h2 with h2 | h2
            · have : ¬ j.1 = m'.1 := by simpa using h2
              omega
            · omega
          · exact .inl (by simpa using he)
      · next hlt =>
        cases h
        refine ⟨(List.Perm.swap _ _ _).trans (hp.cons _), fun j hj => ?_⟩
        rcases List.mem_cons.1 hj with rfl | hj
        · simpa using hlt
        · exact hl j hj

/-! ### Packing and windows -/

theorem length_codeBits (c : CodeRec) : (codeBits c).length = c.len.toNat := by simp [codeBits]

/-- A binary number determines the bit sequence, for one length. -/
theorem bitsValue_injective {as bs : List Bool} (hl : as.length = bs.length)
    (h : bitsValue as = bitsValue bs) : as = bs := by
  have key : ∀ (as bs : List Bool) (u v : Nat), as.length = bs.length →
      as.foldl (fun v b => 2 * v + b.toNat) u = bs.foldl (fun v b => 2 * v + b.toNat) v →
      u = v ∧ as = bs := by
    intro as
    induction as with
    | nil =>
      intro bs u v hl h
      obtain rfl : bs = [] := List.length_eq_zero_iff.1 hl.symm
      exact ⟨h, rfl⟩
    | cons a as ih =>
      intro bs u v hl h
      cases bs with
      | nil => cases hl
      | cons b bs =>
        obtain ⟨h1, h2⟩ := ih bs _ _ (Nat.succ.inj hl) h
        refine ⟨?_, ?_⟩
        · cases a <;> cases b <;> simp at h1 <;> omega
        · cases a <;> cases b <;> simp at h1 <;> first | omega | rw [h2]
  exact (key as bs 0 0 hl h).2

/-- A code matches at a length and value exactly when the bits are its own. -/
theorem codeValue_eq_iff (c : CodeRec) (bs : List Bool) (h : bs.length = c.len.toNat) :
    codeValue c = bitsValue bs ↔ codeBits c = bs := by
  refine ⟨fun hv => bitsValue_injective (by rw [length_codeBits, h]) hv, fun hb => ?_⟩
  rw [codeValue, hb]

/-- Pixels that all have codes and fit are packed. -/
theorem packCodes_of_fits (code : Nat → CodeRec) (capacity : Nat) (px : List Byte) (i cnt : Nat)
    (hp : ∀ v ∈ px, (code v.toNat).present = true)
    (hc : cnt + (px.flatMap fun v => codeBits (code v.toNat)).length ≤ capacity) :
    packCodes code capacity px i cnt = .ok (px.flatMap fun v => codeBits (code v.toNat)) := by
  induction px generalizing i cnt with
  | nil => rfl
  | cons v vs ih =>
    simp only [List.flatMap_cons, List.length_append, length_codeBits] at hc
    simp only [packCodes, hp v (by simp)]
    rw [if_neg (by simp), if_neg (by omega),
      ih _ _ (fun w hw => hp w (by simp [hw])) (by omega)]
    simp

theorem bits_of_eight : ∀ a0 a1 a2 a3 a4 a5 a6 a7 : Bool, ∀ j : Fin 8,
    (BitVec.ofNat 8 (bitsValue [a0, a1, a2, a3, a4, a5, a6, a7])).getLsbD (7 - j.val) =
      [a0, a1, a2, a3, a4, a5, a6, a7][j.val]! := by decide

/-- The bit that a packed byte carries at one position. -/
theorem getLsbD_packedByte (bits : List Bool) (k j : Nat) (hj : j < 8) :
    (packedByte bits k).getLsbD (7 - j) = bits.getD (8 * k + j) false := by
  have key := bits_of_eight (bits.getD (8 * k) false) (bits.getD (8 * k + 1) false)
    (bits.getD (8 * k + 2) false) (bits.getD (8 * k + 3) false) (bits.getD (8 * k + 4) false)
    (bits.getD (8 * k + 5) false) (bits.getD (8 * k + 6) false) (bits.getD (8 * k + 7) false) ⟨j, hj⟩
  refine key.trans ?_
  have : j = 0 ∨ j = 1 ∨ j = 2 ∨ j = 3 ∨ j = 4 ∨ j = 5 ∨ j = 6 ∨ j = 7 := by omega
  rcases this with rfl | rfl | rfl | rfl | rfl | rfl | rfl | rfl <;> rfl

end Sys2Proof.Machine
end

