-- ==== Sys2Proof/Tests/Slice0.lean ====
section
/-! SUPPORT. Tests of the model, and a witness for the hypotheses of every statement. Expected
values are those of 95_test_vectors.md, cited by its vector ids, or words written out from
30_encoding.md R85. -/

namespace Sys2Proof.Tests

open Sys2Proof.Machine Sys2Proof.Config

/-- An instance with the given MAXPIX, MAXVB and MAXSCAN, and registers at 4 × k. -/
def paramsOf (maxPix maxVb maxScan : Nat) : Params :=
  { maxPix := maxPix, maxVb := maxVb, maxScan := maxScan, busMap := .suggested maxPix maxVb }

/-! ### Well-formedness refuses each ill-formed thing

An Instr with a plane outside 0..7 cannot be written: its operand is a Fin 8. -/

theorem test_unknown_opcode_is_ill_formed : wellFormedWord 0x00000014 = false := by decide
theorem test_format_n_with_high_bit_is_ill_formed : wellFormedWord 0x80000001 = false := by decide
theorem test_format_p_with_bit_11_is_ill_formed : wellFormedWord 0x00000812 = false := by decide
theorem test_every_instruction_is_well_formed : ∀ p : Fin 8,
    (Instr.bpenc p).wellFormed = true ∧ (Instr.bpdec p).wellFormed = true ∧
      Instr.srst.wellFormed = true := by decide
theorem test_params_bounds_of_maxpix : (paramsOf 0 8 32).wf = false ∧
    (paramsOf (2 ^ 24 + 1) 65794 32).wf = false ∧ (paramsOf (2 ^ 24) 65794 32).wf = true := by decide
theorem test_params_bounds_of_maxvb : (paramsOf 1 1 32).wf = false ∧ (paramsOf 511 2 32).wf = false ∧
    (paramsOf 1 16843010 32).wf = false ∧ (paramsOf 511 3 32).wf = true := by decide
theorem test_params_bounds_of_maxscan : (paramsOf 1 2 0).wf = false ∧ (paramsOf 1 2 256).wf = false ∧
    (paramsOf 1 2 1).wf = true ∧ (paramsOf 1 2 255).wf = true := by decide
theorem test_reset_params_are_well_formed : Params.largest.wf = true := by decide

/-! ### Decoding: words written out from 30_encoding.md R85 -/

theorem test_decode_venc : decode 0b00000000000000000000000000000001 = .ok .venc := by decide
theorem test_decode_vdec : decode 0b00000000000000000000000000000010 = .ok .vdec := by decide
theorem test_decode_bpx : decode 0b00000000000000000000000000010000 = .ok .bpx := by decide
theorem test_decode_bpc : decode 0b00000000000000000000000000010001 = .ok .bpc := by decide
theorem test_decode_bpenc : decode 0b00000000000000000000011100010010 = .ok (.bpenc 7) := by decide
theorem test_decode_bpdec : decode 0b00000000000000000000001100010011 = .ok (.bpdec 3) := by decide
theorem test_decode_rgenc : decode 0b00000000000000000000000000100000 = .ok .rgenc := by decide
theorem test_decode_rgdec : decode 0b00000000000000000000000000100001 = .ok .rgdec := by decide
theorem test_decode_hfreq : decode 0b00000000000000000000000000110000 = .ok .hfreq := by decide
theorem test_decode_hbuild : decode 0b00000000000000000000000000110001 = .ok .hbuild := by decide
theorem test_decode_hgen : decode 0b00000000000000000000000000110010 = .ok .hgen := by decide
theorem test_decode_henc : decode 0b00000000000000000000000000110011 = .ok .henc := by decide
theorem test_decode_hdec : decode 0b00000000000000000000000000110100 = .ok .hdec := by decide
theorem test_decode_srst : decode 0b00000000000000000000000001111111 = .ok .srst := by decide

/-- The names of the three kinds of illegal word (30_encoding.md R86). -/
theorem test_decode_rejects_by_name :
    decode 0x00000022 = .error (.unknownOpcode 0x22) ∧
    decode 0x00000110 = .error (.nonzeroAboveN 0x00000110) ∧
    decode 0x00000812 = .error (.nonzeroAboveP 0x00000812) := by decide

theorem test_decode_table_word : decodeTableWord 32 0x512 = some (.bpenc 5) ∧
    decodeTableWord 32 0x812 = none ∧ decodeTableWord 32 0 = none := by decide

theorem test_assembly : (Instr.bpenc 5).assembly = "BPENC 5" ∧ Instr.hdec.assembly = "HDEC" := by
  decide

/-! ### Small states -/

/-- MAXPIX 64, MAXVB 8, MAXSCAN 32: the conventions of 95_test_vectors.md. -/
def small : State := State.resetWith (paramsOf 64 8 32)

/-- A grid whose image and VALID register are given. -/
def grid (w h : Word) (px : List Byte) (valid : Word) : State :=
  { small with width := w, height := h, valid := valid }.putPixels px

/-- A grid with a stream in one bank. -/
def withStream (w h : Word) (p : Fin 8) (bytes : List Byte) : State :=
  { small with width := w, height := h, valid := strmv p }.putStream p bytes

/-- A varint in VB. -/
def withVarint (bytes : List Byte) (len valid : Word) : State :=
  { small with vb := small.vb.writeFrom byteElem 0 bytes, vlen := len, valid := valid }

/-- Counts in FREQ, FREQV set. -/
def withCounts (counts : List (Nat × Word)) : State :=
  { small with
    freq := counts.foldl (fun m c => m.write freqElem c.1 c.2) small.freq
    valid := freqv }

def leaf (sym : Byte) (freq : BitVec 40) : NodeRec := ⟨freq, true, sym, 0, 0⟩
def inner (freq : BitVec 40) (left right : BitVec 9) : NodeRec := ⟨freq, false, 0, left, right⟩

/-- Vector T4: the image [1, 2, 3] with its counts, tree and table, and its packed stream 10 11 0
in STRM[0]; MAXSCAN is given. -/
def huff (maxScan : Nat) : State :=
  { (grid 3 1 [1, 2, 3] 0x0001000F) with
    params := paramsOf 64 8 maxScan
    freq := ((small.freq.write freqElem 1 1).write freqElem 2 1).write freqElem 3 1
    node := small.node.writeFrom nodeElem 0
      [leaf 1 1, leaf 2 1, leaf 3 1, inner 2 0 1, inner 3 2 3]
    nsym := 3
    root := 4
    code := ((small.code.write codeElem 1 ⟨true, 2, 1⟩).write codeElem 2 ⟨true, 2, 3⟩).write
      codeElem 3 ⟨true, 1, 0⟩
    ncode := 3
    bitcnt := 5 }.putStream 0 [0xB0]

/-- The answer is a next state that passes. -/
def ends (a : Answer) (good : State → Bool) : Bool :=
  match a with
  | .next t => good t
  | .fault _ => false
  | .refused _ => false

/-- The next state; the state itself where there is none. -/
def after (i : Instr) (s : State) : State :=
  match exec i s with
  | .next t => t
  | .fault _ => s
  | .refused _ => s

/-! ### One step each (the vector's id stands above) -/

/-- 2.1, ARG 255 and 510: a multiple of 255 ends with a byte 255. -/
theorem test_venc_multiple_of_255 : varint 255 = [255] ∧ varint 256 = [255, 1] ∧
    ends (exec .venc { small with arg := 510 }) (fun t =>
      t.varintBytes 3 == [255, 255, 0] && t.vlen == 2 && t.result == 2) = true := by decide

/-- 2.1, ARG 2041 with MAXVB 8. -/
theorem test_venc_capacity : ends (exec .venc { small with arg := 2041, vlen := 5, valid := vbv })
    (fun t => t.status == 0x66 && t.result == 9 && t.vlen == 5 && t.valid == 0) = true := by decide

/-- 2.1: the bytes before the last are only counted. -/
theorem test_vdec_counts_bytes : ends (exec .vdec (withVarint [3, 4, 9] 2 vbv))
    (fun t => t.status == 0x02 && t.result == 259) = true := by decide

/-- 2.1: VBV is checked before VLEN, and VDEC clears no flag. -/
theorem test_vdec_errors :
    ends (exec .vdec (withVarint [] 0 0)) (fun t => t.status == 0x76 && t.result == 0x10) = true ∧
    ends (exec .vdec (withVarint [] 0 vbv))
      (fun t => t.status == 0x26 && t.result == 0 && t.valid == vbv) = true := by decide

/-- B2. -/
theorem test_bpx_planes : ends (exec .bpx (grid 2 2 [3, 1, 0, 2] pixv)) (fun t =>
    t.planeImage 0 4 == [true, true, false, false] && t.planeImage 1 4 == [true, false, false, true]
      && t.planeImage 7 4 == [false, false, false, false] && t.valid == 0xFF01 && t.result == 4)
      = true := by decide

/-- B5. -/
theorem test_bpc_restores : ends (exec .bpc
    ({ after .bpx (grid 2 2 [3, 1, 0, 2] pixv) with valid := planevAll }.putPixels [9, 9, 9, 9]))
    (fun t => t.image 4 == [3, 1, 0, 2] && t.valid == 0xFF01 && t.result == 4) = true := by decide

/-- B7. -/
theorem test_bpc_missing_planes : ends (exec .bpc (grid 2 2 [] 0x00000701))
    (fun t => t.status == 0x76 && t.result == 0xF800 && t.valid == 0x700) = true := by decide

/-- S6 on plane 3, and L8. -/
theorem test_bpenc_lead_byte_and_separator : pitems 300 = [255, 0, 45] ∧
    ends (exec (.bpenc 3) ({ small with width := 1, height := 4, valid := planev 3 }.putPlane 3
      [false, true, false, true])) (fun t => t.stream 3 6 == [0, 1, 1, 1, 1, 0] &&
        t.slen[3] == 5 && t.valid == 0x00080800) = true := by decide

/-- L15: two zero lengths flip the colour twice. -/
theorem test_bpdec_zero_lengths : ends (exec (.bpdec 2) (withStream 3 1 2 [0, 0, 3]))
    (fun t => t.planeImage 2 4 == [true, true, true, false] && t.result == 3) = true := by decide

/-- L17. -/
theorem test_bpdec_overrun : ends (exec (.bpdec 2) (withStream 1 5 2 [2, 4]))
    (fun t => t.status == 0x26 && t.result == 2 && t.valid == 0x00040000) = true := by decide

/-- G9 and the items of G7. -/
theorem test_rgenc_runs : items 300 7 = [255, 7, 45, 7] ∧
    ends (exec .rgenc (grid 2 2 [10, 20, 20, 10] pixv)) (fun t =>
      t.stream 0 6 == [1, 10, 2, 20, 1, 10] && t.slen[0] == 6 && t.result == 6) = true := by decide

/-- G16. -/
theorem test_rgdec_zero_length_item : ends (exec .rgdec (withStream 2 2 0 [0, 9, 4, 1, 7, 7]))
    (fun t => t.image 5 == [1, 1, 1, 1, 0] && t.result == 4 && t.valid == 0x00010001) = true := by
  decide

/-- G12. -/
theorem test_rgdec_truncated : ends (exec .rgdec (withStream 2 2 0 [2, 10, 2]))
    (fun t => t.status == 0x26 && t.result == 2 && t.slen[0] == 3) = true := by decide

/-- T1. -/
theorem test_hfreq_counts : ends (exec .hfreq (grid 2 2 [10, 10, 10, 20] pixv)) (fun t =>
    t.freqAt 10 == 3 && t.freqAt 20 == 1 && t.freqAt 0 == 0 && t.result == 2) = true := by decide +kernel

/-- T6. -/
theorem test_hbuild_nodes : ends (exec .hbuild (withCounts [(1, 2), (2, 4), (3, 3)])) (fun t =>
    (List.range 5).map t.nodeAt ==
      [leaf 1 2, leaf 2 4, leaf 3 3, inner 5 0 2, inner 9 1 3] &&
      t.nsym == 3 && t.root == 4 && t.valid == 0x06) = true := by decide

/-- T5: of equal frequencies the lower index pops first. -/
theorem test_hbuild_tie : ends (exec .hbuild (withCounts [(1, 1), (2, 1), (3, 2)])) (fun t =>
    (List.range 5).map t.nodeAt ==
      [leaf 1 1, leaf 2 1, leaf 3 2, inner 2 0 1, inner 4 2 3]) = true := by decide

/-- T4. -/
theorem test_hgen_codes : ends (exec .hgen { huff 32 with code := .empty, ncode := 0 }) (fun t =>
    codeBits (t.codeAt 1) == [true, false] && codeBits (t.codeAt 2) == [true, true] &&
      codeBits (t.codeAt 3) == [false] && t.ncode == 3 && t.result == 2) = true := by decide

/-- T2: the tree of one leaf. -/
theorem test_hgen_single_symbol : ends (exec .hgen { small with
    node := small.node.write nodeElem 0 (leaf 5 5), nsym := 1, root := 0, valid := treev })
    (fun t => t.codeAt 5 == ⟨true, 1, 0⟩ && t.ncode == 1 && t.result == 1) = true := by decide

/-- The codes of T4, packed: 10 11 0 and three padding zeros. -/
theorem test_henc_packs : ends (exec .henc { huff 32 with strm := small.strm, bitcnt := 0 })
    (fun t => t.strmAt 0 0 == 0xB0 && t.bitcnt == 5 && t.slen[0] == 1 && t.result == 5) = true := by
  decide

/-- 2.7: a pixel without a code. -/
theorem test_henc_no_code : ends (exec .henc ((huff 32).putPixels [1, 30, 3])) (fun t =>
    t.status == 0x86 && t.result == 1 && t.bitcnt == 5 && t.valid == 0x0F) = true := by decide

theorem test_hdec_scans : ends (exec .hdec ((huff 32).putPixels [0, 0, 0]))
    (fun t => t.image 3 == [1, 2, 3] && t.result == 5) = true := by decide

/-- MAXSCAN 1: the first code, 10, is not found. -/
theorem test_hdec_unmatched : ends (exec .hdec (huff 1))
    (fun t => t.status == 0x36 && t.result == 0 && t.valid == 0x0001000E) = true := by decide

theorem test_srst_clears : ends (exec .srst (huff 32)) (fun t => t.readReg 1 == 2 &&
    (List.range 32).all (fun k => k == 1 || t.readReg k == 0) && t.image 3 == [0, 0, 0] &&
      t.nodeAt 0 == nodeElem.zero && t.params == paramsOf 64 8 32) = true := by decide

/-- 2.8: the dimension check, N = 2^32 not taken for 0. -/
theorem test_grid_check :
    ends (exec .hfreq (grid 0x80000000 1 [] 0)) (fun t => t.status == 0x16 && t.result == 1) = true ∧
    ends (exec .hfreq (grid 0xFFFFFFFF 0xFFFFFFFF [] 0))
      (fun t => t.status == 0x16 && t.result == 3) = true ∧
    ends (exec .hfreq (grid 0x10000 0x10000 [] 0))
      (fun t => t.status == 0x66 && t.result == 0xFFFFFFFF) = true ∧
    ends (exec .hfreq (grid 65 1 [] 0)) (fun t => t.status == 0x66 && t.result == 65) = true := by
  decide

/-- 2.8: host writes to VALID. -/
theorem test_valid_writes :
    validAfterHostWrite 0x00000000 0xFFFFFFFF = 0x00FF0013 ∧
    validAfterHostWrite 0x0000FF0F 0xFFFFFFFF = 0x00FFFF1F ∧
    validAfterHostWrite 0x0000FF0F 0x0000010C = 0x0000010C ∧
    validAfterHostWrite 0x00000000 0x0000000C = 0x00000000 := by decide

/-- 70_reset_and_hazards.md R221: each command as the first after reset, fetched and run by step. -/
theorem test_first_step_after_reset :
    ([0x01, 0x02, 0x10, 0x11, 0x12, 0x713, 0x20, 0x21, 0x30, 0x31, 0x32, 0x33, 0x34, 0x7F, 0x110].map
      fun w => match step (State.reset.withFetchWord 32 w) with
        | .next t => t.status
        | _ => 1) =
    [0x02, 0x76, 0x16, 0x16, 0x16, 0x16, 0x16, 0x16, 0x16, 0x76, 0x76, 0x16, 0x16, 0x02, 0x56] := by
  decide

/-- P6, steps 1 and 2, as host moves. -/
theorem test_script_line_moves : scriptMoves [.wr regArg 300, .cmd .venc, .setv vbv] =
    [.writeReg 6 (.const 300), .writeReg 0 (.const 0x01), .writeReg 3 (.regOr 3 0x10)] := by decide

/-- Register k stands at 4 × k (20_memory.md R71); nothing stands at 96 = 4 × 24, nor between. -/
theorem test_bus_reads_height : ends (step ((huff 32).withBusAccesses [.read 20]))
      (fun t => t.readings == [.word 1]) = true ∧
    BusAccess.move? small.params.busMap (.write 0 0x7F) = some (.writeReg 0 (.const 0x7F)) ∧
    BusAccess.move? small.params.busMap (.read 96) = none ∧
    BusAccess.move? small.params.busMap (.read 18) = none := by decide

/-! ### Witnesses: for each statement with hypotheses, states and operands that meet them, clause
by clause and at the edges of each range -/

/-- The state with one pending host move. -/
def pending (m : HostMove) : State := { huff 32 with script := [m] }

theorem witness_EveryWordIsOneRowOrIllegal :
    (∃ r ∈ opcodeTable, r.accepts 0x00000712 = true) ∧
    (∀ r ∈ opcodeTable, r.accepts 0x00000812 = false) := by decide

theorem witness_StepRunsTheDecodedOperation :
    (pending (.writeReg 0 (.const 0x712))).script = [.writeReg 0 (.const 0x712)] ∧
    decode ((pending (.writeReg 0 (.const 0x712))).hostWord (.const 0x712)) = .ok (.bpenc 7) := by
  decide

theorem witness_IllegalWordChangesStatusAndResultOnly :
    (pending (.writeReg 0 (.const 0x110))).script = [.writeReg 0 (.const 0x110)] ∧
    wellFormedWord ((pending (.writeReg 0 (.const 0x110))).hostWord (.const 0x110)) = false := by
  decide

/-- Both clauses: the illegal word ends with an error, SRST does not. -/
theorem witness_StopOnErrorAbandonsTheScript :
    ends (step { pending (.writeReg 0 (.const 0x110)) with stopOnError := true })
      (fun t => statusErr t.status && t.script == []) = true ∧
    ends (step { small with script := [.writeReg 0 (.const 0x7F), .readReg 1], stopOnError := true })
      (fun t => !statusErr t.status && t.script == [.readReg 1]) = true := by decide

/-- The edges of the read-write numbers, VALID, and numbers that ignore the write. -/
theorem witness_HostRegisterWriteStoresOrIsIgnored :
    (∀ k ∈ [3, 4, 8, 16, 23, 1, 2, 9, 11, 12, 15, 24], k ≠ 0 ∧
      (pending (.writeReg k (.reg 5))).script = [.writeReg k (.reg 5)]) ∧
    (∀ k ∈ [4, 5, 6, 7, 8], (pending (.writeReg k (.reg 5))).script = [.writeReg k (.reg 5)] ∧
      4 ≤ k ∧ k ≤ 8) ∧
    (∀ p : Fin 8, (pending (.writeReg (16 + p.val) (.reg 5))).script =
      [.writeReg (16 + p.val) (.reg 5)] ∧ 16 ≤ 16 + p.val ∧ 16 + p.val ≤ 23) ∧
    (∀ k ∈ [1, 2, 9, 11, 12, 15, 24], ¬ (3 ≤ k ∧ k ≤ 8 ∨ 16 ≤ k ∧ k ≤ 23)) := by decide

theorem witness_HostCannotSetDerivedFlags :
    (pending (.writeReg 3 (.const 0xFFFFFFFF))).script = [.writeReg 3 (.const 0xFFFFFFFF)] := rfl

/-- The last element of each space the host may write, the first index past each space, and a
space it may not write. -/
theorem witness_HostBufferAccessIsOneElement :
    (∀ x ∈ [(Space.pix, 63), (.freq, 255), (.strm 7, 127), (.vb, 7)],
      (pending (.writeBuf x.1 x.2 300)).script = [.writeBuf x.1 x.2 300] ∧
        x.1.hostWritable = true ∧ x.1.has (huff 32).params x.2 = true) ∧
    (∀ x ∈ [(Space.pix, 64), (.freq, 256), (.strm 7, 128), (.strm 8, 0), (.vb, 8), (.node, 511),
      (.code, 256), (.plane 8, 0), (.plane 7, 64)], x.1.has (huff 32).params x.2 = false) ∧
    (∀ x ∈ [Space.node, .code, .plane 0], x.hostWritable = false) := by decide

theorem witness_HostReadsChangeNothing :
    (pending (.readReg 24)).script = [.readReg 24] ∧
    (pending (.readBuf .pix 64)).script = [.readBuf .pix 64] ∧
    (pending (.readRange .pix 62 (.const 3))).script = [.readRange .pix 62 (.const 3)] ∧
    (∀ k ∈ [12, 15, 24], 12 ≤ k ∧ k ≤ 15 ∨ 24 ≤ k) ∧
    63 < (huff 32).params.maxPix ∧ 127 < 2 * (huff 32).params.maxPix ∧
    7 < (huff 32).params.maxVb := by decide

theorem registersOk_of {s : State} (h : (!statusBusy s.status &&
    (statusErr s.status == (statusErrcode s.status != 0)) &&
    (!statusErr s.status || statusDone s.status) && decide ((statusErrcode s.status).toNat ≤ 8) &&
    (s.status &&& ~~~ statusMask == 0) && (s.valid &&& ~~~ validMask == 0)) = true) :
    RegistersOk s := by
  simp only [Bool.and_eq_true, Bool.not_eq_true', beq_iff_eq, decide_eq_true_eq,
    Bool.or_eq_true] at h
  obtain ⟨⟨⟨⟨⟨h1, h2⟩, h3⟩, h4⟩, h5⟩, h6⟩ := h
  exact ⟨h1, by rw [h2]; simp, fun he => by rcases h3 with h | h; · rw [he] at h; cases h
                                            · exact h, h4, h5, h6⟩

theorem witness_ScriptLinesSetClearAndMove :
    RegistersOk (pending (.writeReg 3 (.regOr 3 0x1000F))) ∧
    (pending (.writeReg 3 (.regOr 3 0x1000F))).script = (ScriptLine.setv 0x1000F).moves ++ [] ∧
    RegistersOk (pending (.writeReg 3 (.regAndNot 3 0xC))) ∧
    (pending (.writeReg 3 (.regAndNot 3 0xC))).script = (ScriptLine.clrv 0xC).moves ++ [] ∧
    (∀ a ∈ [4, 8, 16, 23], (pending (.writeReg a (.reg 2))).script = (ScriptLine.mov a 2).moves ++ [] ∧
      (4 ≤ a ∧ a ≤ 8 ∨ 16 ≤ a ∧ a ≤ 23)) := by
  refine ⟨registersOk_of (by decide), rfl, registersOk_of (by decide), rfl, by decide⟩

/-- A step that runs a command, and one that resets. -/
theorem witness_NoStepChangesTheParameters :
    ends (step (pending (.writeReg 0 (.const 0x34)))) (fun _ => true) = true ∧
    ends (step (pending .hardReset)) (fun _ => true) = true := by decide

theorem witness_HardResetDiffersFromSrstInStatusAlone :
    (pending .hardReset).script = [.hardReset] := rfl

theorem witness_FromResetOnlyVencAndSrstSucceed :
    (paramsOf 64 8 32).wf = true ∧ usesGrid (.bpenc 7) = true ∧ usesGrid .hdec = true ∧
    wellFormedWord 0 = false := by decide

/-- W = 0 with H = 5, both −1, W = −2^31, N = 2^32 and N = MAXPIX + 1. -/
theorem witness_GridOperationsCheckDimensionsFirst :
    usesGrid .rgenc = true ∧
    (grid 0 5 [] 0).width.toInt ≤ 0 ∧ (grid 0xFFFFFFFF 0xFFFFFFFF [] 0).height.toInt ≤ 0 ∧
    (grid 0x80000000 1 [] 0).width.toInt ≤ 0 ∧ (grid 1 0 [] 0).height.toInt ≤ 0 ∧
    (0 < (grid 0x10000 0x10000 [] 0).width.toInt ∧
      ((grid 0x10000 0x10000 [] 0).params.maxPix : Int) <
        (grid 0x10000 0x10000 [] 0).width.toInt * (grid 0x10000 0x10000 [] 0).height.toInt) ∧
    (0 < (grid 65 1 [] 0).height.toInt ∧ ((grid 65 1 [] 0).params.maxPix : Int) <
      (grid 65 1 [] 0).width.toInt * (grid 65 1 [] 0).height.toInt) := by decide

theorem witness_MissingSourceFlagsAreReported :
    (GridOk (grid 2 2 [] 0x00000700) 4 ∧
      sourceFlags .bpc &&& ~~~ (grid 2 2 [] 0x00000700).valid ≠ 0) ∧
    (usesGrid .hgen = false ∧ sourceFlags .hgen &&& ~~~ small.valid ≠ 0) ∧
    (GridOk { huff 32 with valid := codev } 3 ∧ FlagsSet codev { huff 32 with valid := codev } ∧
      (huff 32).ncode ≠ 1 ∧ ¬ FlagsSet (strmv 0) { huff 32 with valid := codev }) ∧
    ends (exec .venc small) (fun _ => true) = true := by decide

theorem witness_ErrorTouchesOnlyTheDestination :
    ends (exec .rgdec (withStream 2 2 0 [2, 10, 2])) (fun t => statusErr t.status) = true ∧
    ends (exec .bpx (grid 0 5 [] 0)) (fun t => statusErr t.status) = true := by decide

theorem witness_SuccessTouchesOnlyItsDestination : Instr.hdec ≠ .srst ∧
    ends (exec .hdec (huff 32)) (fun t => !statusErr t.status) = true := by decide

theorem witness_ElementsPastTheWrittenRangeStay : (huff 32).params.wf = true ∧ Instr.hdec ≠ .srst ∧
    ends (exec .hdec (huff 32)) (fun t => !statusErr t.status) = true := by decide

/-- 3 × 1 and 1 × 3. -/
theorem witness_OnlyTheProductOfTheDimensionsMatters : Instr.hdec ≠ .srst ∧ GridOk (huff 32) 3 ∧
    GridOk { huff 32 with width := 1, height := 3 } 3 := by decide

/-- ARG 2040 and 2041 with MAXVB 8. -/
theorem witness_VencWritesTheVarintOfArg :
    (8 = max 1 (((2040 : Word).toNat + 254) / 255) ∧ 8 ≤ small.params.maxVb) ∧
    (9 = max 1 (((2041 : Word).toNat + 254) / 255) ∧ small.params.maxVb < 9) := by decide

/-- VBV 0; VLEN 9, 0, 1 and 8 with MAXVB 8. -/
theorem witness_VdecReadsTheVarint :
    ¬ FlagsSet vbv (withVarint [] 1 0) ∧
    (FlagsSet vbv (withVarint [] 9 vbv) ∧
      (withVarint [] 9 vbv).params.maxVb < (withVarint [] 9 vbv).vlen.toNat) ∧
    (FlagsSet vbv (withVarint [] 0 vbv) ∧ (withVarint [] 0 vbv).vlen = 0) ∧
    (small.params.wf = true ∧ FlagsSet vbv (withVarint [] 1 vbv) ∧
      1 ≤ (withVarint [] 1 vbv).vlen.toNat ∧
      (withVarint [] 8 vbv).vlen.toNat ≤ (withVarint [] 8 vbv).params.maxVb) := by
  decide

theorem witness_VencThenVdecReturnsArg :
    ends (exec .venc { small with arg := 2040 }) (fun t => t.status == 0x02) = true := by decide

theorem witness_BpxExtractsThePlanes : (grid 2 2 [3, 1, 0, 2] pixv).params.wf = true ∧
    GridOk (grid 2 2 [3, 1, 0, 2] pixv) 4 ∧ FlagsSet pixv (grid 2 2 [3, 1, 0, 2] pixv) := by decide

theorem witness_BpcCombinesThePlanes : (grid 64 1 [] planevAll).params.wf = true ∧
    GridOk (grid 64 1 [] planevAll) 64 ∧ FlagsSet planevAll (grid 64 1 [] planevAll) := by decide

/-- PIX is overwritten in between. -/
theorem witness_BpxThenBpcRestoresTheImage :
    let s := grid 2 2 [3, 1, 0, 2] pixv
    let t := after .bpx s
    let t' := t.putPixels [9, 9, 9, 9]
    s.params.wf = true ∧ GridOk s 4 ∧ exec .bpx s = .next t ∧ t.status = 0x02 ∧
    t'.params = t.params ∧ t'.width = t.width ∧ t'.height = t.height ∧ t'.plane = t.plane ∧
    FlagsSet planevAll t' :=
  ⟨by decide, by decide, rfl, by decide, rfl, rfl, rfl, rfl, by decide⟩

theorem witness_RgencWritesItemsOfTheRuns : (grid 2 2 [10, 20, 20, 10] pixv).params.wf = true ∧
    GridOk (grid 2 2 [10, 20, 20, 10] pixv) 4 ∧ FlagsSet pixv (grid 2 2 [10, 20, 20, 10] pixv) := by
  decide

/-- G16: items (0, 9) and then (4, 1), with two bytes after them. -/
theorem witness_RgdecReplaysTheItems :
    let s := withStream 2 2 0 [0, 9, 4, 1, 7, 7]
    s.params.wf = true ∧ GridOk s 4 ∧ FlagsSet (strmv 0) s ∧
    s.slen[(0 : Fin 8)].toNat ≤ s.params.maxStrm ∧
    s.stream 0 s.slen[(0 : Fin 8)].toNat =
      (([((0 : Byte), (9 : Byte))] ++ [(4, 1)]).flatMap fun it : Byte × Byte => [it.1, it.2]) ++ [7, 7] ∧
    itemsTotal ([((0 : Byte), (9 : Byte))].map Prod.fst) < 4 ∧
    itemsTotal (([((0 : Byte), (9 : Byte))] ++ [(4, 1)]).map Prod.fst) = 4 := by decide

/-- SLEN0 = MAXSTRM + 1; G12, one byte left; G15, an overrun by one. -/
theorem witness_RgdecReportsMalformedStreams :
    (∀ s ∈ [withStream 2 2 0 [2, 10, 2], withStream 2 2 0 [2, 10, 3, 20]],
      s.params.wf = true ∧ GridOk s 4 ∧ FlagsSet (strmv 0) s ∧
      s.slen[(0 : Fin 8)].toNat ≤ s.params.maxStrm) ∧
    (withStream 2 2 0 [2, 10, 2]).stream 0 3 =
      ([((2 : Byte), (10 : Byte))].flatMap fun it : Byte × Byte => [it.1, it.2]) ++ [2] ∧
    (withStream 2 2 0 [2, 10, 3, 20]).stream 0 4 =
      ([((2 : Byte), (10 : Byte))].flatMap fun it : Byte × Byte => [it.1, it.2]) ++ [3, 20] ∧
    itemsTotal ([((2 : Byte), (10 : Byte))].map Prod.fst) = 2 ∧
    (4 : Nat) < itemsTotal ([((2 : Byte), (10 : Byte))].map Prod.fst) + (3 : Byte).toNat ∧
    (let s := { withStream 2 2 0 [] with slen := Vector.replicate 8 129 };
      s.params.wf = true ∧ GridOk s 4 ∧ FlagsSet (strmv 0) s ∧
      s.params.maxStrm < s.slen[(0 : Fin 8)].toNat) := by decide

/-- PIX is overwritten in between. -/
theorem witness_RgencThenRgdecRestoresTheImage :
    let s := grid 2 2 [10, 20, 20, 10] pixv
    let t := after .rgenc s
    let t' := t.putPixels [9, 9, 9, 9]
    s.params.wf = true ∧ GridOk s 4 ∧ exec .rgenc s = .next t ∧ t.status = 0x02 ∧
    SameStream 0 t t' ∧ FlagsSet (strmv 0) t' :=
  ⟨by decide, by decide, rfl, by decide, ⟨rfl, rfl, rfl, rfl, rfl⟩, by decide⟩

theorem witness_BpencWritesRunLengths : (grid 64 1 [] planevAll).params.wf = true ∧
    GridOk (grid 64 1 [] planevAll) 64 ∧ FlagsSet (planev 7) (grid 64 1 [] planevAll) := by decide

/-- L18: the last byte is not read. -/
theorem witness_BpdecReplaysTheRuns :
    let s := withStream 1 5 7 [2, 2, 1, 9]
    s.params.wf = true ∧ GridOk s 5 ∧ FlagsSet (strmv 7) s ∧
    s.slen[(7 : Fin 8)].toNat ≤ s.params.maxStrm ∧
    s.stream 7 s.slen[(7 : Fin 8)].toNat = [2, 2] ++ 1 :: [9] ∧
    itemsTotal [2, 2] < 5 ∧ itemsTotal [2, 2] + (1 : Byte).toNat = 5 := by decide

/-- SLEN7 = MAXSTRM + 1; L16, no byte left; L17, an overrun by one. -/
theorem witness_BpdecReportsMalformedStreams :
    (∀ s ∈ [withStream 1 5 7 [2, 2], withStream 1 5 7 [2, 4]],
      s.params.wf = true ∧ GridOk s 5 ∧ FlagsSet (strmv 7) s ∧
      s.slen[(7 : Fin 8)].toNat ≤ s.params.maxStrm) ∧
    (withStream 1 5 7 [2, 2]).stream 7 2 = [2, 2] ++ [] ∧ itemsTotal [2, 2] < 5 ∧
    (withStream 1 5 7 [2, 4]).stream 7 2 = [2] ++ [4] ∧ itemsTotal [2] < 5 ∧
    5 < itemsTotal [2] + (4 : Byte).toNat ∧
    (let s := { withStream 1 5 7 [] with slen := Vector.replicate 8 129 };
      s.params.wf = true ∧ GridOk s 5 ∧ FlagsSet (strmv 7) s ∧
      s.params.maxStrm < s.slen[(7 : Fin 8)].toNat) := by decide

/-- The plane is overwritten in between. -/
theorem witness_BpencThenBpdecRestoresThePlane :
    let s := grid 64 1 [] planevAll
    let t := after (.bpenc 7) s
    let t' := t.putPlane 7 [true, true]
    s.params.wf = true ∧ GridOk s 64 ∧ exec (.bpenc 7) s = .next t ∧ t.status = 0x02 ∧
    SameStream 7 t t' ∧ FlagsSet (strmv 7) t' :=
  ⟨by decide, by decide, rfl, by decide, ⟨rfl, rfl, rfl, rfl, rfl⟩, by decide⟩

theorem witness_HfreqCountsTheIntensities : (huff 32).params.wf = true ∧ GridOk (huff 32) 3 ∧
    FlagsSet pixv (huff 32) := by decide

theorem witness_HbuildBuildsTheHuffmanTree : FlagsSet freqv (huff 32) ∧
    (∃ x, x < 256 ∧ (huff 32).freqAt x ≠ 0) := ⟨by decide, 3, by decide, by decide⟩

theorem witness_HbuildRejectsAnEmptyTable : FlagsSet freqv (withCounts []) ∧
    (∀ x, x < 256 → (withCounts []).freqAt x = 0) ∧
    ends (exec .hbuild (withCounts [])) (fun t => t.status == 0x46) = true :=
  ⟨by decide, fun _ _ => rfl, by decide⟩

/-- T4 in two instances that differ elsewhere. -/
theorem witness_TreeAndTableDependOnTheCountsAlone :
    (FlagsSet treev (huff 32) ∧ FlagsSet treev { small with
      node := (huff 32).node, nsym := 3, root := 4, valid := treev }) ∧
    FlagsSet freqv (huff 32) ∧
    FlagsSet freqv (withCounts [(1, 1), (2, 1), (3, 1)]) ∧
    (∃ x, x < 256 ∧ (huff 32).freqAt x ≠ 0) ∧
    (∀ x, x < 256 → (huff 32).freqAt x = (withCounts [(1, 1), (2, 1), (3, 1)]).freqAt x) :=
  ⟨by decide, by decide, by decide, ⟨3, by decide, by decide⟩, fun _ _ => rfl⟩

/-- The tree of T4 is valid. -/
theorem treeOk_huff : TreeOk (huff 32) := by
  have inner_cases : ∀ k, Internal (huff 32) k → k = 3 ∨ k = 4 := by
    rintro k ⟨h1, h2⟩
    have h1' : 3 ≤ k := h1
    have h2' : k ≤ 4 := h2
    omega
  refine ⟨by decide, by decide, ?_, by decide, by decide, ?_, ?_, ?_, ?_, ?_, ?_⟩
  · intro j k hjk hk
    have hk' : k < 3 := hk
    have : (j = 0 ∧ k = 1) ∨ (j = 0 ∧ k = 2) ∨ (j = 1 ∧ k = 2) := by omega
    rcases this with ⟨rfl, rfl⟩ | ⟨rfl, rfl⟩ | ⟨rfl, rfl⟩ <;> decide
  · intro k hk; rcases inner_cases k hk with rfl | rfl <;> decide
  · intro k hk; rcases inner_cases k hk with rfl | rfl <;> decide
  · intro j hj
    have hj' : j < 4 := hj
    have : j = 0 ∨ j = 1 ∨ j = 2 ∨ j = 3 := by omega
    rcases this with rfl | rfl | rfl | rfl
    · refine ⟨3, by unfold Internal; decide, by unfold ChildOf; decide, ?_⟩
      intro k hk hc; rcases inner_cases k hk with rfl | rfl
      · rfl
      · revert hc; unfold ChildOf; decide
    · refine ⟨3, by unfold Internal; decide, by unfold ChildOf; decide, ?_⟩
      intro k hk hc; rcases inner_cases k hk with rfl | rfl
      · rfl
      · revert hc; unfold ChildOf; decide
    · refine ⟨4, by unfold Internal; decide, by unfold ChildOf; decide, ?_⟩
      intro k hk hc; rcases inner_cases k hk with rfl | rfl
      · revert hc; unfold ChildOf; decide
      · rfl
    · refine ⟨4, by unfold Internal; decide, by unfold ChildOf; decide, ?_⟩
      intro k hk hc; rcases inner_cases k hk with rfl | rfl
      · revert hc; unfold ChildOf; decide
      · rfl
  · intro k hk; rcases inner_cases k hk with rfl | rfl <;> decide
  · intro k hk; unfold KeyBelow; rcases inner_cases k hk with rfl | rfl <;> decide
  · intro j k hj hk hjk
    rcases inner_cases j hj with rfl | rfl <;> rcases inner_cases k hk with rfl | rfl <;>
      first | decide | omega

theorem witness_HgenGivesEachLeafItsPath : FlagsSet treev (huff 32) ∧ TreeOk (huff 32) :=
  ⟨by decide, treeOk_huff⟩

theorem witness_HuffmanCodesAreOptimal : (huff 32).params.wf = true ∧ GridOk (huff 32) 3 ∧
    ∃ a b c, exec .hfreq (huff 32) = .next a ∧ a.status = 0x02 ∧ exec .hbuild a = .next b ∧
      b.status = 0x02 ∧ exec .hgen b = .next c ∧ c.status = 0x02 := by
  have hg : GridOk (huff 32) 3 := by decide
  refine ⟨by decide, hg, _, _, _, execHfreq_of_ok hg (by decide), rfl,
    execHbuild_of_ok (by decide) ?_, rfl, execHgen_of_ok (by decide), rfl⟩
  refine fun h => List.not_mem_nil (a := 3) (List.length_eq_zero_iff.1 h ▸ ?_)
  refine List.mem_filter.2 ⟨by decide, ?_⟩
  simp [State.freqAt, Memory.get_writeFrom, histogram, symbols]
  decide

/-- The symbols that have a code in T4. -/
theorem hasCode_huff {x : Nat} (h : HasCode (huff 32) x) : x = 1 ∨ x = 2 ∨ x = 3 := by
  have key : ∀ y : Nat, y < 256 → ((huff 32).codeAt y).present = true → y = 1 ∨ y = 2 ∨ y = 3 := by
    decide +kernel
  exact key x h.1 h.2

/-- The code table of T4 is valid. -/
theorem codeOk_huff : CodeOk (huff 32) := by
  have absent : ∀ x : Nat, x < 256 → ((huff 32).codeAt x).present = false →
      (huff 32).codeAt x = codeElem.zero := by decide +kernel
  have padding : ∀ x j : Nat, x < 256 → ((huff 32).codeAt x).len.toNat ≤ j → j < 255 →
      ((huff 32).codeAt x).bits.getLsbD j = false := by
    intro x j hx hj hj'
    by_cases hp : ((huff 32).codeAt x).present = true
    · have key : ∀ j : Nat, j < 255 → ∀ c ∈ [((2 : Nat), (1 : BitVec 255)), (2, 3), (1, 0)],
          c.1 ≤ j → c.2.getLsbD j = false := by decide +kernel
      rcases hasCode_huff ⟨hx, hp⟩ with rfl | rfl | rfl
      · exact key j hj' (2, 1) (by simp) hj
      · exact key j hj' (2, 3) (by simp) hj
      · exact key j hj' (1, 0) (by simp) hj
    · rw [absent x hx (by simpa using hp)]; exact BitVec.getLsbD_zero
  refine ⟨by decide +kernel, ?_, absent, ?_, ?_, ?_⟩
  · intro x hx; rcases hasCode_huff hx with rfl | rfl | rfl <;> decide
  · intro x j hx hj
    by_cases h : j < 255
    · exact padding x j hx hj h
    · exact BitVec.getLsbD_of_ge _ _ (by omega)
  · intro x y hx hy hne
    rcases hasCode_huff hx with rfl | rfl | rfl <;> rcases hasCode_huff hy with rfl | rfl | rfl <;>
      first | exact absurd rfl hne | decide
  · intro _ f
    cases h0 : f 0
    · refine ⟨3, ⟨by decide, by decide⟩, fun j hj => ?_⟩
      have hj' : j < 1 := hj
      obtain rfl : j = 0 := by omega
      rw [h0]; decide
    · cases h1 : f 1
      · refine ⟨1, ⟨by decide, by decide⟩, fun j hj => ?_⟩
        have hj' : j < 2 := hj
        have : j = 0 ∨ j = 1 := by omega
        rcases this with rfl | rfl
        · rw [h0]; decide
        · rw [h1]; decide
      · refine ⟨2, ⟨by decide, by decide⟩, fun j hj => ?_⟩
        have hj' : j < 2 := hj
        have : j = 0 ∨ j = 1 := by omega
        rcases this with rfl | rfl
        · rw [h0]; decide
        · rw [h1]; decide

/-- CodeOk speaks of the table and NCODE alone. -/
theorem codeOk_of_same {s t : State} (hc : t.code = s.code) (hn : t.ncode = s.ncode) (h : CodeOk s) :
    CodeOk t := by
  have hat : ∀ x, t.codeAt x = s.codeAt x := fun x => by unfold State.codeAt; rw [hc]
  have hhas : ∀ x, HasCode t x ↔ HasCode s x := fun x => by unfold HasCode; rw [hat]
  obtain ⟨h1, h2, h3, h4, h5, h6⟩ := h
  refine ⟨?_, ?_, ?_, ?_, ?_, ?_⟩
  · simpa only [hat, hn] using h1
  · simpa only [hat, hhas] using h2
  · simpa only [hat] using h3
  · simpa only [hat] using h4
  · simpa only [hat, hhas] using h5
  · simpa only [hat, hhas, hn] using h6

theorem codeOk_huff_one : CodeOk (huff 1) := codeOk_of_same (s := huff 32) rfl rfl codeOk_huff

/-- The codes of T4 fill 5 bits. -/
theorem witness_HencPacksTheCodes : (huff 32).params.wf = true ∧ GridOk (huff 32) 3 ∧
    FlagsSet (pixv ||| codev) (huff 32) ∧ (∀ v ∈ (huff 32).image 3, HasCode (huff 32) v.toNat) ∧
    ((huff 32).codesOf ((huff 32).image 3)).length ≤ 8 * (huff 32).params.maxStrm := by
  unfold HasCode; decide

/-- A pixel without a code, and a code that passes a bank of 2 bytes: MAXPIX 1 and one pixel with a
code of 17 bits. -/
theorem witness_HencReportsTheFirstBadPixel :
    ends (exec .henc ((huff 32).putPixels [1, 30, 3])) (fun t => t.status == 0x86) = true ∧
    (let s := (huff 32).putPixels [1, 30, 3];
      s.params.wf = true ∧ GridOk s 3 ∧ FlagsSet (pixv ||| codev) s ∧ 1 < 3 ∧
      (∀ v ∈ s.image 1, HasCode s v.toNat) ∧ (s.codesOf (s.image 1)).length ≤ 8 * s.params.maxStrm ∧
      ¬ HasCode s (s.pixAt 1).toNat) ∧
    (let s := { (grid 1 1 [1] 0x0000000F) with
        params := paramsOf 1 2 32, code := small.code.write codeElem 1 ⟨true, 17, 1⟩, ncode := 2 };
      s.params.wf = true ∧ GridOk s 1 ∧ FlagsSet (pixv ||| codev) s ∧ 0 < 1 ∧
      (∀ v ∈ s.image 0, HasCode s v.toNat) ∧ (s.codesOf (s.image 0)).length ≤ 8 * s.params.maxStrm ∧
      HasCode s (s.pixAt 0).toNat ∧ 8 * s.params.maxStrm < (s.codesOf (s.image 1)).length) := by
  unfold HasCode; decide

/-- The image of one intensity, 5. -/
def degenerate : State := { grid 1 5 [] codev with
  code := small.code.write codeElem 5 ⟨true, 1, 0⟩, ncode := 1 }

theorem witness_HdecDegenerateFillsTheGrid : GridOk degenerate 5 ∧ FlagsSet codev degenerate ∧
    degenerate.ncode = 1 ∧ HasCode degenerate (5 : Byte).toNat ∧
    (∀ y, HasCode degenerate y → y = (5 : Byte).toNat) := by
  have key : ∀ y : Nat, y < 256 → (degenerate.codeAt y).present = true → y = 5 := by decide +kernel
  exact ⟨by decide, by decide, rfl, ⟨by decide, by decide⟩, fun y hy => key y hy.1 hy.2⟩

/-- The stream of T4, whose codes fill BITCNT exactly. -/
theorem witness_HdecScansTheCodes : (huff 32).params.wf = true ∧ GridOk (huff 32) 3 ∧
    CodeOk (huff 32) ∧ FlagsSet (codev ||| strmv 0) (huff 32) ∧ (huff 32).ncode ≠ 1 ∧
    (huff 32).slen[(0 : Fin 8)].toNat ≤ (huff 32).params.maxStrm ∧
    (huff 32).bitcnt.toNat ≤ 8 * (huff 32).slen[(0 : Fin 8)].toNat ∧
    ([1, 2, 3] : List Byte).length = 3 ∧
    (∀ v ∈ ([1, 2, 3] : List Byte), HasCode (huff 32) v.toNat ∧
      ((huff 32).codeAt v.toNat).len.toNat ≤ (huff 32).params.maxScan) ∧
    ((huff 32).codesOf [1, 2, 3]).length ≤ (huff 32).bitcnt.toNat ∧
    (huff 32).streamBits ((huff 32).codesOf [1, 2, 3]).length = (huff 32).codesOf [1, 2, 3] := by
  refine ⟨by decide, by decide, codeOk_huff, by decide, by decide, by decide, by decide, by decide,
    by unfold HasCode; decide, by decide, by decide⟩

/-- SLEN0 = MAXSTRM + 1; BITCNT one more than the bytes hold; after two pixels, at bit 4, one bit of
code 10 left (MAXSCAN 32); at bit 0, MAXSCAN 1 with one bit and more left. -/
theorem witness_HdecReportsExhaustedAndUnmatched :
    (∀ m ∈ [1, 32], (huff m).params.wf = true ∧ GridOk (huff m) 3 ∧
      FlagsSet (codev ||| strmv 0) (huff m) ∧ (huff m).ncode ≠ 1) ∧
    (let s := { huff 32 with slen := Vector.replicate 8 129 };
      CodeOk s ∧ s.params.maxStrm < s.slen[(0 : Fin 8)].toNat) ∧
    (let s := { huff 32 with bitcnt := 9 };
      CodeOk s ∧ s.slen[(0 : Fin 8)].toNat ≤ s.params.maxStrm ∧
      8 * s.slen[(0 : Fin 8)].toNat < s.bitcnt.toNat) ∧
    (let s := { huff 32 with bitcnt := 3 };
      CodeOk s ∧ s.slen[(0 : Fin 8)].toNat ≤ s.params.maxStrm ∧
      s.bitcnt.toNat ≤ 8 * s.slen[(0 : Fin 8)].toNat ∧ ([1] : List Byte).length < 3 ∧
      (∀ v ∈ ([1] : List Byte), HasCode s v.toNat ∧ (s.codeAt v.toNat).len.toNat ≤ s.params.maxScan) ∧
      (s.codesOf [1]).length ≤ s.bitcnt.toNat ∧
      s.streamBits (s.codesOf [1]).length = s.codesOf [1] ∧ NoMatchAt s (s.codesOf [1]).length ∧
      s.bitcnt.toNat < (s.codesOf [1]).length + s.params.maxScan) ∧
    (let s := huff 1;
      CodeOk s ∧ s.slen[(0 : Fin 8)].toNat ≤ s.params.maxStrm ∧
      s.bitcnt.toNat ≤ 8 * s.slen[(0 : Fin 8)].toNat ∧ ([] : List Byte).length < 3 ∧
      (s.codesOf []).length ≤ s.bitcnt.toNat ∧
      s.streamBits (s.codesOf []).length = s.codesOf [] ∧ NoMatchAt s (s.codesOf []).length ∧
      (s.codesOf []).length + s.params.maxScan ≤ s.bitcnt.toNat) := by
  refine ⟨by decide, ⟨codeOk_of_same (s := huff 32) rfl rfl codeOk_huff, by decide⟩,
    ⟨codeOk_of_same (s := huff 32) rfl rfl codeOk_huff, by decide⟩,
    ⟨codeOk_of_same (s := huff 32) rfl rfl codeOk_huff, by decide, by decide, by decide, by unfold HasCode; decide,
      by decide, by decide, ?_, by decide⟩,
    ⟨codeOk_huff_one, by decide, by decide, by decide, by decide, by decide, ?_, by decide⟩⟩
  · intro x hx
    rcases hasCode_huff (x := x) hx with rfl | rfl | rfl
    · intro _ h; exact absurd h (by decide)
    · intro _ h; exact absurd h (by decide)
    · intro _ _; exact ⟨0, by decide, by decide⟩
  · intro x hx
    rcases hasCode_huff (x := x) hx with rfl | rfl | rfl
    · intro h; exact absurd h (by decide)
    · intro h; exact absurd h (by decide)
    · intro _ _; exact ⟨0, by decide, by decide⟩

/-- What HDEC reads, with PIX overwritten. -/
def reread (s : State) : State := (after .henc s).putPixels [0, 0, 0]

/-- The longest code of T4 has 2 bits: not more than MAXSCAN 32, and more than MAXSCAN 1, where
pixel 0 of [1, 2, 3] has such a code. -/
theorem witness_HdecUnmatchedExactlyPastMaxscan :
    (CodeOk (huff 32) ∧
      (∀ x, HasCode (huff 32) x → ((huff 32).codeAt x).len.toNat ≤ (huff 32).params.maxScan) ∧
      ends (exec .hdec (huff 32)) (fun _ => true) = true) ∧
    ((huff 1).params.wf = true ∧ GridOk (huff 1) 3 ∧ CodeOk (huff 1) ∧ 2 ≤ (huff 1).ncode.toNat ∧
      exec .henc (huff 1) = .next (after .henc (huff 1)) ∧ (after .henc (huff 1)).status = 0x02 ∧
      SameHuffman (after .henc (huff 1)) (reread (huff 1)) ∧
      FlagsSet (codev ||| strmv 0) (reread (huff 1)) ∧ 0 < 3 ∧
      (huff 1).params.maxScan < ((huff 1).codeAt ((huff 1).pixAt 0).toNat).len.toNat) := by
  refine ⟨⟨codeOk_huff, ?_, by decide⟩, by decide, by decide, codeOk_huff_one, by decide, rfl,
    by decide, ⟨⟨rfl, rfl, rfl, rfl, rfl⟩, rfl, rfl, rfl⟩, by decide, by decide, by decide⟩
  intro x hx; rcases hasCode_huff hx with rfl | rfl | rfl <;> decide

theorem witness_HencThenHdecRestoresTheImage : (huff 32).params.wf = true ∧ GridOk (huff 32) 3 ∧
    CodeOk (huff 32) ∧
    (∀ x, HasCode (huff 32) x → ((huff 32).codeAt x).len.toNat ≤ (huff 32).params.maxScan) ∧
    exec .henc (huff 32) = .next (after .henc (huff 32)) ∧ (after .henc (huff 32)).status = 0x02 ∧
    SameHuffman (after .henc (huff 32)) (reread (huff 32)) ∧
    FlagsSet (codev ||| strmv 0) (reread (huff 32)) := by
  refine ⟨by decide, by decide, codeOk_huff, ?_, rfl, by decide,
    ⟨⟨rfl, rfl, rfl, rfl, rfl⟩, rfl, rfl, rfl⟩, by decide⟩
  intro x hx; rcases hasCode_huff hx with rfl | rfl | rfl <;> decide

theorem eq_of_ends {a : Answer} {u : State} (h : ends a (fun t => decide (t = u)) = true) :
    a = .next u := by
  cases a with
  | next t => rw [of_decide_eq_true h]
  | fault e => cases h
  | refused e => cases h

/-- T4 through the four commands: each leaves what huff lists, and its own RESULT. -/
theorem witness_HuffmanRoundTripRestoresTheImage :
    let s := huff 32
    (s.params.wf = true ∧ GridOk s 3) ∧
    exec .hfreq s = .next { s with status := 2, result := 3 } ∧
    exec .hbuild { s with status := 2, result := 3 } = .next { s with status := 2, result := 3 } ∧
    exec .hgen { s with status := 2, result := 3 } = .next { s with status := 2, result := 2 } ∧
    exec .henc { s with status := 2, result := 2 } = .next { s with status := 2, result := 5 } ∧
    SameHuffman { s with status := 2, result := 5 } (s.putPixels [0, 0, 0]) ∧
    FlagsSet (codev ||| strmv 0) (s.putPixels [0, 0, 0]) ∧
    (2 : Word).toNat ≤ s.params.maxScan :=
  ⟨⟨by decide, by decide⟩, eq_of_ends (by decide +kernel), eq_of_ends (by decide +kernel),
    eq_of_ends (by decide +kernel), eq_of_ends (by decide +kernel),
    ⟨⟨rfl, rfl, rfl, rfl, rfl⟩, rfl, rfl, rfl⟩, by decide, by decide⟩

theorem unlisted_plane : ∀ p : Fin 8,
    (pending (.writeReg 0 (.const 0x33))).plane[p].fill = .zero := by decide

theorem unlisted_strm : ∀ p : Fin 8,
    (pending (.writeReg 0 (.const 0x33))).strm[p].fill = .zero := by decide

/-- A state with every kind of content: a command that writes, pending. -/
theorem witness_EveryStepKeepsTheBuffersCanonical : BuffersOk (pending (.writeReg 0 (.const 0x33))) ∧
    ends (step (pending (.writeReg 0 (.const 0x33)))) (fun _ => true) = true := by
  refine ⟨⟨?_, ?_, ?_, ?_, ?_, ?_, ?_⟩, by decide⟩
  · exact ⟨by decide, by decide, fun _ h => by cases h⟩
  · intro p; refine ⟨?_, ?_, fun n h => ?_⟩
    · revert p; decide
    · revert p; decide
    · rw [unlisted_plane p] at h; cases h
  · exact ⟨by decide, by decide, fun _ h => by cases h⟩
  · exact ⟨by decide, by decide, fun _ h => by cases h⟩
  · exact ⟨by decide, by decide, fun _ h => by cases h⟩
  · intro p; refine ⟨?_, ?_, fun n h => ?_⟩
    · revert p; decide
    · revert p; decide
    · rw [unlisted_strm p] at h; cases h
  · exact ⟨by decide, by decide, fun _ h => by cases h⟩

theorem witness_EveryStepKeepsStatusAndValidLegal :
    RegistersOk (pending (.writeReg 3 (.const 0xFFFFFFFF))) ∧
    ends (step (pending (.writeReg 3 (.const 0xFFFFFFFF)))) (fun _ => true) = true :=
  ⟨registersOk_of (by decide), by decide⟩

theorem treeOk_of_same {s t : State} (hn : t.node = s.node) (hk : t.nsym = s.nsym)
    (hr : t.root = s.root) (h : TreeOk s) : TreeOk t := by
  have hat : ∀ k, t.nodeAt k = s.nodeAt k := fun k => by unfold State.nodeAt; rw [hn]
  have hin : ∀ k, Internal t k ↔ Internal s k := fun k => by unfold Internal; rw [hk, hr]
  have hch : ∀ j k, ChildOf t j k ↔ ChildOf s j k := fun j k => by unfold ChildOf; rw [hat]
  have hkey : ∀ j k, KeyBelow t j k ↔ KeyBelow s j k := fun j k => by unfold KeyBelow; rw [hat, hat]
  obtain ⟨h1, h2, h3, h4, h5, h6, h7, h8, h9, h10, h11⟩ := h
  exact ⟨by simpa only [hk, hr] using h1, by simpa only [hat, hk, hr] using h2,
    by simpa only [hat, hk] using h3, by simpa only [hat, hk] using h4,
    by simpa only [hat, hk] using h5, by simpa only [hat, hin] using h6,
    by simpa only [hat, hin] using h7, by simpa only [hr, hin, hch] using h8,
    by simpa only [hat, hin] using h9, by simpa only [hat, hin, hkey] using h10,
    by simpa only [hat, hin] using h11⟩

/-- TREEV is 1 and the tree is the tree of T4; the step is HBUILD. -/
theorem witness_EveryStepKeepsTheTreeValid : TreeInv (pending (.writeReg 0 (.const 0x31))) ∧
    FlagsSet treev (pending (.writeReg 0 (.const 0x31))) ∧
    ends (step (pending (.writeReg 0 (.const 0x31)))) (fun _ => true) = true :=
  ⟨fun _ => treeOk_of_same (s := huff 32) rfl rfl rfl treeOk_huff, by decide, by decide⟩

/-- CODEV is 1 and the table is the table of T4; the step is HGEN. -/
theorem witness_EveryStepKeepsTheCodeTableValid :
    TreeInv (pending (.writeReg 0 (.const 0x32))) ∧ CodeInv (pending (.writeReg 0 (.const 0x32))) ∧
    FlagsSet codev (pending (.writeReg 0 (.const 0x32))) ∧
    ends (step (pending (.writeReg 0 (.const 0x32)))) (fun _ => true) = true :=
  ⟨fun _ => treeOk_of_same (s := huff 32) rfl rfl rfl treeOk_huff, fun _ => codeOk_of_same (s := huff 32) rfl rfl codeOk_huff,
    by decide, by decide⟩

/-- Two buffers with one element each, written in different ways. -/
theorem witness_BuffersThatReadAlikeAreEqual :
    let m : Memory Byte := Memory.empty.write byteElem 3 7
    let m' : Memory Byte := ((Memory.empty.write byteElem 3 1).write byteElem 4 0).write byteElem 3 7
    m.wf byteElem = true ∧ m'.wf byteElem = true ∧ m.fill = .zero ∧ m'.fill = .zero ∧
    (∀ i, m.get byteElem i = m'.get byteElem i) :=
  ⟨by decide, by decide, rfl, rfl, fun _ => rfl⟩

/-- The first and last register and the last element of banks; an address where nothing stands. -/
theorem witness_BusAccessIsTheMoveOfItsElement : BusInjective (huff 32).params.busMap ∧
    (∀ x ∈ [(BusSpace.reg, 0, 0), (.reg, 23, 92), (.buf (.plane 7), 63, 0x27000003F),
      (.buf (.strm 7), 127, 0x67000007F), (.buf .node, 510, 0x400001FE0), (.buf .vb, 7, 0x700000007)],
      (huff 32).params.busMap.address x.1 x.2.1 = some x.2.2) ∧
    (∀ sp k, (huff 32).params.busMap.address sp k ≠ some 96) := by
  have hM : BusInjective (huff 32).params.busMap :=
    BusMap.suggested_injective (maxPix := 64) (maxVb := 8) (by decide)
  refine ⟨hM, by decide, fun sp k h => ?_⟩
  have h' : (huff 32).params.busMap.locate 96 = none := by decide
  rw [BusMap.locate_of_address hM h] at h'
  cases h'

/-- The reset instance's placement is one that BusMap may be. -/
theorem test_reset_placement_is_injective : BusInjective State.reset.params.busMap :=
  BusMap.suggested_injective (Nat.le_refl _)

end Sys2Proof.Tests
end

/-! SUPPORT. The dimensions enter an operation through GridCheck alone (00_scope.md R10): two pairs
that pass it with the same N give runs that differ in WIDTH and HEIGHT only. Settles O23. -/

namespace Sys2Proof.Machine

/-- The same state with other dimensions. -/
def State.setDims (w h : Word) (s : State) : State := { s with width := w, height := h }

section

variable (w h : Word) (s : State)

/-! ### What reads no dimension -/

theorem pixels_setDims (n : Nat) : (s.setDims w h).pixels n = s.pixels n := rfl

theorem scanCode_setDims (i pos L tries : Nat) :
    (s.setDims w h).scanCode i pos L tries = s.scanCode i pos L tries := by
  induction tries generalizing L with
  | zero => rfl
  | succ tries ih => simp only [State.scanCode, ih]; rfl

theorem scanPixels_setDims (n i pos : Nat) :
    (s.setDims w h).scanPixels n i pos = s.scanPixels n i pos := by
  induction n generalizing i pos with
  | zero => rfl
  | succ n ih => simp only [State.scanPixels, scanCode_setDims, ih]; rfl

/-! ### The end of an operation carries the dimensions along -/

theorem unspecify_setDims (d : Dest) :
    (s.setDims w h).unspecify d = (s.unspecify d).setDims w h := by cases d <;> rfl

theorem raise_setDims (k : ErrKind) (info : Word) (d : Dest) :
    (s.setDims w h).raise k info d = (s.raise k info d).setDims w h := by
  rw [State.raise, unspecify_setDims]; rfl

end

section

variable {w h : Word} {s : State} {n : Nat}

/-- Bodies that differ in the dimensions of the state of a success, and in nothing else, conclude
in answers that differ so: an error is raised over the dimensions of the issue. -/
theorem conclude_setDims (d : Dest) {body body' : Except OpError State}
    (hb : body' = State.setDims w h <$> body) :
    conclude d (s.setDims w h) body' = onNext (State.setDims w h) (conclude d s body) := by
  subst hb
  cases body with
  | ok t => rfl
  | error e => exact congrArg Host.Outcome.next (raise_setDims w h s e.kind e.info d)

/-- When both pairs of dimensions pass GridCheck with n, what is left to compare is the rest of the
body, on that n. -/
theorem conclude_grid_setDims (hg : GridOk s n) (hg' : GridOk (s.setDims w h) n) (d : Dest)
    {rest rest' : Nat → Except OpError State} (hr : rest' n = State.setDims w h <$> rest n) :
    conclude d (s.setDims w h) (gridCheck (s.setDims w h) >>= rest') =
      onNext (State.setDims w h) (conclude d s (gridCheck s >>= rest)) :=
  conclude_setDims d (by
    rw [gridCheck_of_ok hg, gridCheck_of_ok hg', except_ok_bind, except_ok_bind, hr])

/-- Every operation but SRST sees the dimensions only through the N of GridCheck, if at all. -/
theorem exec_setDims (hg : GridOk s n) (hg' : GridOk (s.setDims w h) n) {i : Instr}
    (hi : i ≠ .srst) : exec i (s.setDims w h) = onNext (State.setDims w h) (exec i s) := by
  cases i with
  | venc | vdec | hbuild | hgen =>
    refine conclude_setDims _ ?_
    simp only [map_bind, apply_ite (State.setDims w h <$> ·)]; rfl
  | bpx | bpc | bpenc | bpdec | rgenc | rgdec | henc =>
    refine conclude_grid_setDims hg hg' _ ?_
    simp only [map_bind]; rfl
  | hfreq =>
    refine conclude_grid_setDims hg hg' _ ?_
    simp only [map_bind, pixels_setDims]
    -- `rfl` would otherwise evaluate the 256 counts
    generalize histogram (s.pixels n) = counts
    rfl
  | hdec =>
    refine conclude_grid_setDims hg hg' _ ?_
    simp only [map_bind, apply_ite (State.setDims w h <$> ·), scanPixels_setDims]; rfl
  | srst => exact absurd rfl hi

end

/-- Settles O23: both pairs of dimensions pass GridCheck with the same N, and nothing after it reads
them. -/
theorem onlyTheProductOfTheDimensionsMatters : Obligations.OnlyTheProductOfTheDimensionsMatters :=
  fun _ _ _ _ _ hi hg hg' => exec_setDims hg hg' hi

end Sys2Proof.Machine

/-! SUPPORT. VALID after a host write, bit by bit (10_state.md R34), and the state after reset as the
host reads it (R45). Settles O8 and O13. -/

namespace Sys2Proof.Machine

open Sys2Proof.Config

/-! ### A host write to VALID -/

/-- No flag is both host-settable and derived-only. -/
theorem hostSettable_and_derivedOnly : hostSettable &&& derivedOnly = 0 := by decide

/-- The host-settable and the derived-only flags are all flags. -/
theorem hostSettable_or_derivedOnly : hostSettable ||| derivedOnly = validMask := by decide

section

variable (old w : Word) {b : Nat}

theorem getLsbD_validAfterHostWrite (b : Nat) :
    (validAfterHostWrite old w).getLsbD b =
      (w.getLsbD b && hostSettable.getLsbD b ||
        old.getLsbD b && w.getLsbD b && derivedOnly.getLsbD b) := by
  simp [validAfterHostWrite]

theorem derivedOnly_getLsbD_of_hostSettable (h : hostSettable.getLsbD b = true) :
    derivedOnly.getLsbD b = false := by
  simpa [h] using congrArg (BitVec.getLsbD · b) hostSettable_and_derivedOnly

theorem hostSettable_getLsbD_of_derivedOnly (h : derivedOnly.getLsbD b = true) :
    hostSettable.getLsbD b = false := by
  simpa [h] using congrArg (BitVec.getLsbD · b) hostSettable_and_derivedOnly

/-- A reserved bit is in neither of the two masks. -/
theorem getLsbD_masks_of_reserved (h : validMask.getLsbD b = false) :
    hostSettable.getLsbD b = false ∧ derivedOnly.getLsbD b = false := by
  simpa [← hostSettable_or_derivedOnly] using h

theorem getLsbD_validAfterHostWrite_of_hostSettable (h : hostSettable.getLsbD b = true) :
    (validAfterHostWrite old w).getLsbD b = w.getLsbD b := by
  simp [getLsbD_validAfterHostWrite, h, derivedOnly_getLsbD_of_hostSettable h]

theorem getLsbD_validAfterHostWrite_of_derivedOnly (h : derivedOnly.getLsbD b = true) :
    (validAfterHostWrite old w).getLsbD b = (old.getLsbD b && w.getLsbD b) := by
  simp [getLsbD_validAfterHostWrite, h, hostSettable_getLsbD_of_derivedOnly h]

theorem getLsbD_validAfterHostWrite_of_reserved (h : validMask.getLsbD b = false) :
    (validAfterHostWrite old w).getLsbD b = false := by
  obtain ⟨hs, hd⟩ := getLsbD_masks_of_reserved h
  simp [getLsbD_validAfterHostWrite, hs, hd]

end

/-- The step of a pending host write of a constant to VALID. -/
theorem step_writeReg_valid {s : State} {w : Word} {rest : List HostMove}
    (h : s.script = .writeReg 3 (.const w) :: rest) :
    step s = .next { s with script := rest, valid := validAfterHostWrite s.valid w } := by
  unfold step runNext
  rw [h]
  rfl

theorem keepsAllBut_setScriptValid (s : State) (rest : List HostMove) (v : Word) :
    KeepsAllBut [.valid, .script] s { s with script := rest, valid := v } := by
  intro f hf
  cases f with
  | valid | script => exact absurd (by simp) hf
  | _ => rfl

/-- Settles O8, each bit by the mask it lies in. -/
theorem hostCannotSetDerivedFlags : Obligations.HostCannotSetDerivedFlags := fun s w rest h =>
  ⟨_, step_writeReg_valid h, rfl,
    fun _ => getLsbD_validAfterHostWrite_of_hostSettable s.valid w,
    fun _ => getLsbD_validAfterHostWrite_of_derivedOnly s.valid w,
    fun _ => getLsbD_validAfterHostWrite_of_reserved s.valid w,
    keepsAllBut_setScriptValid s rest _⟩

/-! ### The state after reset -/

section

variable (P : Params) (i : Nat)

@[simp] theorem pixAt_resetWith : (State.resetWith P).pixAt i = 0 := rfl
@[simp] theorem freqAt_resetWith : (State.resetWith P).freqAt i = 0 := rfl
@[simp] theorem nodeAt_resetWith : (State.resetWith P).nodeAt i = nodeElem.zero := rfl
@[simp] theorem codeAt_resetWith : (State.resetWith P).codeAt i = codeElem.zero := rfl
@[simp] theorem vbAt_resetWith : (State.resetWith P).vbAt i = 0 := rfl

@[simp] theorem planeAt_resetWith (p : Fin 8) : (State.resetWith P).planeAt p i = false := by
  simp [State.planeAt, bitElem]

@[simp] theorem strmAt_resetWith (p : Fin 8) : (State.resetWith P).strmAt p i = 0 := by
  simp [State.strmAt, byteElem]

theorem readReg_resetWith (k : Nat) : (State.resetWith P).readReg k = 0 := by
  simp [State.readReg]

theorem readBuf_resetWith (sp : Space) : (State.resetWith P).readBuf sp i = zeroDatum sp := by
  cases sp with
  | pix | freq | node | code | vb => exact congrArg _ (ite_self _)
  | plane p | strm p => simp [State.readBuf, zeroDatum]

end

/-- Settles O13. -/
theorem resetLeavesEverythingZero : Obligations.ResetLeavesEverythingZero := fun P =>
  ⟨readReg_resetWith P, fun sp i => readBuf_resetWith P i sp, rfl, rfl⟩

end Sys2Proof.Machine

/-! SUPPORT. A buffer in canonical form over the reset fill is determined by its elements: an index
is listed exactly when its element is not zero. Settles O59. -/

namespace Sys2Proof.Machine

open Sys2Proof.Config

section

variable {α : Type}

/-! ### Rising lists of cells -/

theorem mem_of_lookupCell {cs : List (Nat × α)} {i : Nat} {v : α} (h : lookupCell cs i = some v) :
    (i, v) ∈ cs := by
  induction cs with
  | nil => cases h
  | cons c cs ih =>
    rw [lookupCell] at h
    split at h
    · next hi => cases hi; cases h; exact List.mem_cons_self
    · exact List.mem_cons_of_mem _ (ih h)

@[simp] theorem lookupCell_cons_self (c : Nat × α) (cs : List (Nat × α)) :
    lookupCell (c :: cs) c.1 = some c.2 := if_pos rfl

theorem lookupCell_cons_of_ne {c : Nat × α} {i : Nat} (cs : List (Nat × α)) (h : c.1 ≠ i) :
    lookupCell (c :: cs) i = lookupCell cs i := if_neg h

theorem risingFrom_cons_iff (lo : Nat) (c : Nat × α) (cs : List (Nat × α)) :
    risingFrom lo (c :: cs) = true ↔ lo ≤ c.1 ∧ risingFrom (c.1 + 1) cs = true := by
  simp [risingFrom]

/-- A rising list lists nothing below its bound. -/
theorem lookupCell_eq_none_of_lt {cs : List (Nat × α)} {lo i : Nat}
    (hr : risingFrom lo cs = true) (hi : i < lo) : lookupCell cs i = none := by
  induction cs generalizing lo with
  | nil => rfl
  | cons c cs ih =>
    obtain ⟨hc, hcs⟩ := (risingFrom_cons_iff lo c cs).1 hr
    rw [lookupCell_cons_of_ne cs (by omega), ih hcs (by omega)]

/-- The head of a rising list is at most the head of another that lists the same indices. -/
theorem head_le_of_lookupCell_eq {c c' : Nat × α} {cs cs' : List (Nat × α)}
    (hr : risingFrom (c.1 + 1) cs = true)
    (h : ∀ i, lookupCell (c :: cs) i = lookupCell (c' :: cs') i) : c.1 ≤ c'.1 := by
  by_contra hlt
  have hc' := h c'.1
  rw [lookupCell_cons_self, lookupCell_cons_of_ne cs (by omega),
    lookupCell_eq_none_of_lt hr (by omega)] at hc'
  cases hc'

/-- Two rising lists that list the same element at every index are equal. -/
theorem eq_of_lookupCell_eq {cs cs' : List (Nat × α)} {lo lo' : Nat}
    (hr : risingFrom lo cs = true) (hr' : risingFrom lo' cs' = true)
    (h : ∀ i, lookupCell cs i = lookupCell cs' i) : cs = cs' := by
  induction cs generalizing cs' lo lo' with
  | nil =>
    cases cs' with
    | nil => rfl
    | cons c' cs' => have := h c'.1; rw [lookupCell_cons_self] at this; cases this
  | cons c cs ih =>
    cases cs' with
    | nil => have := h c.1; rw [lookupCell_cons_self] at this; cases this
    | cons c' cs' =>
      obtain ⟨-, hcs⟩ := (risingFrom_cons_iff _ _ _).1 hr
      obtain ⟨-, hcs'⟩ := (risingFrom_cons_iff _ _ _).1 hr'
      have hidx : c.1 = c'.1 := le_antisymm (head_le_of_lookupCell_eq hcs h)
        (head_le_of_lookupCell_eq hcs' fun i => (h i).symm)
      have hval : c.2 = c'.2 := by
        have hc := h c.1
        rw [lookupCell_cons_self, hidx, lookupCell_cons_self] at hc
        exact Option.some.inj hc
      have htail : ∀ i, lookupCell cs i = lookupCell cs' i := by
        intro i
        by_cases hi : c.1 = i
        · rw [lookupCell_eq_none_of_lt hcs (by omega), lookupCell_eq_none_of_lt hcs' (by omega)]
        · rw [← lookupCell_cons_of_ne cs hi, h i, lookupCell_cons_of_ne cs' (hidx ▸ hi)]
      rw [Prod.ext hidx hval, ih hcs hcs' htail]

/-! ### Buffers over the reset fill -/

variable (e : Elem α) {m m' : Memory α}

theorem Memory.get_of_fill_zero (hz : m.fill = .zero) (i : Nat) :
    m.get e i = (lookupCell m.cells i).getD e.zero := by
  simp [Memory.get, Memory.unlisted, hz]

variable [DecidableEq α]

theorem Memory.wf_iff_of_fill_zero (hz : m.fill = .zero) :
    m.wf e = true ↔ risingFrom 0 m.cells = true ∧ ∀ c ∈ m.cells, c.2 ≠ e.zero := by
  simp [Memory.wf, hz]

/-- What a canonical buffer over the reset fill lists at an index is determined by its element. -/
theorem Memory.lookupCell_cells_of_wf (hm : m.wf e = true) (hz : m.fill = .zero) (i : Nat) :
    lookupCell m.cells i = if m.get e i = e.zero then none else some (m.get e i) := by
  obtain ⟨-, hne⟩ := (Memory.wf_iff_of_fill_zero e hz).1 hm
  rw [Memory.get_of_fill_zero e hz]
  cases hl : lookupCell m.cells i with
  | none => simp
  | some v => simpa using hne _ (mem_of_lookupCell hl)

/-- Canonical buffers over the reset fill that read alike are equal, whatever their elements. -/
theorem Memory.eq_of_get_eq (hm : m.wf e = true) (hm' : m'.wf e = true) (hz : m.fill = .zero)
    (hz' : m'.fill = .zero) (h : ∀ i, m.get e i = m'.get e i) : m = m' := by
  obtain ⟨hr, -⟩ := (Memory.wf_iff_of_fill_zero e hz).1 hm
  obtain ⟨hr', -⟩ := (Memory.wf_iff_of_fill_zero e hz').1 hm'
  have hcells : m.cells = m'.cells := eq_of_lookupCell_eq hr hr' fun i => by
    rw [Memory.lookupCell_cells_of_wf e hm hz, Memory.lookupCell_cells_of_wf e hm' hz', h]
  cases m
  cases m'
  cases hz
  cases hz'
  cases hcells
  rfl

end

/-- Settles O59. -/
theorem buffersThatReadAlikeAreEqual : Obligations.BuffersThatReadAlikeAreEqual :=
  fun _ _ => Memory.eq_of_get_eq byteElem

end Sys2Proof.Machine

/-! SUPPORT. STATUS and VALID between operations (10_state.md R22, R33, R44; 60_exceptions.md R190):
every word that a step puts in STATUS is legal, and every change of VALID keeps the reserved bits 0.
Settles O55. -/

namespace Sys2Proof.Machine

/-! ### Legal words -/

/-- The clauses of `RegistersOk` about STATUS, as a fact about its word. -/
abbrev StatusLegal (w : Word) : Prop :=
  statusBusy w = false ∧ (statusErr w = true ↔ statusErrcode w ≠ 0) ∧
  (statusErr w = true → statusDone w = true) ∧ (statusErrcode w).toNat ≤ 8 ∧
  w &&& ~~~ statusMask = 0

/-- The clause of `RegistersOk` about VALID: the reserved bits are 0. -/
abbrev ValidLegal (w : Word) : Prop := w &&& ~~~ validMask = 0

theorem registersOk_iff (s : State) :
    RegistersOk s ↔ StatusLegal s.status ∧ ValidLegal s.valid :=
  ⟨fun ⟨hbusy, hcode, hdone, hlegal, hres, hvalid⟩ => ⟨⟨hbusy, hcode, hdone, hlegal, hres⟩, hvalid⟩,
    fun ⟨⟨hbusy, hcode, hdone, hlegal, hres⟩, hvalid⟩ => ⟨hbusy, hcode, hdone, hlegal, hres, hvalid⟩⟩

theorem statusLegal_zero : StatusLegal 0 := by decide

theorem statusLegal_statusSuccess : StatusLegal statusSuccess := by decide

theorem statusLegal_statusError (k : ErrKind) : StatusLegal (statusError k) := by
  cases k <;> decide

theorem ValidLegal.or {v w : Word} (hv : ValidLegal v) (hw : ValidLegal w) :
    ValidLegal (v ||| w) := by
  rw [ValidLegal, BitVec.and_or_distrib_right, hv, hw]; rfl

theorem ValidLegal.and_right {w : Word} (hw : ValidLegal w) (v : Word) : ValidLegal (v &&& w) := by
  rw [ValidLegal, BitVec.and_assoc, hw]; exact BitVec.and_zero

theorem ValidLegal.and_left {v : Word} (hv : ValidLegal v) (w : Word) : ValidLegal (v &&& w) :=
  BitVec.and_comm w v ▸ hv.and_right w

theorem validLegal_zero : ValidLegal 0 := by decide

/-- The flags of a destination are flags. -/
theorem validLegal_flags (d : Dest) : ValidLegal d.flags := by
  cases d with
  | plane p | strm p => revert p; decide
  | _ => decide

/-- A host write leaves a legal VALID, whatever VALID and the word were: it lies in the two masks. -/
theorem validLegal_validAfterHostWrite (old w : Word) : ValidLegal (validAfterHostWrite old w) :=
  have hs : ValidLegal hostSettable := by decide
  have hd : ValidLegal derivedOnly := by decide
  (hs.and_right w).or (hd.and_right (old &&& w))

/-! ### The updates of the state -/

section

variable {s t : State}

theorem RegistersOk.of_same (h : RegistersOk s) (hst : t.status = s.status)
    (hv : t.valid = s.valid) : RegistersOk t := by
  rw [registersOk_iff] at h ⊢
  rwa [hst, hv]

theorem RegistersOk.afterCommand (h : RegistersOk s) : RegistersOk s.afterCommand :=
  h.of_same s.afterCommand_status s.afterCommand_valid

theorem registersOk_toReset (s : State) : RegistersOk s.toReset :=
  (registersOk_iff _).2 ⟨statusLegal_zero, validLegal_zero⟩

/-- An error leaves legal registers, whatever STATUS was. -/
theorem registersOk_raise (k : ErrKind) (info : Word) (d : Dest) (h : ValidLegal s.valid) :
    RegistersOk (s.raise k info d) := by
  rw [registersOk_iff, State.raise_status, State.raise_valid]
  exact ⟨statusLegal_statusError k, h.and_left _⟩

/-- A success leaves legal registers, whatever STATUS was. -/
theorem registersOk_finish (r : Word) (d : Dest) (h : ValidLegal s.valid) :
    RegistersOk (s.finish r d) := by
  rw [registersOk_iff, State.finish_status, State.finish_valid]
  exact ⟨statusLegal_statusSuccess, h.or (validLegal_flags d)⟩

theorem State.writeReg_status (s : State) (k : Nat) (w : Word) :
    (s.writeReg k w).status = s.status := keepsAllBut_writeReg s k w .status (by simp)

theorem State.writeReg_valid (s : State) (k : Nat) (w : Word) :
    (s.writeReg k w).valid = if k = 3 then validAfterHostWrite s.valid w else s.valid := by
  unfold State.writeReg
  split_ifs <;> rfl

theorem RegistersOk.writeReg (h : RegistersOk s) (k : Nat) (w : Word) :
    RegistersOk (s.writeReg k w) := by
  rw [registersOk_iff, State.writeReg_status, State.writeReg_valid]
  obtain ⟨hst, hv⟩ := (registersOk_iff s).1 h
  refine ⟨hst, ?_⟩
  split
  · exact validLegal_validAfterHostWrite _ _
  · exact hv

theorem RegistersOk.writeBuf (h : RegistersOk s) (sp : Space) (i v : Nat) :
    RegistersOk (s.writeBuf sp i v) :=
  h.of_same (keepsAllBut_writeBuf s sp i v .status (by simp))
    (keepsAllBut_writeBuf s sp i v .valid (by simp))

/-! ### Operations and steps -/

/-- What an operation writes before its `done` is not VALID. -/
theorem valid_notMem_written (i : Instr) :
    Field.valid ∉ (destination i).fields ++ lengthFields i := by
  cases i <;> simp [destination, Dest.fields, lengthFields]

/-- Every operation leaves legal registers, whatever STATUS was when it was issued. -/
theorem registersOk_exec {i : Instr} (hv : ValidLegal s.valid) (h : exec i s = .next t) :
    RegistersOk t := by
  by_cases hi : i = .srst
  · subst hi
    cases h
    exact registersOk_finish _ _ validLegal_zero
  · obtain ⟨k, -, info, hx⟩ | ⟨u, r, hx, hkeep⟩ := exec_cases i s hi
    · cases hx.symm.trans h
      exact registersOk_raise _ _ _ hv
    · cases hx.symm.trans h
      have hu : u.valid = s.valid := hkeep .valid (valid_notMem_written i)
      exact registersOk_finish _ _ (hu ▸ hv)

/-- Taking a move off the script leaves the registers alone. -/
theorem RegistersOk.setScript (h : RegistersOk s) (rest : List HostMove) :
    RegistersOk { s with script := rest } := h.of_same rfl rfl

theorem RegistersOk.step (hs : RegistersOk s) (h : step s = .next t) : RegistersOk t := by
  obtain ⟨-, rfl⟩ | ⟨m, rest, -, hm⟩ := step_cases s h
  · exact hs
  have hs' := hs.setScript rest
  have hv : ValidLegal (State.begin { s with script := rest }).valid := hs.validReserved
  obtain ⟨ds, rfl⟩ | ⟨k, v, -, -, rfl⟩ | ⟨v, i, u, -, -, hx, rfl⟩ | ⟨v, -, -, rfl⟩ |
    ⟨sp, i, v, -, rfl⟩ | ⟨on, -, rfl⟩ | ⟨-, rfl⟩ := hm
  · exact hs.of_same rfl rfl
  · exact hs'.writeReg _ _
  · exact (registersOk_exec hv hx).afterCommand
  · exact (registersOk_raise _ _ _ hv).afterCommand
  · exact hs'.writeBuf _ _ _
  · exact hs.of_same rfl rfl
  · exact registersOk_toReset _

end

/-- Settles O55, by the cases of a step. -/
theorem everyStepKeepsStatusAndValidLegal : Obligations.EveryStepKeepsStatusAndValidLegal :=
  fun _ _ hs h => hs.step h

end Sys2Proof.Machine

/-! SUPPORT. How many elements each operation writes: no more than its destination holds, whatever the
registers hold (20_memory.md R60). Used for O54. -/

namespace Sys2Proof.Machine

open Sys2Proof.Config

/-! ### Varints and runs -/

theorem length_varint (n : Nat) : (varint n).length = varintLength n := by
  unfold varint varintLength
  split
  · next h => subst h; rfl
  · simp only [List.length_append, List.length_replicate, List.length_singleton]; omega

theorem length_items (L : Nat) (v : Byte) : (items L v).length = 2 * varintLength L := by
  simp [items, length_varint, Nat.mul_comm]

theorem length_pitems (L : Nat) : (pitems L).length = 2 * varintLength L - 1 := by
  rw [pitems, List.length_intersperse, length_varint]

/-- A run's varint takes no more bytes than the run has pixels. -/
theorem varintLength_le_self {L : Nat} (h : 1 ≤ L) : varintLength L ≤ L := by
  unfold varintLength; omega

/-- Where each run of length L takes at most 2 × L − k bytes, some runs take at most two bytes a
pixel, less k for each run. -/
theorem length_flatMap_add_le {α : Type} (k : Nat) {g : Nat × α → List Byte}
    (hg : ∀ r, 1 ≤ r.1 → (g r).length + k ≤ 2 * r.1) {rs : List (Nat × α)}
    (hrs : ∀ r ∈ rs, 1 ≤ r.1) :
    (rs.flatMap g).length + k * rs.length ≤
      2 * (rs.flatMap fun r => List.replicate r.1 r.2).length := by
  induction rs with
  | nil => simp
  | cons r rs ih =>
    obtain ⟨hr, hrest⟩ := List.forall_mem_cons.1 hrs
    have hhead := hg r hr
    have htail := ih hrest
    simp only [List.flatMap_cons, List.length_append, List.length_cons, List.length_replicate,
      Nat.mul_add]
    omega

theorem length_flatMap_runs_add_le {α : Type} [DecidableEq α] (xs : List α) (k : Nat)
    {g : Nat × α → List Byte} (hg : ∀ r, 1 ≤ r.1 → (g r).length + k ≤ 2 * r.1) :
    ((runs xs).flatMap g).length + k * (runs xs).length ≤ 2 * xs.length := by
  obtain ⟨hpos, -, hall⟩ := runs_maximal xs
  simpa only [hall] using length_flatMap_add_le k hg hpos

/-- A grayscale stream has at most two bytes a pixel (42_rle_gray.md R121). -/
theorem length_grayStream_le (px : List Byte) : (grayStream px).length ≤ 2 * px.length := by
  have hruns := length_flatMap_runs_add_le px 0 (g := fun r => items r.1 r.2) fun r hr => by
    have := varintLength_le_self hr
    rw [length_items]; omega
  exact (Nat.le_add_right _ _).trans hruns

/-- A plane's stream has at most two bytes a pixel, the lead byte included: every run leaves one byte
over, and a sequence with a lead byte has a run (43_rle_bitplane.md R131). -/
theorem length_planeStream_le (bits : List Bool) : (planeStream bits).length ≤ 2 * bits.length := by
  have hruns := length_flatMap_runs_add_le bits 1 (g := fun r => pitems r.1) fun r hr => by
    have := varintLength_le_self hr
    rw [length_pitems]; omega
  cases bits with
  | nil => simp [planeStream, runs]
  | cons b bs =>
    obtain ⟨L, rs, hhead⟩ := head_runs b bs
    have hlead : (if (b :: bs).head? = some false then [(0 : Byte)] else []).length ≤ 1 := by
      split <;> simp
    have hrun : 1 ≤ (runs (b :: bs)).length := by simp [hhead]
    rw [planeStream, List.length_append]
    omega

/-! ### The Huffman builder and the packer -/

theorem length_popMin {q rest : List QueueKey} {m : QueueKey} (h : popMin q = some (m, rest)) :
    rest.length + 1 = q.length := (popMin_spec h).1.length_eq

/-- Each merge takes two live nodes and makes one. -/
theorem length_mergeLoop_le (fuel : Nat) (made : List NodeRec) (live : List QueueKey) :
    (mergeLoop fuel made live).length ≤ made.length + (live.length - 1) := by
  fun_induction mergeLoop fuel made live
  case case1 | case2 | case3 => omega
  case case4 h₁ _ _ h₂ ih =>
    have hfirst := length_popMin h₁
    have hsecond := length_popMin h₂
    simp only [List.length_append, List.length_cons, List.length_nil] at ih
    omega

theorem length_queueKeys (k : Nat) (ns : List NodeRec) : (queueKeys k ns).length = ns.length := by
  induction ns generalizing k with
  | nil => rfl
  | cons n ns ih => simp [queueKeys, ih]

theorem length_leafNodes_le (s : State) : s.leafNodes.length ≤ symbols := by
  rw [State.leafNodes, List.length_map]
  exact (List.length_filter_le _ _).trans_eq List.length_range

/-- The tree of at most 256 leaves fits NODE (44_huffman_build.md R143). -/
theorem length_huffmanNodes_le (s : State) : (huffmanNodes s.leafNodes).length ≤ nodes := by
  have hmade := length_mergeLoop_le s.leafNodes.length s.leafNodes (queueKeys 0 s.leafNodes)
  have hleaves := length_leafNodes_le s
  rw [length_queueKeys] at hmade
  unfold huffmanNodes
  unfold symbols at hleaves
  unfold nodes
  omega

theorem length_packedBytes (bits : List Bool) :
    (packedBytes bits).length = (bits.length + 7) / 8 := by simp [packedBytes]

/-! ### What a body that ends well is known to give -/

/-- What the computation answers, if it answers without an error, has the property. -/
abbrev SucceedsWith {α : Type} (P : α → Prop) (x : Except OpError α) : Prop := ∀ a, x = .ok a → P a

section

variable {α β : Type} {P : α → Prop} {Q : β → Prop}

theorem succeedsWith_ok {a : α} (h : P a) : SucceedsWith P (.ok a) := by
  intro b hb; cases hb; exact h

theorem succeedsWith_error (e : OpError) : SucceedsWith P (.error e) := by
  intro b hb; cases hb

theorem succeedsWith_bind {x : Except OpError α} {f : α → Except OpError β}
    (hx : SucceedsWith P x) (hf : ∀ a, P a → SucceedsWith Q (f a)) : SucceedsWith Q (x >>= f) := by
  cases x with
  | ok a => exact hf a (hx a rfl)
  | error e => exact succeedsWith_error e

/-- A check of which nothing more is used. -/
theorem succeedsWith_check {x : Except OpError α} {f : α → Except OpError β}
    (hf : ∀ a, SucceedsWith Q (f a)) : SucceedsWith Q (x >>= f) :=
  succeedsWith_bind (P := fun _ => True) (fun _ _ => trivial) fun a _ => hf a

end

theorem succeedsWith_gridCheck (s : State) :
    SucceedsWith (fun n => n ≤ s.params.maxPix) (gridCheck s) := by
  intro n h
  obtain ⟨-, -, -, hn⟩ := (gridCheck_ok_iff s n).1 h
  exact hn

/-- RGDEC's replay gives exactly the pixels that are missing. -/
theorem succeedsWith_grayReplay (n : Nat) (bs : List Byte) (i pos : Nat) :
    SucceedsWith (fun r => r.1.length = n - i) (grayReplay n bs i pos) := by
  fun_induction grayReplay n bs i pos
  case case1 h => exact succeedsWith_ok (Nat.sub_eq_zero_of_le h).symm
  case case2 => exact succeedsWith_error _
  case case3 ih =>
    refine succeedsWith_bind ih fun r hr => succeedsWith_ok ?_
    rw [List.length_append, List.length_replicate, hr]
    omega
  case case4 h _ => exact succeedsWith_ok (Nat.sub_eq_zero_of_le h).symm
  case case5 => exact succeedsWith_error _

/-- BPDEC's replay gives exactly the pixels that are missing. -/
theorem succeedsWith_planeReplay (n : Nat) (bs : List Byte) (i pos : Nat) (c : Bool) :
    SucceedsWith (fun r => r.1.length = n - i) (planeReplay n bs i pos c) := by
  fun_induction planeReplay n bs i pos c
  case case1 h => exact succeedsWith_ok (Nat.sub_eq_zero_of_le h).symm
  case case2 => exact succeedsWith_error _
  case case3 h => exact succeedsWith_ok (Nat.sub_eq_zero_of_le h).symm
  case case4 => exact succeedsWith_error _
  case case5 ih =>
    refine succeedsWith_bind ih fun r hr => succeedsWith_ok ?_
    rw [List.length_append, List.length_replicate, hr]
    omega

/-- HDEC's scan gives one intensity for every pixel. -/
theorem succeedsWith_scanPixels (s : State) (n i pos : Nat) :
    SucceedsWith (fun r => r.1.length = n) (s.scanPixels n i pos) := by
  induction n generalizing i pos with
  | zero => exact succeedsWith_ok rfl
  | succ n ih =>
    exact succeedsWith_check fun _ => succeedsWith_bind (ih _ _) fun _ hr =>
      succeedsWith_ok (congrArg Nat.succ hr)

/-- HENC's packing goes no further than the capacity it is given (45_huffman_stream.md R161). -/
theorem succeedsWith_packCodes (code : Nat → CodeRec) {capacity : Nat} (px : List Byte) (i : Nat)
    {cnt : Nat} (h : cnt ≤ capacity) :
    SucceedsWith (fun bits => cnt + bits.length ≤ capacity) (packCodes code capacity px i cnt) := by
  fun_induction packCodes code capacity px i cnt
  case case1 => exact succeedsWith_ok h
  case case2 => exact succeedsWith_error _
  case case3 => exact succeedsWith_error _
  case case4 hfits ih =>
    refine succeedsWith_bind (ih (Nat.not_lt.1 hfits)) fun bits hbits => succeedsWith_ok ?_
    rw [List.length_append, length_codeBits]
    omega

end Sys2Proof.Machine

/-! SUPPORT. Every buffer stays canonical, inside its capacity and unspecified only by a draw already
made (20_memory.md R60; notes/assumptions/2.md and 4.md), said once for each update of the state.
Settles O54. -/

namespace Sys2Proof.Machine

open Sys2Proof.Config

/-! ### One buffer -/

section

variable {α : Type} [DecidableEq α] {e : Elem α} {capacity draws : Nat} {m : Memory α}

theorem Memory.sound_empty : (Memory.empty : Memory α).sound e capacity draws := by
  refine ⟨Memory.wf_empty e, Memory.within_empty capacity, ?_⟩
  rintro n ⟨⟩

theorem Memory.sound_unspecified {n : Nat} (hn : n < draws) :
    (Memory.unspecified n : Memory α).sound e capacity draws := by
  refine ⟨Memory.wf_unspecified e n, Memory.within_unspecified n capacity, ?_⟩
  rintro _ ⟨⟩
  exact hn

/-- Draws that are made later leave a buffer sound. -/
theorem Memory.sound_mono {draws' : Nat} (hd : draws ≤ draws') (h : m.sound e capacity draws) :
    m.sound e capacity draws' := by
  obtain ⟨hwf, hin, hfill⟩ := h
  exact ⟨hwf, hin, fun n hn => (hfill n hn).trans_le hd⟩

theorem Memory.sound_write {i : Nat} (v : α) (hi : i < capacity) (h : m.sound e capacity draws) :
    (m.write e i v).sound e capacity draws := by
  obtain ⟨hwf, hin, hfill⟩ := h
  exact ⟨Memory.wf_write e m i v hwf, Memory.within_write e m i v hi hin,
    fun n hn => hfill n (Memory.write_fill e m i v ▸ hn)⟩

theorem Memory.sound_writeFrom {vs : List α} (hl : vs.length ≤ capacity)
    (h : m.sound e capacity draws) : (m.writeFrom e 0 vs).sound e capacity draws := by
  obtain ⟨hwf, hin, hfill⟩ := h
  exact ⟨Memory.wf_writeFrom e m 0 vs hwf,
    Memory.within_writeFrom e m 0 vs ((Nat.zero_add _).trans_le hl) hin,
    fun n hn => hfill n (Memory.writeFrom_fill e m 0 vs ▸ hn)⟩

/-- One bank changed, all eight sound. -/
theorem Memory.sound_set {banks : Vector (Memory α) 8}
    (hb : ∀ q : Fin 8, banks[q].sound e capacity draws) (p : Fin 8)
    (hm : m.sound e capacity draws) (q : Fin 8) :
    (banks.set p.val m p.isLt)[q].sound e capacity draws := by
  by_cases h : p = q
  · subst h; simpa using hm
  · have hval : p.val ≠ q.val := fun h' => h (Fin.ext h')
    simpa [hval] using hb q

end

/-- The table that HGEN writes lists intensities only, each below 256. -/
theorem sound_codeTable (codes : List (Byte × List Bool)) (draws : Nat) :
    (codeTable codes).sound codeElem symbols draws := by
  have key : ∀ m : Memory CodeRec, m.sound codeElem symbols draws →
      (codes.foldl (fun m c => m.write codeElem c.1.toNat (codeRec c.2)) m).sound
        codeElem symbols draws := by
    induction codes with
    | nil => exact fun m hm => hm
    | cons c cs ih => exact fun m hm => ih _ (Memory.sound_write _ c.1.isLt hm)
  exact key _ Memory.sound_empty

/-! ### The updates of the state -/

section

variable {s : State}

theorem BuffersOk.setScript (h : BuffersOk s) (rest : List HostMove) :
    BuffersOk { s with script := rest } := { h with }

theorem BuffersOk.setBitcnt (h : BuffersOk s) (w : Word) : BuffersOk { s with bitcnt := w } :=
  { h with }

theorem BuffersOk.begin (h : BuffersOk s) : BuffersOk s.begin := { h with }

theorem BuffersOk.finish (h : BuffersOk s) (r : Word) (d : Dest) : BuffersOk (s.finish r d) :=
  { h with }

theorem BuffersOk.afterCommand (h : BuffersOk s) : BuffersOk s.afterCommand := by
  unfold State.afterCommand
  split
  · exact h.setScript []
  · exact h

theorem BuffersOk.putPixels {vs : List Byte} (h : BuffersOk s)
    (hl : vs.length ≤ s.params.maxPix) : BuffersOk (s.putPixels vs) :=
  { h with pix := Memory.sound_writeFrom hl h.pix }

theorem BuffersOk.putPlane {vs : List Bool} (h : BuffersOk s) (p : Fin 8)
    (hl : vs.length ≤ s.params.maxPix) : BuffersOk (s.putPlane p vs) :=
  { h with plane := Memory.sound_set h.plane p (Memory.sound_writeFrom hl (h.plane p)) }

theorem BuffersOk.putStream {vs : List Byte} (h : BuffersOk s) (p : Fin 8)
    (hl : vs.length ≤ s.params.maxStrm) : BuffersOk (s.putStream p vs) :=
  { h with strm := Memory.sound_set h.strm p (Memory.sound_writeFrom hl (h.strm p)) }

theorem BuffersOk.setPlanes {f : Fin 8 → Memory Bool} (h : BuffersOk s)
    (hf : ∀ p, (f p).sound bitElem s.params.maxPix s.draws) :
    BuffersOk { s with plane := Vector.ofFn f } :=
  { h with plane := fun p => by simpa using hf p }

theorem BuffersOk.setVb {m : Memory Byte} (h : BuffersOk s)
    (hm : m.sound byteElem s.params.maxVb s.draws) (w : Word) :
    BuffersOk { s with vb := m, vlen := w } := { h with vb := hm }

theorem BuffersOk.setFreq {m : Memory Word} (h : BuffersOk s)
    (hm : m.sound freqElem symbols s.draws) : BuffersOk { s with freq := m } := { h with freq := hm }

theorem BuffersOk.setTree {m : Memory NodeRec} (h : BuffersOk s)
    (hm : m.sound nodeElem nodes s.draws) (k r : Word) :
    BuffersOk { s with node := m, nsym := k, root := r } := { h with node := hm }

theorem BuffersOk.setCode {m : Memory CodeRec} (h : BuffersOk s)
    (hm : m.sound codeElem symbols s.draws) (k : Word) :
    BuffersOk { s with code := m, ncode := k } := { h with code := hm }

theorem BuffersOk.addDraws (h : BuffersOk s) (k : Nat) :
    BuffersOk { s with draws := s.draws + k } :=
  have hd : s.draws ≤ s.draws + k := Nat.le_add_right _ _
  { pix := Memory.sound_mono hd h.pix
    plane := fun p => Memory.sound_mono hd (h.plane p)
    freq := Memory.sound_mono hd h.freq
    node := Memory.sound_mono hd h.node
    code := Memory.sound_mono hd h.code
    strm := fun p => Memory.sound_mono hd (h.strm p)
    vb := Memory.sound_mono hd h.vb }

/-- A destination becomes unspecified by draws that it makes itself. -/
theorem BuffersOk.unspecify (h : BuffersOk s) (d : Dest) : BuffersOk (s.unspecify d) := by
  have hnew : s.draws < s.draws + 1 := Nat.lt_succ_self _
  cases d with
  | none => exact h
  | pix => exact { h.addDraws 1 with pix := Memory.sound_unspecified hnew }
  | planes =>
    refine (h.addDraws 8).setPlanes fun p => Memory.sound_unspecified ?_
    exact Nat.add_lt_add_left p.isLt s.draws
  | plane p =>
    have hs := h.addDraws 1
    exact { hs with plane := Memory.sound_set hs.plane p (Memory.sound_unspecified hnew) }
  | freq => exact { h.addDraws 1 with freq := Memory.sound_unspecified hnew }
  | node => exact { h.addDraws 1 with node := Memory.sound_unspecified hnew }
  | code => exact { h.addDraws 1 with code := Memory.sound_unspecified hnew }
  | strm p =>
    have hs := h.addDraws 1
    exact { hs with strm := Memory.sound_set hs.strm p (Memory.sound_unspecified hnew) }
  | vb => exact { h.addDraws 1 with vb := Memory.sound_unspecified hnew }

theorem BuffersOk.raise (h : BuffersOk s) (k : ErrKind) (info : Word) (d : Dest) :
    BuffersOk (s.raise k info d) := { h.unspecify d with }

theorem BuffersOk.toReset (s : State) : BuffersOk s.toReset where
  pix := Memory.sound_empty
  plane p := by simpa using Memory.sound_empty
  freq := Memory.sound_empty
  node := Memory.sound_empty
  code := Memory.sound_empty
  strm p := by simpa using Memory.sound_empty
  vb := Memory.sound_empty

theorem BuffersOk.writeReg (h : BuffersOk s) (k : Nat) (w : Word) : BuffersOk (s.writeReg k w) := by
  unfold State.writeReg
  split_ifs
  all_goals exact { h with }

/-- A host write reaches only an element that exists. -/
theorem BuffersOk.writeBuf (h : BuffersOk s) (sp : Space) (i v : Nat) :
    BuffersOk (s.writeBuf sp i v) := by
  cases sp with
  | plane p | node | code => exact h
  | pix =>
    by_cases hi : i < s.params.maxPix
    · rw [State.writeBuf, if_pos hi]
      exact { h with pix := Memory.sound_write _ hi h.pix }
    · rwa [State.writeBuf, if_neg hi]
  | freq =>
    by_cases hi : i < symbols
    · rw [State.writeBuf, if_pos hi]
      exact h.setFreq (Memory.sound_write _ hi h.freq)
    · rwa [State.writeBuf, if_neg hi]
  | vb =>
    by_cases hi : i < s.params.maxVb
    · rw [State.writeBuf, if_pos hi]
      exact { h with vb := Memory.sound_write _ hi h.vb }
    · rwa [State.writeBuf, if_neg hi]
  | strm p =>
    by_cases hp : p < 8
    · by_cases hi : i < s.params.maxStrm
      · rw [State.writeBuf, dif_pos hp, if_pos hi]
        exact { h with
          strm := Memory.sound_set h.strm ⟨p, hp⟩ (Memory.sound_write _ hi (h.strm ⟨p, hp⟩)) }
      · rwa [State.writeBuf, dif_pos hp, if_neg hi]
    · rwa [State.writeBuf, dif_neg hp]

/-! ### Operations and steps -/

variable {t : State}

/-- An operation keeps the buffers if its success does: its error always does. -/
theorem buffersOk_conclude (h : BuffersOk s) {d : Dest} {body : Except OpError State}
    (hb : SucceedsWith BuffersOk body) (ht : conclude d s body = .next t) : BuffersOk t := by
  obtain ⟨u, hu, hc⟩ | ⟨k, info, -, hc⟩ := conclude_cases s d body
  · cases hc.symm.trans ht
    exact hb _ hu
  · cases hc.symm.trans ht
    exact h.raise k info d

/-- The body of a grid operation, given that N is at most MAXPIX. -/
theorem succeedsWith_gridBody {m : Word} {rest : Nat → Except OpError State}
    (hr : ∀ n, n ≤ s.params.maxPix → SucceedsWith BuffersOk (rest n)) :
    SucceedsWith BuffersOk (do let n ← gridCheck s; requireFlags m s; rest n) :=
  succeedsWith_bind (succeedsWith_gridCheck s) fun n hn => succeedsWith_check fun _ => hr n hn

theorem buffersOk_exec {i : Instr} (hs : BuffersOk s) (h : exec i s = .next t) : BuffersOk t := by
  have twice : ∀ {n : Nat}, n ≤ s.params.maxPix → 2 * n ≤ s.params.maxStrm :=
    fun hn => Nat.mul_le_mul_left 2 hn
  cases i with
  | venc =>
    refine buffersOk_conclude hs ?_ h
    split
    · exact succeedsWith_error _
    · next hfits =>
      refine succeedsWith_ok ((hs.setVb (Memory.sound_writeFrom ?_ hs.vb) _).finish _ _)
      rw [length_varint]
      exact Nat.not_lt.1 hfits
  | vdec =>
    refine buffersOk_conclude hs (succeedsWith_check fun _ => ?_) h
    split
    · exact succeedsWith_error _
    · split
      · exact succeedsWith_error _
      · exact succeedsWith_ok (hs.finish _ _)
  | bpx =>
    refine buffersOk_conclude hs (succeedsWith_gridBody fun n hn => succeedsWith_ok ?_) h
    refine (hs.setPlanes fun p => Memory.sound_writeFrom ?_ (hs.plane p)).finish _ _
    simpa using hn
  | bpc =>
    refine buffersOk_conclude hs (succeedsWith_gridBody fun n hn => succeedsWith_ok ?_) h
    exact (hs.putPixels (by simpa using hn)).finish _ _
  | bpenc p =>
    refine buffersOk_conclude hs (succeedsWith_gridBody fun n hn => succeedsWith_ok ?_) h
    refine (hs.putStream p ((length_planeStream_le _).trans ?_)).finish _ _
    simpa using twice hn
  | bpdec p =>
    refine buffersOk_conclude hs (succeedsWith_gridBody fun n hn => succeedsWith_check fun _ =>
      succeedsWith_bind (succeedsWith_planeReplay _ _ _ _ _) fun r hr => succeedsWith_ok ?_) h
    exact (hs.putPlane p (hr.trans_le hn)).finish _ _
  | rgenc =>
    refine buffersOk_conclude hs (succeedsWith_gridBody fun n hn => succeedsWith_ok ?_) h
    refine (hs.putStream 0 ((length_grayStream_le _).trans ?_)).finish _ _
    simpa using twice hn
  | rgdec =>
    refine buffersOk_conclude hs (succeedsWith_gridBody fun n hn => succeedsWith_check fun _ =>
      succeedsWith_bind (succeedsWith_grayReplay _ _ _ _) fun r hr => succeedsWith_ok ?_) h
    exact (hs.putPixels (hr.trans_le hn)).finish _ _
  | hfreq =>
    refine buffersOk_conclude hs (succeedsWith_gridBody fun n hn => succeedsWith_ok ?_) h
    refine (hs.setFreq (Memory.sound_writeFrom ?_ Memory.sound_empty)).finish _ _
    simp [histogram]
  | hbuild =>
    refine buffersOk_conclude hs (succeedsWith_check fun _ => ?_) h
    split
    · exact succeedsWith_error _
    · refine succeedsWith_ok ((hs.setTree (Memory.sound_writeFrom ?_ hs.node) _ _).finish _ _)
      exact length_huffmanNodes_le s
  | hgen =>
    refine buffersOk_conclude hs (succeedsWith_check fun _ => succeedsWith_ok ?_) h
    exact (hs.setCode (sound_codeTable _ _) _).finish _ _
  | henc =>
    refine buffersOk_conclude hs (succeedsWith_gridBody fun n hn =>
      succeedsWith_bind (succeedsWith_packCodes _ _ _ (Nat.zero_le _)) fun bits hbits =>
      succeedsWith_ok ?_) h
    refine ((hs.setBitcnt _).putStream 0 ?_).finish _ _
    rw [length_packedBytes]
    change _ ≤ s.params.maxStrm
    omega
  | hdec =>
    refine buffersOk_conclude hs (succeedsWith_gridBody fun n hn => ?_) h
    split
    · exact succeedsWith_ok ((hs.putPixels (by simpa using hn)).finish _ _)
    · refine succeedsWith_check fun _ => succeedsWith_check fun _ => ?_
      split
      · exact succeedsWith_error _
      · exact succeedsWith_bind (succeedsWith_scanPixels s _ _ _) fun r hr =>
          succeedsWith_ok ((hs.putPixels (hr.trans_le hn)).finish _ _)
  | srst =>
    exact buffersOk_conclude (d := .none) hs
      (succeedsWith_ok ((BuffersOk.toReset s).finish _ _)) h

theorem BuffersOk.step (hs : BuffersOk s) (h : step s = .next t) : BuffersOk t := by
  obtain ⟨-, rfl⟩ | ⟨m, rest, -, hm⟩ := step_cases s h
  · exact hs
  have hs' := hs.setScript rest
  obtain ⟨ds, rfl⟩ | ⟨k, v, -, -, rfl⟩ | ⟨v, i, u, -, -, hx, rfl⟩ | ⟨v, -, -, rfl⟩ |
    ⟨sp, i, v, -, rfl⟩ | ⟨on, -, rfl⟩ | ⟨-, rfl⟩ := hm
  · exact { hs with }
  · exact hs'.writeReg _ _
  · exact (buffersOk_exec hs'.begin hx).afterCommand
  · exact (hs'.begin.raise _ _ _).afterCommand
  · exact hs'.writeBuf _ _ _
  · exact { hs with }
  · exact BuffersOk.toReset _

end

/-- Settles O54, by the cases of a step: each operation writes no more elements than its destination
holds, and an error makes its own draws. -/
theorem everyStepKeepsTheBuffersCanonical : Obligations.EveryStepKeepsTheBuffersCanonical :=
  fun _ _ hs h => hs.step h

end Sys2Proof.Machine

/-! SUPPORT. The step of each host access to a register or a buffer, and what a host read returns
(20_memory.md R60, R61 and R70). Settles O9 and O10. -/

namespace Sys2Proof.Machine

open Sys2Proof.Config

/-! ### The step of an access -/

section

variable {s : State} {rest : List HostMove}

theorem step_of_script {m : HostMove} (h : s.script = m :: rest) :
    step s = runMove m { s with script := rest } := by
  unfold step runNext
  rw [h]

theorem step_readReg {k : Nat} (h : s.script = .readReg k :: rest) :
    step s = .next { s with script := rest, readings := .word (s.readReg k) :: s.readings } :=
  step_of_script h

theorem step_readBuf {sp : Space} {i : Nat} (h : s.script = .readBuf sp i :: rest) :
    step s = .next { s with script := rest, readings := s.readBuf sp i :: s.readings } :=
  step_of_script h

theorem step_writeBuf {sp : Space} {i v : Nat} (h : s.script = .writeBuf sp i v :: rest) :
    step s = .next (State.writeBuf sp i v { s with script := rest }) := step_of_script h

/-- The pending moves are not what a word is made of. -/
theorem hostWord_setScript (s : State) (rest : List HostMove) (n : HostWord) :
    State.hostWord { s with script := rest } n = s.hostWord n := by cases n <;> rfl

/-- The pending moves are not what a range read returns. -/
theorem readBufRange_setScript (s : State) (rest : List HostMove) (sp : Space) (i n : Nat) :
    State.readBufRange { s with script := rest } sp i n = s.readBufRange sp i n := by
  induction n generalizing i with
  | zero => rfl
  | succ n ih => simp only [State.readBufRange, ih]; rfl

theorem step_readRange {sp : Space} {i : Nat} {n : HostWord}
    (h : s.script = .readRange sp i n :: rest) :
    step s = .next { s with
      script := rest
      readings := s.readBufRange sp i (s.hostWord n).toNat ++ s.readings } := by
  rw [step_of_script h, runMove, hostWord_setScript, readBufRange_setScript]

theorem keepsAllBut_setReadings (s : State) (rest : List HostMove) (rs : List HostDatum) :
    KeepsAllBut [.readings, .script] s { s with script := rest, readings := rs } := by
  intro f hf
  cases f with
  | readings | script => exact absurd (by simp) hf
  | _ => rfl

theorem keepsAllBut_setScript (s : State) (rest : List HostMove) :
    KeepsAllBut [.script] s { s with script := rest } := by
  intro f hf
  cases f with
  | script => exact absurd (by simp) hf
  | _ => rfl

/-- What is left alone twice in a row is left alone by the two together. -/
theorem keepsAllBut_trans {l : List Field} {t u : State} (hst : KeepsAllBut l s t)
    (htu : KeepsAllBut l t u) : KeepsAllBut l s u := by
  intro f hf
  have h₁ := hst f hf
  have h₂ := htu f hf
  cases f with
  | _ => exact h₂.trans h₁

/-- What the step of a buffer write can touch. -/
theorem keepsAllBut_setScript_writeBuf (s : State) (rest : List HostMove) (sp : Space) (i v : Nat) :
    KeepsAllBut ([.pix, .freq, .vb, .script] ++ (List.finRange 8).map .strm) s
      (State.writeBuf sp i v { s with script := rest }) :=
  keepsAllBut_trans (keepsAllBut_mono (keepsAllBut_setScript s rest) (by simp))
    (keepsAllBut_mono (keepsAllBut_writeBuf _ sp i v)
      (List.append_subset.2 ⟨by simp, List.subset_append_right _ _⟩))

end

/-! ### What a read returns -/

section

variable (s : State)

/-- From number 12 on only the length registers of the stream banks read as anything but 0. -/
theorem readReg_of_le {k : Nat} (h : 12 ≤ k) :
    s.readReg k = if hk : 16 ≤ k ∧ k < 24 then s.slen[k - 16] else 0 := by
  unfold State.readReg
  iterate 11 rw [if_neg (by omega)]

theorem readReg_slen (p : Fin 8) : s.readReg (16 + p.val) = s.slen[p] := by
  rw [readReg_of_le s (by omega), dif_pos (by omega)]
  simp

theorem readReg_reserved {k : Nat} (h : 12 ≤ k ∧ k ≤ 15 ∨ 24 ≤ k) : s.readReg k = 0 := by
  rw [readReg_of_le s (by omega), dif_neg (by omega)]

theorem readBuf_pix {i : Nat} (h : i < s.params.maxPix) : s.readBuf .pix i = .byte (s.pixAt i) :=
  congrArg _ (if_pos h)

theorem readBuf_plane (p : Fin 8) {i : Nat} (h : i < s.params.maxPix) :
    s.readBuf (.plane p.val) i = .bit (s.planeAt p i) := by
  rw [State.readBuf, dif_pos p.isLt, if_pos h]

theorem readBuf_freq {i : Nat} (h : i < symbols) : s.readBuf .freq i = .word (s.freqAt i) :=
  congrArg _ (if_pos h)

theorem readBuf_node {i : Nat} (h : i < nodes) : s.readBuf .node i = .node (s.nodeAt i) :=
  congrArg _ (if_pos h)

theorem readBuf_code {i : Nat} (h : i < symbols) : s.readBuf .code i = .code (s.codeAt i) :=
  congrArg _ (if_pos h)

theorem readBuf_strm (p : Fin 8) {i : Nat} (h : i < s.params.maxStrm) :
    s.readBuf (.strm p.val) i = .byte (s.strmAt p i) := by
  rw [State.readBuf, dif_pos p.isLt, if_pos h]

theorem readBuf_vb {i : Nat} (h : i < s.params.maxVb) : s.readBuf .vb i = .byte (s.vbAt i) :=
  congrArg _ (if_pos h)

/-- An element that does not exist reads 0 (20_memory.md R61). -/
theorem readBuf_of_not_has {sp : Space} {i : Nat} (h : sp.has s.params i = false) :
    s.readBuf sp i = zeroDatum sp := by
  cases sp with
  | pix | freq | node | code | vb => exact congrArg _ (if_neg (of_decide_eq_false h))
  | plane p =>
    by_cases hp : p < 8
    · have hi : ¬ i < s.params.maxPix := by simpa [Space.has, hp] using h
      rw [State.readBuf, dif_pos hp, if_neg hi]; rfl
    · rw [State.readBuf, dif_neg hp]; rfl
  | strm p =>
    by_cases hp : p < 8
    · have hi : ¬ i < s.params.maxStrm := by simpa [Space.has, Params.maxStrm, hp] using h
      rw [State.readBuf, dif_pos hp, if_neg hi]; rfl
    · rw [State.readBuf, dif_neg hp]; rfl

end

/-- Settles O9. -/
theorem hostBufferAccessIsOneElement : Obligations.HostBufferAccessIsOneElement := by
  intro s sp i v rest h
  refine ⟨_, step_writeBuf h, readBuf_writeBuf_same { s with script := rest } v, ?_, ?_,
    readBuf_of_not_has s, keepsAllBut_setScript_writeBuf s rest sp i v⟩
  · exact fun sp' i' hne => readBuf_writeBuf_other { s with script := rest } v hne
  · intro hignored
    rw [writeBuf_ignored { s with script := rest } v hignored]
    exact keepsAllBut_setScript s rest

/-- Settles O10: the three kinds of read, the registers by number, the elements by space. -/
theorem hostReadsChangeNothing : Obligations.HostReadsChangeNothing := by
  intro s rest
  refine ⟨?_, ?_, ?_, ?_, ?_⟩
  · exact fun k h => ⟨_, step_readReg h, rfl, rfl, keepsAllBut_setReadings s rest _⟩
  · exact fun sp i h => ⟨_, step_readBuf h, rfl, rfl, keepsAllBut_setReadings s rest _⟩
  · intro sp i n h
    refine ⟨_, step_readRange h, rfl, ?_, keepsAllBut_setReadings s rest _⟩
    rw [List.reverse_append, reverse_readBufRange]
  · exact ⟨rfl, rfl, rfl, rfl, rfl, rfl, rfl, rfl, rfl, rfl, rfl, rfl, readReg_slen s,
      fun _ => readReg_reserved s⟩
  · exact ⟨fun _ => readBuf_pix s, fun p _ => readBuf_plane s p, fun _ => readBuf_freq s,
      fun _ => readBuf_node s, fun _ => readBuf_code s, fun p _ => readBuf_strm s p,
      fun _ => readBuf_vb s⟩

end Sys2Proof.Machine

/-! SUPPORT. The move that an access on the bus is (20_memory.md R71, 92_eei_decisions.md D31).
Settles O60. -/

namespace Sys2Proof.Machine

open Sys2Proof.Config

section

variable {s : State} {a : Nat}

/-- Under an injective placement an access to the address of a register or element is the host's
read or write of it. -/
theorem withBusAccesses_of_address (hM : BusInjective s.params.busMap) {sp : BusSpace} {k : Nat}
    (h : s.params.busMap.address sp k = some a) (v : Nat) :
    s.withBusAccesses [.read a, .write a v] =
      { s with script := s.script ++ [readMove sp k, writeMove sp k v] } := by
  have hl := BusMap.locate_of_address hM h
  simp [State.withBusAccesses, BusAccess.move?, hl]

/-- An access to an address where nothing stands is no move. -/
theorem withBusAccesses_of_empty (h : ∀ sp k, s.params.busMap.address sp k ≠ some a) (v : Nat) :
    s.withBusAccesses [.read a, .write a v] = s := by
  have hl := BusMap.locate_eq_none h
  simp [State.withBusAccesses, BusAccess.move?, hl]

end

/-- Settles O60. -/
theorem busAccessIsTheMoveOfItsElement : Obligations.BusAccessIsTheMoveOfItsElement :=
  ⟨fun _ _ _ v hM h => withBusAccesses_of_address hM h v,
    fun _ _ _ _ v hM h => withBusAccesses_of_address hM h v,
    fun _ _ v h => withBusAccesses_of_empty h v,
    fun maxPix maxVb _ h => BusMap.suggested_reg maxPix maxVb h⟩

end Sys2Proof.Machine

/-! SUPPORT. The command word as the fields of its format (30_encoding.md R80 to R85, R89): decoding
inverts encoding both ways, and the opcode table says the same by match and mask.
Settles O1 and O2. -/

namespace Sys2Proof

/-! ### The fields of a word -/

/-- A format-N word is its opcode (30_encoding.md R81). -/
theorem eq_opcodeField_of_formatN {w : Word} (h : w.extractLsb' 8 24 = 0) :
    w = (opcodeField w).setWidth 32 := by
  refine BitVec.eq_of_getLsbD_eq fun k hk => ?_
  have hbit := congrArg (BitVec.getLsbD · (k - 8)) h
  by_cases hlow : k < 8
  · simp [opcodeField, hk, hlow]
  · have hzero : w.getLsbD k = false := by
      simpa [show k - 8 < 24 by omega, show 8 + (k - 8) = k by omega] using hbit
    simp [opcodeField, hlow, hzero]

/-- A format-P word is its opcode and its plane (30_encoding.md R82). -/
theorem eq_fields_of_formatP {w : Word} (h : w.extractLsb' 11 21 = 0) :
    w = (opcodeField w).setWidth 32 ||| (BitVec.ofNat 32 (planeField w).val <<< 8) := by
  have hplane : BitVec.ofNat 32 (planeField w).val = (w.extractLsb' 8 3).setWidth 32 :=
    BitVec.ofNat_toNat 32 _
  rw [hplane]
  refine BitVec.eq_of_getLsbD_eq fun k hk => ?_
  have hbit := congrArg (BitVec.getLsbD · (k - 11)) h
  by_cases hlow : k < 8
  · simp [opcodeField, hk, hlow]
  by_cases hmid : k < 11
  · simp [opcodeField, hk, hlow, show k - 8 < 3 by omega, show 8 + (k - 8) = k by omega]
  · have hzero : w.getLsbD k = false := by
      simpa [show k - 11 < 21 by omega, show 11 + (k - 11) = k by omega] using hbit
    simp [opcodeField, hlow, hzero, show ¬ k - 8 < 3 by omega]

/-! ### Decoding and encoding -/

theorem encode_of_formatN {op : Byte} {i : Instr} (h : formatN op = some i) :
    encode i = op.setWidth 32 := by
  unfold formatN at h
  iterate 12
    obtain ⟨rfl, h⟩ | ⟨-, h⟩ := ite_eq_iff.1 h
    · cases h; rfl
  cases h

theorem encode_of_formatP {op : Byte} {p : Fin 8} {i : Instr} (h : formatP op p = some i) :
    encode i = op.setWidth 32 ||| (BitVec.ofNat 32 p.val <<< 8) := by
  unfold formatP at h
  iterate 2
    obtain ⟨rfl, h⟩ | ⟨-, h⟩ := ite_eq_iff.1 h
    · cases h; rfl
  cases h

/-- The two ways a word is accepted (30_encoding.md R84). -/
theorem decode_ok_cases {w : Word} {i : Instr} (h : decode w = .ok i) :
    (formatN (opcodeField w) = some i ∧ w.extractLsb' 8 24 = 0) ∨
    (formatP (opcodeField w) (planeField w) = some i ∧ w.extractLsb' 11 21 = 0) := by
  unfold decode at h
  split at h
  · next j hN =>
    split at h
    · next hz => cases h; exact .inl ⟨hN, hz⟩
    · cases h
  · split at h
    · next j hP =>
      split at h
      · next hz => cases h; exact .inr ⟨hP, hz⟩
      · cases h
    · cases h

/-- No second word means the same operation. -/
theorem eq_encode_of_decode {w : Word} {i : Instr} (h : decode w = .ok i) : w = encode i := by
  obtain ⟨hN, hz⟩ | ⟨hP, hz⟩ := decode_ok_cases h
  · rw [encode_of_formatN hN]
    exact eq_opcodeField_of_formatN hz
  · rw [encode_of_formatP hP]
    exact eq_fields_of_formatP hz

theorem decode_encode (i : Instr) : decode (encode i) = .ok i := by
  cases i with
  | bpenc p | bpdec p => revert p; decide
  | _ => rfl

theorem decode_eq_ok_iff (w : Word) (i : Instr) : decode w = .ok i ↔ w = encode i :=
  ⟨eq_encode_of_decode, fun h => h ▸ decode_encode i⟩

/-- The plane of an encoding stands in bits 10:8 (30_encoding.md R83). -/
theorem plane_eq_bits_of_encode {i : Instr} {p : Fin 8} (h : i.plane? = some p) :
    p.val = (encode i).toNat / 256 % 8 := by
  cases i with
  | bpenc q | bpdec q => cases h; revert p; decide
  | _ => cases h

/-! ### The opcode table -/

/-- Where a mask has a field of ones, a word agrees there with what the mask leaves. -/
theorem extractLsb'_of_and_eq {w m v : Word} {start len : Nat} (h : w &&& m = v)
    (hm : m.extractLsb' start len = BitVec.allOnes len) :
    w.extractLsb' start len = v.extractLsb' start len := by
  rw [← h, BitVec.extractLsb'_and, hm, BitVec.and_allOnes]

theorem and_mask_of_accepts {r : OpcodeRow} {w : Word} (h : r.accepts w = true) :
    w &&& r.mask = r.value := eq_of_beq h

/-- Every row compares the whole opcode. -/
theorem opcodeField_of_accepts {r : OpcodeRow} (hr : r ∈ opcodeTable) {w : Word}
    (h : r.accepts w = true) : opcodeField w = opcodeField r.value := by
  have hmask : ∀ r ∈ opcodeTable, r.mask.extractLsb' 0 8 = BitVec.allOnes 8 := by decide
  exact extractLsb'_of_and_eq (and_mask_of_accepts h) (hmask r hr)

/-- No two rows have one opcode, so no word matches two rows (30_encoding.md R84). -/
theorem row_unique {r r' : OpcodeRow} (hr : r ∈ opcodeTable) (hr' : r' ∈ opcodeTable) {w : Word}
    (h : r.accepts w = true) (h' : r'.accepts w = true) : r = r' := by
  have hopcodes : ∀ r ∈ opcodeTable, ∀ r' ∈ opcodeTable,
      opcodeField r.value = opcodeField r'.value → r = r' := by decide
  exact hopcodes r hr r' hr'
    ((opcodeField_of_accepts hr h).symm.trans (opcodeField_of_accepts hr' h'))

/-- A format-N row matches its value alone. -/
theorem eq_of_accepts_formatN {m : String} {v w : Word}
    (h : (OpcodeRow.mk m 0xFFFFFFFF v).accepts w = true) : w = v := by
  have hmask : (0xFFFFFFFF : Word) = BitVec.allOnes 32 := rfl
  simpa only [hmask, BitVec.and_allOnes] using and_mask_of_accepts h

/-- A format-P row matches its opcode with any plane. -/
theorem eq_of_accepts_formatP {m : String} {v w : Word}
    (h : (OpcodeRow.mk m 0xFFFFF8FF v).accepts w = true) (hv : v.extractLsb' 11 21 = 0) :
    w = (opcodeField v).setWidth 32 ||| (BitVec.ofNat 32 (planeField w).val <<< 8) := by
  have hmask : w &&& 0xFFFFF8FF = v := and_mask_of_accepts h
  have hop : opcodeField w = opcodeField v := extractLsb'_of_and_eq hmask (by decide)
  have hz : w.extractLsb' 11 21 = 0 := (extractLsb'_of_and_eq hmask (by decide)).trans hv
  exact hop ▸ eq_fields_of_formatP hz

/-- A word that matches a row is an encoding of the row's operation, row by row. -/
theorem eq_encode_of_accepts : ∀ r ∈ opcodeTable, ∀ w : Word, r.accepts w = true →
    ∃ i : Instr, i.mnemonic = r.mnemonic ∧ w = encode i := by
  simp only [opcodeTable, List.forall_mem_cons]
  exact ⟨
    fun _ h => ⟨.venc, rfl, eq_of_accepts_formatN h⟩,
    fun _ h => ⟨.vdec, rfl, eq_of_accepts_formatN h⟩,
    fun _ h => ⟨.bpx, rfl, eq_of_accepts_formatN h⟩,
    fun _ h => ⟨.bpc, rfl, eq_of_accepts_formatN h⟩,
    fun w h => ⟨.bpenc (planeField w), rfl, eq_of_accepts_formatP h rfl⟩,
    fun w h => ⟨.bpdec (planeField w), rfl, eq_of_accepts_formatP h rfl⟩,
    fun _ h => ⟨.rgenc, rfl, eq_of_accepts_formatN h⟩,
    fun _ h => ⟨.rgdec, rfl, eq_of_accepts_formatN h⟩,
    fun _ h => ⟨.hfreq, rfl, eq_of_accepts_formatN h⟩,
    fun _ h => ⟨.hbuild, rfl, eq_of_accepts_formatN h⟩,
    fun _ h => ⟨.hgen, rfl, eq_of_accepts_formatN h⟩,
    fun _ h => ⟨.henc, rfl, eq_of_accepts_formatN h⟩,
    fun _ h => ⟨.hdec, rfl, eq_of_accepts_formatN h⟩,
    fun _ h => ⟨.srst, rfl, eq_of_accepts_formatN h⟩,
    nofun⟩

/-- Every encoding matches a row of the table, operation by operation. -/
theorem accepts_encode (i : Instr) : ∃ r ∈ opcodeTable, r.accepts (encode i) = true := by
  have h : Laws.TableRow.Statement i := by
    cases i with
    | venc => exact Laws.TableRow.venc
    | vdec => exact Laws.TableRow.vdec
    | bpx => exact Laws.TableRow.bpx
    | bpc => exact Laws.TableRow.bpc
    | bpenc p => exact Laws.TableRow.bpenc p
    | bpdec p => exact Laws.TableRow.bpdec p
    | rgenc => exact Laws.TableRow.rgenc
    | rgdec => exact Laws.TableRow.rgdec
    | hfreq => exact Laws.TableRow.hfreq
    | hbuild => exact Laws.TableRow.hbuild
    | hgen => exact Laws.TableRow.hgen
    | henc => exact Laws.TableRow.henc
    | hdec => exact Laws.TableRow.hdec
    | srst => exact Laws.TableRow.srst
  obtain ⟨r, hr, -, haccepts⟩ := h
  exact ⟨r, hr, haccepts⟩

/-- A word that matches no row is no operation (30_encoding.md R86). -/
theorem decode_ne_ok_of_no_row {w : Word} (h : ∀ r ∈ opcodeTable, r.accepts w = false) (i : Instr) :
    decode w ≠ .ok i := by
  intro hi
  obtain ⟨r, hr, haccepts⟩ := accepts_encode i
  rw [← eq_encode_of_decode hi, h r hr] at haccepts
  cases haccepts

/-- Settles O1: a decoded word is its fields, and an encoding decodes. -/
theorem decodeAndEncodeAreInverse : Obligations.DecodeAndEncodeAreInverse := decode_eq_ok_iff

end Sys2Proof

namespace Sys2Proof.Machine

/-! ### An illegal word -/

/-- A word that is no operation ends with IllegalCommand (60_exceptions.md R195). -/
theorem issue_of_illegal {w : Word} (h : ∀ i, decode w ≠ .ok i) (s : State) :
    issue w s = .next (s.begin.raise .illegalCommand w .none) := by
  unfold issue
  split
  · next i hi => exact absurd hi (h i)
  · rfl

/-- An error without a destination changes STATUS and RESULT only. -/
theorem keepsAllBut_begin_raise_none (s : State) (k : ErrKind) (info : Word) :
    KeepsAllBut [.status, .result] s (s.begin.raise k info .none) := by
  intro f hf
  cases f with
  | status | result => exact absurd (by simp) hf
  | valid => exact BitVec.and_allOnes
  | _ => rfl

/-- Settles O2: no second row by the opcode, a matching word by its row's encoding, any other word
by the error it ends with. -/
theorem everyWordIsOneRowOrIllegal : Obligations.EveryWordIsOneRowOrIllegal := by
  refine fun w => ⟨fun r hr r' hr' => row_unique hr hr', fun r hr h => ?_, fun h s => ?_⟩
  · obtain ⟨i, hname, rfl⟩ := eq_encode_of_accepts r hr w h
    exact ⟨i, decode_encode i, hname, fun _ => plane_eq_bits_of_encode⟩
  · exact ⟨_, issue_of_illegal (decode_ne_ok_of_no_row h) s, rfl, rfl,
      keepsAllBut_begin_raise_none s _ w⟩

end Sys2Proof.Machine

/-! SUPPORT. The host's register writes made from a register it reads first (30_encoding.md R90):
the step of a register write, and what setv and clrv make of VALID under 10_state.md R34.
Settles O11. -/

namespace Sys2Proof.Machine

/-- The step of a pending write to any register but CMD (46_system.md R184). -/
theorem step_writeReg {s : State} {rest : List HostMove} {k : Nat} {v : HostWord}
    (h : s.script = .writeReg k v :: rest) (hk : k ≠ 0) :
    step s = .next (State.writeReg k (s.hostWord v) { s with script := rest }) := by
  rw [step_of_script h, runMove, if_neg hk, hostWord_setScript]

/-! ### VALID from what the host read of it -/

section

variable {v : Word}

/-- A legal VALID is read whole. -/
theorem ValidLegal.and_validMask (h : ValidLegal v) : v &&& validMask = v :=
  calc v &&& validMask
    _ = v &&& validMask ||| v &&& ~~~ validMask := by rw [h]; exact BitVec.or_zero.symm
    _ = v &&& (validMask ||| ~~~ validMask) := BitVec.and_or_distrib_left.symm
    _ = v := BitVec.and_allOnes

/-- Every flag of a legal VALID is host-settable or derived-only. -/
theorem ValidLegal.getLsbD_eq (h : ValidLegal v) (b : Nat) :
    (v.getLsbD b && (hostSettable.getLsbD b || derivedOnly.getLsbD b)) = v.getLsbD b := by
  rw [← BitVec.getLsbD_or, ← BitVec.getLsbD_and, hostSettable_or_derivedOnly, h.and_validMask]

/-- Writing back VALID with the flags of a mask added sets the host-settable ones alone. -/
theorem validAfterHostWrite_or (h : ValidLegal v) (mask : Word) :
    validAfterHostWrite v (v ||| mask) = v ||| (mask &&& hostSettable) := by
  have hbit : ∀ old new hs dv : Bool, (old && (hs || dv)) = old →
      ((old || new) && hs || old && (old || new) && dv) = (old || new && hs) := by decide
  refine BitVec.eq_of_getLsbD_eq fun b _ => ?_
  simpa only [getLsbD_validAfterHostWrite, BitVec.getLsbD_or, BitVec.getLsbD_and] using
    hbit _ _ _ _ (h.getLsbD_eq b)

/-- Writing back VALID with the flags of a mask taken off clears them all, as the host may. -/
theorem validAfterHostWrite_andNot (h : ValidLegal v) (mask : Word) :
    validAfterHostWrite v (v &&& ~~~ mask) = v &&& ~~~ mask := by
  have hbit : ∀ old keep hs dv : Bool, (old && (hs || dv)) = old →
      (old && keep && hs || old && (old && keep) && dv) = (old && keep) := by decide
  refine BitVec.eq_of_getLsbD_eq fun b _ => ?_
  simpa only [getLsbD_validAfterHostWrite, BitVec.getLsbD_and] using hbit _ _ _ _ (h.getLsbD_eq b)

theorem readReg_valid {s : State} (h : ValidLegal s.valid) : s.readReg regValid = s.valid :=
  h.and_validMask

end

/-! ### The three lines -/

section

variable {s : State} {rest : List HostMove}

/-- The step of a write to VALID, whatever the word is made of. -/
theorem step_writeReg_valid_hostWord {v : HostWord} (h : s.script = .writeReg 3 v :: rest) :
    step s = .next { s with script := rest, valid := validAfterHostWrite s.valid (s.hostWord v) } :=
  step_writeReg h (by decide)

theorem step_setv {mask : Word} (hs : RegistersOk s)
    (h : s.script = (ScriptLine.setv mask).moves ++ rest) :
    step s = .next { s with script := rest, valid := s.valid ||| (mask &&& hostSettable) } := by
  have hmove : s.script = .writeReg 3 (.regOr regValid mask) :: rest := h
  rw [step_writeReg_valid_hostWord hmove, State.hostWord, readReg_valid hs.validReserved,
    validAfterHostWrite_or hs.validReserved]

theorem step_clrv {mask : Word} (hs : RegistersOk s)
    (h : s.script = (ScriptLine.clrv mask).moves ++ rest) :
    step s = .next { s with script := rest, valid := s.valid &&& ~~~ mask } := by
  have hmove : s.script = .writeReg 3 (.regAndNot regValid mask) :: rest := h
  rw [step_writeReg_valid_hostWord hmove, State.hostWord, readReg_valid hs.validReserved,
    validAfterHostWrite_andNot hs.validReserved]

end

/-- Settles O11: the step of each line. -/
theorem scriptLinesSetClearAndMove : Obligations.ScriptLinesSetClearAndMove := by
  refine fun s rest hs => ⟨fun mask h => ?_, fun mask h => ?_, fun a b h ha => ?_⟩
  · exact ⟨_, step_setv hs h, rfl, keepsAllBut_setScriptValid s rest _⟩
  · exact ⟨_, step_clrv hs h, rfl, keepsAllBut_setScriptValid s rest _⟩
  · exact ⟨_, step_writeReg h (by omega), readReg_writeReg_same _ _ ha,
      fun _ hj => readReg_writeReg_other _ _ hj⟩

end Sys2Proof.Machine

/-! SUPPORT. The saturating varint (40_varint.md R100, R101) as saturation bytes and a last byte,
and what VENC and VDEC (R102, R103) leave on each of their paths.
Settles O24 to O27. -/

namespace Sys2Proof.Machine

open Sys2Proof.Config

/-! ### The bytes of a varint -/

section

variable (n : Nat)

/-- The byte of varint(n) after the saturation bytes (40_varint.md R100). -/
def lastByte : Byte := BitVec.ofNat 8 (n - 255 * ((n - 1) / 255))

theorem toNat_lastByte : (lastByte n).toNat = n - 255 * ((n - 1) / 255) := by
  unfold lastByte; rw [BitVec.toNat_ofNat]; omega

/-- One form for every n: for 0 there is no saturation byte and the last byte is 0. -/
theorem varint_eq_append : varint n = List.replicate ((n - 1) / 255) 255 ++ [lastByte n] := by
  unfold varint
  split
  · next h => subst h; rfl
  · rfl

@[simp] theorem dropLast_varint : (varint n).dropLast = List.replicate ((n - 1) / 255) 255 := by
  rw [varint_eq_append, List.dropLast_concat]

@[simp] theorem getLast?_varint : (varint n).getLast? = some (lastByte n) := by
  rw [varint_eq_append, List.getLast?_concat]

theorem getElem?_varint_last : (varint n)[varintLength n - 1]? = some (lastByte n) := by
  rw [← length_varint, ← List.getLast?_eq_getElem?, getLast?_varint]

theorem one_le_varintLength : 1 ≤ varintLength n := Nat.le_max_left _ _

theorem lastByte_eq_zero_iff : lastByte n = 0 ↔ n = 0 := by
  have hzero : (0 : Byte).toNat = 0 := rfl
  rw [← BitVec.toNat_inj, toNat_lastByte, hzero]; omega

/-- No saturation byte is 0, so a zero byte is the last one. -/
theorem zero_mem_varint_iff : (0 : Byte) ∈ varint n ↔ n = 0 := by
  have hsat : (0 : Byte) ∉ List.replicate ((n - 1) / 255) 255 :=
    fun h => absurd (List.eq_of_mem_replicate h) (by decide)
  rw [varint_eq_append, List.mem_append, or_iff_right hsat, List.mem_singleton, eq_comm,
    lastByte_eq_zero_iff]

/-- `unvarint` inverts `varint` (40_varint.md R101). -/
theorem unvarint_lastByte : unvarint (varintLength n) (lastByte n) = n := by
  rw [unvarint, toNat_lastByte, varintLength]; omega

end

/-- Settles O24. -/
theorem varintShapeAndRoundTrip : Obligations.VarintShapeAndRoundTrip := by
  refine fun n => ⟨length_varint n, fun b hb => ?_, zero_mem_varint_iff n, fun last h => ?_⟩
  · rw [dropLast_varint] at hb
    exact List.eq_of_mem_replicate hb
  · rw [getLast?_varint] at h
    cases h
    rw [length_varint]
    exact unvarint_lastByte n

/-! ### What an operation's end leaves alone -/

theorem keepsAllBut_unspecify (s : State) (d : Dest) :
    KeepsAllBut (.draws :: d.fields) s (s.unspecify d) := by
  intro f hf
  have hne : ∀ d' : Dest, f ∈ d'.fields → d ≠ d' := by
    rintro _ h rfl
    exact hf (List.mem_cons_of_mem _ h)
  cases f with
  | draws => exact absurd (by simp) hf
  | pix => exact (s.unspecify_pix d).trans (if_neg (hne .pix (by simp [Dest.fields])))
  | freq => exact (s.unspecify_freq d).trans (if_neg (hne .freq (by simp [Dest.fields])))
  | node => exact (s.unspecify_node d).trans (if_neg (hne .node (by simp [Dest.fields])))
  | code => exact (s.unspecify_code d).trans (if_neg (hne .code (by simp [Dest.fields])))
  | vb => exact (s.unspecify_vb d).trans (if_neg (hne .vb (by simp [Dest.fields])))
  | plane q =>
    refine (s.unspecify_plane d q).trans ?_
    rw [if_neg (hne .planes (by simp [Dest.fields])),
      if_neg (hne (.plane q) (by simp [Dest.fields]))]
  | strm q =>
    exact (s.unspecify_strm d q).trans (if_neg (hne (.strm q) (by simp [Dest.fields])))
  | _ => cases d <;> rfl

/-- `raise` changes STATUS, RESULT, VALID, the destination and the draws (60_exceptions.md R202). -/
theorem keepsAllBut_raise (s : State) (k : ErrKind) (info : Word) (d : Dest) :
    KeepsAllBut ([.status, .result, .valid] ++ .draws :: d.fields) s (s.raise k info d) := by
  intro f hf
  rw [List.mem_append, not_or] at hf
  obtain ⟨hend, hdest⟩ := hf
  have hsame := keepsAllBut_unspecify s d f hdest
  cases f with
  | status | result | valid => exact absurd (by simp) hend
  | _ => exact hsame

/-- `done` changes STATUS, RESULT and VALID (60_exceptions.md R203). -/
theorem KeepsAllBut.finish {l : List Field} {s t : State} (h : KeepsAllBut l s t) (r : Word)
    (d : Dest) : KeepsAllBut ([.status, .result, .valid] ++ l) s (t.finish r d) := by
  intro f hf
  rw [List.mem_append, not_or] at hf
  obtain ⟨hend, hl⟩ := hf
  have hsame := h f hl
  cases f with
  | status | result | valid => exact absurd (by simp) hend
  | _ => exact hsame

/-- With no destination there are no flags to set, and VALID is kept too. -/
theorem keepsAllBut_finish_none (s : State) (r : Word) :
    KeepsAllBut [.status, .result] s (s.finish r .none) := by
  intro f hf
  cases f with
  | status | result => exact absurd (by simp) hf
  | valid => exact BitVec.or_zero
  | _ => rfl

/-- VDEC's errors clear no flag (40_varint.md R103). -/
theorem keepsAllBut_raise_none (s : State) (k : ErrKind) (info : Word) :
    KeepsAllBut [.status, .result] s (s.raise k info .none) :=
  keepsAllBut_begin_raise_none s k info

/-! ### VENC -/

/-- What a successful VENC writes before its `done` (40_varint.md R102). -/
def State.putVarint (n : Nat) (s : State) : State :=
  { s with vb := s.vb.writeFrom byteElem 0 (varint n), vlen := toWord (varintLength n) }

section

variable (s : State) (n : Nat)

theorem keepsAllBut_putVarint : KeepsAllBut [.vb, .vlen] s (s.putVarint n) :=
  keepsAllBut_setVb s _ _

theorem vbAt_putVarint (j : Nat) :
    (s.putVarint n).vbAt j = ((varint n)[j]?).getD (s.vbAt j) := by
  simp [State.vbAt, State.putVarint, Memory.get_writeFrom]

theorem varintBytes_putVarint : (s.putVarint n).varintBytes (varintLength n) = varint n := by
  rw [← length_varint]
  exact map_range_eq_of_getElem? fun j hj => by
    rw [vbAt_putVarint, List.getElem?_eq_getElem hj, Option.getD_some]

theorem vbAt_putVarint_of_le {j : Nat} (h : varintLength n ≤ j) :
    (s.putVarint n).vbAt j = s.vbAt j := by
  rw [← length_varint] at h
  rw [vbAt_putVarint, List.getElem?_eq_none h, Option.getD_none]

theorem vbAt_putVarint_last : (s.putVarint n).vbAt (varintLength n - 1) = lastByte n := by
  rw [vbAt_putVarint, getElem?_varint_last, Option.getD_some]

end

section

variable {s : State}

/-- The length of a register's varint fits a register. -/
theorem toNat_toWord_varintLength (w : Word) :
    (toWord (varintLength w.toNat)).toNat = varintLength w.toNat := by
  have hw := w.isLt
  exact toWord_toNat (by unfold varintLength; omega)

theorem exec_venc_of_fits (h : varintLength s.arg.toNat ≤ s.params.maxVb) :
    exec .venc s = .next ((s.putVarint s.arg.toNat).finish
      (toWord (varintLength s.arg.toNat)) .vb) :=
  execVenc_of_fits h

theorem exec_venc_of_too_long (h : s.params.maxVb < varintLength s.arg.toNat) :
    exec .venc s = .next
      (s.raise .capacityExceeded (toWord (varintLength s.arg.toNat)) .vb) := by
  change execVenc s = _
  unfold execVenc
  rw [if_pos h, conclude_error]

end

/-- Settles O25, by the one check. -/
theorem vencWritesTheVarintOfArg : Obligations.VencWritesTheVarintOfArg := by
  refine ⟨rfl, fun s k hk => ?_⟩
  obtain rfl : k = varintLength s.arg.toNat := hk
  have hlength := toNat_toWord_varintLength s.arg
  refine ⟨fun hfits => ?_, fun hlong => ?_⟩
  · exact ⟨_, exec_venc_of_fits hfits, rfl, varintBytes_putVarint s _, hlength, hlength, rfl,
      fun j hj => vbAt_putVarint_of_le s _ hj,
      keepsAllBut_mono ((keepsAllBut_putVarint s _).finish _ _) (by simp)⟩
  · exact ⟨_, exec_venc_of_too_long hlong, rfl, hlength, rfl,
      keepsAllBut_mono (keepsAllBut_raise s _ _ .vb) (by simp [Dest.fields])⟩

/-! ### VDEC -/

section

variable {s : State}

/-- A mask of one flag that is not set is missing whole. -/
theorem missingFlags_of_single_flag {b : Nat} (hb : b < 32)
    (h : ¬ FlagsSet (BitVec.twoPow 32 b) s) :
    s.missingFlags (BitVec.twoPow 32 b) = BitVec.twoPow 32 b := by
  have hclear : s.valid.getLsbD b = false := by
    by_contra hset
    rw [Bool.not_eq_false] at hset
    exact h (by rw [FlagsSet, BitVec.and_twoPow, if_pos hset])
  rw [State.missingFlags, BitVec.twoPow_and, BitVec.getLsbD_not, hclear]
  simp [hb]

/-- VBV is the one flag that VDEC requires. -/
theorem exec_vdec_of_invalid (h : ¬ FlagsSet vbv s) :
    exec .vdec s = .next (s.raise .sourceInvalid vbv .none) := by
  have hmissing : vbv &&& ~~~ s.valid = vbv := missingFlags_of_single_flag (b := 4) (by decide) h
  change execVdec s = _
  unfold execVdec
  rw [requireFlags_error s h, hmissing, except_error_bind, conclude_error]

theorem exec_vdec_of_too_long (hf : FlagsSet vbv s) (h : s.params.maxVb < s.vlen.toNat) :
    exec .vdec s = .next (s.raise .capacityExceeded s.vlen .none) := by
  change execVdec s = _
  unfold execVdec
  rw [requireFlags_of_set hf, except_ok_bind, if_pos h, conclude_error]

theorem exec_vdec_of_empty (hf : FlagsSet vbv s) (h : s.vlen = 0) :
    exec .vdec s = .next (s.raise .malformedArtifact 0 .none) := by
  change execVdec s = _
  unfold execVdec
  rw [requireFlags_of_set hf, except_ok_bind, if_neg (by simp [h]), if_pos h, conclude_error]

theorem exec_vdec_of_ok (hf : FlagsSet vbv s) (h : s.vlen.toNat ≤ s.params.maxVb)
    (h1 : 1 ≤ s.vlen.toNat) :
    exec .vdec s = .next
      (s.finish (toWord (unvarint s.vlen.toNat (s.vbAt (s.vlen.toNat - 1)))) .none) :=
  execVdec_of_ok hf h fun h0 => by simp [h0] at h1

theorem maxVb_le_of_wf {P : Params} (h : P.wf = true) : P.maxVb ≤ 16843009 := by
  simp only [Params.wf, Bool.and_eq_true, decide_eq_true_eq] at h
  omega

/-- With legal parameters the value of a varint in VB fits RESULT (00_scope.md R6). -/
theorem unvarint_lt_of_wf (hP : s.params.wf = true) (h : s.vlen.toNat ≤ s.params.maxVb)
    (last : Byte) : unvarint s.vlen.toNat last < 2 ^ 32 := by
  have hmax := maxVb_le_of_wf hP
  have hlast := last.isLt
  unfold unvarint; omega

end

/-- Settles O26, by the three checks in their order. -/
theorem vdecReadsTheVarint : Obligations.VdecReadsTheVarint := by
  refine ⟨rfl, fun s => ⟨fun hf => ?_, fun hf hlong => ?_, fun hf hempty => ?_,
    fun hP hf h1 hfits => ?_⟩⟩
  · exact ⟨_, exec_vdec_of_invalid hf, rfl, rfl, keepsAllBut_raise_none s _ _⟩
  · exact ⟨_, exec_vdec_of_too_long hf hlong, rfl, rfl, keepsAllBut_raise_none s _ _⟩
  · exact ⟨_, exec_vdec_of_empty hf hempty, rfl, rfl, keepsAllBut_raise_none s _ _⟩
  · exact ⟨_, exec_vdec_of_ok hf hfits h1, rfl, toWord_toNat (unvarint_lt_of_wf hP hfits _),
      keepsAllBut_finish_none s _⟩

/-! ### VENC and then VDEC -/

theorem fits_of_venc_success {s t : State} (h : exec .venc s = .next t)
    (hst : t.status = 0x00000002) : varintLength s.arg.toNat ≤ s.params.maxVb := by
  by_contra hlong
  rw [exec_venc_of_too_long (by omega)] at h
  cases h
  rw [State.raise_status] at hst
  exact absurd hst (by decide)

theorem flagsSet_finish (r : Word) (d : Dest) (s : State) : FlagsSet d.flags (s.finish r d) := by
  have habsorb : ∀ old new : Bool, ((old || new) && new) = new := by decide
  exact BitVec.eq_of_getLsbD_eq fun b _ => by
    simpa only [State.finish_valid, BitVec.getLsbD_and, BitVec.getLsbD_or] using habsorb _ _

/-- Settles O27: VDEC reads the length and the last byte, and they determine ARG. -/
theorem vencThenVdecReturnsArg : Obligations.VencThenVdecReturnsArg := by
  intro s t h hst
  have hfits := fits_of_venc_success h hst
  rw [exec_venc_of_fits hfits] at h
  cases h
  set t := (s.putVarint s.arg.toNat).finish (toWord (varintLength s.arg.toNat)) .vb
  have hvlen : t.vlen.toNat = varintLength s.arg.toNat := toNat_toWord_varintLength s.arg
  have hlast : t.vbAt (varintLength s.arg.toNat - 1) = lastByte s.arg.toNat :=
    vbAt_putVarint_last s _
  have hvdec := exec_vdec_of_ok (s := t) (flagsSet_finish _ .vb _) (hvlen.trans_le hfits)
    (hvlen ▸ one_le_varintLength _)
  rw [hvlen, hlast, unvarint_lastByte] at hvdec
  exact ⟨_, hvdec, rfl, BitVec.eq_of_toNat_eq (toWord_toNat s.arg.isLt)⟩

end Sys2Proof.Machine

/-! SUPPORT. The plane functions as the bits of a byte (41_bitplane.md R110), and what BPX and BPC
(R111, R112) leave when their checks pass.
Settles O28 to O31. -/

namespace Sys2Proof.Machine

open Sys2Proof.Config

/-! ### The plane functions -/

/-- Binary digits, each with the weight of its place, sum to the number they write. -/
theorem sum_weights_eq_ofBits {n : Nat} (b : Fin n → Bool) :
    ((List.finRange n).map fun p => (b p).toNat * 2 ^ p.val).sum = Nat.ofBits b := by
  induction n with
  | zero => rfl
  | succ n ih =>
    rw [Nat.ofBits_succ, ← ih, ← List.sum_map_mul_left, List.finRange_succ]
    simp [Function.comp_def, Nat.pow_succ', Nat.mul_left_comm, Nat.add_comm]

/-- `combine` makes the byte that has the eight bits as its bits. -/
theorem combine_eq_ofFnLE (b : Fin 8 → Bool) : combine b = BitVec.ofFnLE b := by
  apply BitVec.eq_of_toNat_eq
  rw [combine, ← List.foldl_map (f := fun p : Fin 8 => (b p).toNat * 2 ^ p.val),
    ← List.sum_eq_foldl, sum_weights_eq_ofBits, BitVec.toNat_ofNat, BitVec.toNat_ofFnLE,
    Nat.mod_eq_of_lt (Nat.ofBits_lt_two_pow b)]

theorem toNat_combine (b : Fin 8 → Bool) :
    (combine b).toNat = ((List.finRange 8).map fun p => (b p).toNat * 2 ^ p.val).sum := by
  rw [combine_eq_ofFnLE, BitVec.toNat_ofFnLE, sum_weights_eq_ofBits]

theorem getLsbD_combine (b : Fin 8 → Bool) (p : Fin 8) : (combine b).getLsbD p.val = b p := by
  rw [combine_eq_ofFnLE, BitVec.getLsbD_ofFnLE, dif_pos p.isLt]

theorem combine_planebit (v : Byte) : combine (planebit v) = v :=
  BitVec.eq_of_getLsbD_eq fun i hi => getLsbD_combine (planebit v) ⟨i, hi⟩

theorem toNat_planebit (v : Byte) (p : Fin 8) :
    (planebit v p).toNat = v.toNat / 2 ^ p.val % 2 := Nat.toNat_testBit v.toNat p.val

/-- Settles O28. -/
theorem planeFunctionsAreInverse : Obligations.PlaneFunctionsAreInverse :=
  ⟨toNat_combine, combine_planebit, getLsbD_combine, toNat_planebit⟩

/-- With legal parameters the number of pixels fits RESULT (00_scope.md R6). -/
theorem GridOk.toNat_toWord {s : State} {n : Nat} (hP : s.params.wf = true) (h : GridOk s n) :
    (toWord n).toNat = n := by
  obtain ⟨-, -, -, hfits⟩ := h
  simp only [Params.wf, Bool.and_eq_true, decide_eq_true_eq] at hP
  exact toWord_toNat (by omega)

/-! ### BPX -/

/-- What a successful BPX writes before its `done` (41_bitplane.md R111). -/
def State.putImagePlanes (n : Nat) (s : State) : State :=
  { s with
    plane := Vector.ofFn fun p : Fin 8 =>
      s.plane[p].writeFrom bitElem 0 ((s.image n).map fun v => planebit v p) }

section

variable (s : State) (n : Nat)

theorem planeAt_putImagePlanes (p : Fin 8) (i : Nat) :
    (s.putImagePlanes n).planeAt p i =
      if i < n then (s.pixAt i).getLsbD p.val else s.planeAt p i := by
  have hbank : (s.putImagePlanes n).planeAt p i =
      (((s.image n).map fun v => planebit v p)[i]?).getD (s.planeAt p i) := by
    simp [State.planeAt, State.putImagePlanes, Memory.get_writeFrom]
  rw [hbank]
  by_cases hi : i < n
  · simp [State.image, hi, planebit]
  · simp [State.image, hi]

theorem keepsAllBut_putImagePlanes :
    KeepsAllBut ((List.finRange 8).map .plane) s (s.putImagePlanes n) :=
  keepsAllBut_setPlanes s _

end

section

variable {s : State} {n : Nat}

theorem exec_bpx_of_ok (hg : GridOk s n) (hf : FlagsSet pixv s) :
    exec .bpx s = .next ((s.putImagePlanes n).finish (toWord n) .planes) :=
  execBpx_of_ok hg hf

/-- On a legal grid PIXV is the one thing that BPX can miss. -/
theorem flagsSet_of_bpx_success {t : State} (hg : GridOk s n) (h : exec .bpx s = .next t)
    (hst : t.status = 0x00000002) : FlagsSet pixv s := by
  by_contra hf
  change execBpx s = _ at h
  unfold execBpx at h
  rw [gridCheck_of_ok hg, except_ok_bind, requireFlags_error s hf, except_error_bind,
    conclude_error] at h
  cases h
  rw [State.raise_status] at hst
  exact absurd hst (by decide)

end

/-- Settles O29. -/
theorem bpxExtractsThePlanes : Obligations.BpxExtractsThePlanes := by
  refine fun s n hP hg hf => ⟨_, exec_bpx_of_ok hg hf, rfl, hg.toNat_toWord hP, fun p i hi => ?_,
    fun p i hi => ?_, rfl, (keepsAllBut_putImagePlanes s n).finish _ _⟩
  · exact (planeAt_putImagePlanes s n p i).trans (if_pos hi)
  · exact (planeAt_putImagePlanes s n p i).trans (if_neg (Nat.not_lt.2 hi))

/-! ### BPC -/

/-- PIX[0 .. n−1] as BPC writes it (41_bitplane.md R112). -/
def State.combinedPixels (s : State) (n : Nat) : List Byte :=
  (List.range n).map fun i => combine fun p => s.planeAt p i

theorem exec_bpc_of_ok {s : State} {n : Nat} (hg : GridOk s n) (hf : FlagsSet planevAll s) :
    exec .bpc s = .next ((s.putPixels (s.combinedPixels n)).finish (toWord n) .pix) :=
  execBpc_of_ok hg hf

theorem pixAt_putPixels_combinedPixels (s : State) (n i : Nat) :
    (s.putPixels (s.combinedPixels n)).pixAt i =
      if i < n then combine fun p => s.planeAt p i else s.pixAt i := by
  rw [pixAt_putPixels, State.combinedPixels]
  by_cases hi : i < n
  · simp [hi]
  · simp [hi]

/-- Settles O30. -/
theorem bpcCombinesThePlanes : Obligations.BpcCombinesThePlanes := by
  refine fun s n hP hg hf => ⟨_, exec_bpc_of_ok hg hf, rfl, hg.toNat_toWord hP, fun p i hi => ?_,
    fun i hi => ?_, rfl, (keepsAllBut_putPixels s _).finish _ _⟩
  · have hpix := (pixAt_putPixels_combinedPixels s n i).trans (if_pos hi)
    exact (congrArg (·.getLsbD p.val) hpix).trans (getLsbD_combine _ p)
  · exact (pixAt_putPixels_combinedPixels s n i).trans (if_neg (Nat.not_lt.2 hi))

/-! ### BPX and then BPC -/

/-- Settles O31, bit by bit: BPC takes from the planes the bit that BPX put there. -/
theorem bpxThenBpcRestoresTheImage : Obligations.BpxThenBpcRestoresTheImage := by
  intro s t t' n hP hg h hst hparams hwidth hheight hplane hf
  rw [exec_bpx_of_ok hg (flagsSet_of_bpx_success hg h hst)] at h
  cases h
  have hP' : t'.params.wf = true := hparams ▸ hP
  have hg' : GridOk t' n := by rw [GridOk, hparams, hwidth, hheight]; exact hg
  obtain ⟨u, hu, hust, -, hbits, -⟩ := bpcCombinesThePlanes t' n hP' hg' hf
  refine ⟨u, hu, hust, List.map_congr_left fun i hi => ?_⟩
  have hi : i < n := List.mem_range.1 hi
  refine BitVec.eq_of_getLsbD_eq fun b hb => ?_
  calc (u.pixAt i).getLsbD b
      = t'.planeAt ⟨b, hb⟩ i := hbits ⟨b, hb⟩ i hi
    _ = (s.putImagePlanes n).planeAt ⟨b, hb⟩ i := by rw [State.planeAt, hplane]; rfl
    _ = (s.pixAt i).getLsbD b := (planeAt_putImagePlanes s n _ i).trans (if_pos hi)

end Sys2Proof.Machine

/-! SUPPORT. The items of a grayscale stream (42_rle_gray.md R120) as pairs of a length and an
intensity, their replay, and what RGENC and RGDEC (R121, R122) leave when their checks pass.
Settles O32, O33 and O35. -/

namespace Sys2Proof.Machine

open Sys2Proof.Config

/-! ### Items -/

/-- The bytes of items, each a length and an intensity (42_rle_gray.md R120). -/
def itemBytes (its : List (Byte × Byte)) : List Byte := its.flatMap fun it => [it.1, it.2]

/-- The pixels that items stand for (42_rle_gray.md R120). -/
def itemPixels (its : List (Byte × Byte)) : List Byte :=
  its.flatMap fun it => List.replicate it.1.toNat it.2

/-- The items of runs: each byte of a run length's varint with the run's intensity. -/
def runItems (rs : List (Nat × Byte)) : List (Byte × Byte) :=
  rs.flatMap fun r => (varint r.1).map fun b => (b, r.2)

section

variable (its : List (Byte × Byte)) (rs : List (Nat × Byte))

theorem length_itemBytes : (itemBytes its).length = 2 * its.length := by
  simp [itemBytes, Nat.mul_comm]

theorem length_itemPixels : (itemPixels its).length = itemsTotal (its.map Prod.fst) := by
  simp [itemPixels, itemsTotal, List.length_flatMap, Function.comp_def]

theorem itemsTotal_append_singleton (last : Byte × Byte) :
    itemsTotal ((its ++ [last]).map Prod.fst) = itemsTotal (its.map Prod.fst) + last.1.toNat := by
  simp [itemsTotal]

theorem length_runItems : (runItems rs).length = (rs.map fun r => (varint r.1).length).sum := by
  simp [runItems, List.length_flatMap]

theorem itemBytes_runItems :
    itemBytes (runItems rs) = rs.flatMap fun r => (varint r.1).flatMap fun b => [b, r.2] := by
  simp [itemBytes, runItems, List.flatMap_assoc, List.flatMap_map]

theorem grayStream_eq_itemBytes (px : List Byte) : grayStream px = itemBytes (runItems (runs px)) :=
  (itemBytes_runItems _).symm

end

/-- The bytes of a varint add up to the number, which is why each may stand as a run of its own
(42_rle_gray.md R120). -/
theorem itemsTotal_varint (n : Nat) : itemsTotal (varint n) = n := by
  have hsat : (255 : Byte).toNat = 255 := rfl
  rw [varint_eq_append]
  simp only [itemsTotal, List.map_append, List.map_replicate, List.map_singleton, List.sum_append,
    List.sum_replicate, List.sum_singleton, toNat_lastByte, hsat, smul_eq_mul]
  omega

/-- Items of one intensity replay as one run. -/
theorem itemPixels_of_constant (v : Byte) (lens : List Byte) :
    itemPixels (lens.map fun b => (b, v)) = List.replicate (itemsTotal lens) v := by
  induction lens with
  | nil => rfl
  | cons b lens ih =>
    simp only [itemPixels, itemsTotal, List.map_cons, List.flatMap_cons, List.sum_cons,
      List.replicate_add] at ih ⊢
    rw [ih]

/-- The items of runs replay as the runs written out. -/
theorem itemPixels_runItems (rs : List (Nat × Byte)) :
    itemPixels (runItems rs) = rs.flatMap fun r => List.replicate r.1 r.2 := by
  rw [itemPixels, runItems, List.flatMap_assoc]
  refine List.flatMap_congr fun r _ => ?_
  exact (itemPixels_of_constant r.2 (varint r.1)).trans (by rw [itemsTotal_varint])

section

variable {rs : List (Nat × Byte)} {px : List Byte}

theorem itemPixels_of_maximalRuns (h : MaximalRuns rs px) : itemPixels (runItems rs) = px := by
  obtain ⟨-, -, hall⟩ := h
  rw [itemPixels_runItems, hall]

theorem runItems_ne_nil (h : MaximalRuns rs px) (hpx : px ≠ []) : runItems rs ≠ [] := fun hnil =>
  hpx (by rw [← itemPixels_of_maximalRuns h, hnil]; rfl)

/-- The encoder never writes a length byte 0 (42_rle_gray.md R120). -/
theorem fst_ne_zero_of_mem_runItems (h : MaximalRuns rs px) {it : Byte × Byte}
    (hit : it ∈ runItems rs) : it.1 ≠ 0 := by
  obtain ⟨hpos, -, -⟩ := h
  obtain ⟨r, hr, hpair⟩ := List.mem_flatMap.1 hit
  obtain ⟨b, hb, rfl⟩ := List.mem_map.1 hpair
  rintro (rfl : b = 0)
  have hzero := (zero_mem_varint_iff r.1).1 hb
  have := hpos r hr
  omega

/-- The items of the maximal runs fill a grid of their pixels, and the last is needed. -/
theorem exists_filling_items (h : MaximalRuns rs px) (hpx : px ≠ []) :
    ∃ its last, runItems rs = its ++ [last] ∧ itemsTotal (its.map Prod.fst) < px.length ∧
      itemsTotal ((its ++ [last]).map Prod.fst) = px.length := by
  obtain ⟨its, last, hits⟩ :=
    (List.eq_nil_or_concat' (runItems rs)).resolve_left (runItems_ne_nil h hpx)
  have hfill : itemsTotal ((its ++ [last]).map Prod.fst) = px.length := by
    rw [← length_itemPixels, ← hits, itemPixels_of_maximalRuns h]
  have hneeded : last.1.toNat ≠ 0 := fun hzero =>
    fst_ne_zero_of_mem_runItems h (it := last) (by simp [hits]) (BitVec.eq_of_toNat_eq hzero)
  refine ⟨its, last, hits, ?_, hfill⟩
  rw [itemsTotal_append_singleton] at hfill
  omega

end

/-! ### The replay -/

theorem grayReplay_full (n : Nat) (bs : List Byte) (pos : Nat) :
    grayReplay n bs n pos = .ok ([], pos) := by
  match bs with
  | [] | [_] | _ :: _ :: _ => simp [grayReplay]

/-- Items that fill the grid, the last of them needed, are replayed and end the replay. -/
theorem grayReplay_of_filling {n : Nat} {its : List (Byte × Byte)} {last : Byte × Byte}
    (tail : List Byte) (hroom : itemsTotal (its.map Prod.fst) < n)
    (hfill : itemsTotal ((its ++ [last]).map Prod.fst) = n) :
    grayReplay n (itemBytes (its ++ [last]) ++ tail) 0 0 =
      .ok (itemPixels (its ++ [last]), 2 * (its.length + 1)) := by
  rw [itemsTotal_append_singleton] at hfill
  have hbytes : itemBytes (its ++ [last]) ++ tail =
      (its.flatMap fun it => [it.1, it.2]) ++ last.1 :: last.2 :: tail := by simp [itemBytes]
  rw [hbytes, grayReplay_items n its _ 0 0 (by omega), Nat.zero_add, grayReplay,
    if_neg (by omega), if_neg (by omega), hfill, grayReplay_full]
  simp [itemPixels, Nat.mul_add]

/-! ### Buffers after a write -/

section

variable (s : State)

theorem image_putPixels (vs : List Byte) : (s.putPixels vs).image vs.length = vs :=
  map_range_eq_of_getElem? fun j hj => by
    rw [pixAt_putPixels, List.getElem?_eq_getElem hj, Option.getD_some]

theorem pixAt_putPixels_of_le {vs : List Byte} {j : Nat} (h : vs.length ≤ j) :
    (s.putPixels vs).pixAt j = s.pixAt j := by
  rw [pixAt_putPixels, List.getElem?_eq_none h, Option.getD_none]

theorem stream_putStream (p : Fin 8) (vs : List Byte) :
    (s.putStream p vs).stream p vs.length = vs :=
  map_range_eq_of_getElem? fun j hj => by
    rw [strmAt_putStream, if_pos rfl, List.getElem?_eq_getElem hj, Option.getD_some]

theorem strmAt_putStream_of_le (p : Fin 8) {vs : List Byte} {j : Nat} (h : vs.length ≤ j) :
    (s.putStream p vs).strmAt p j = s.strmAt p j := by
  rw [strmAt_putStream, if_pos rfl, List.getElem?_eq_none h, Option.getD_none]

theorem slen_putStream_same (p : Fin 8) (vs : List Byte) :
    (s.putStream p vs).slen[p] = toWord vs.length := (slen_putStream s p p vs).trans (if_pos rfl)

theorem toNat_slen_putStream (p : Fin 8) {vs : List Byte} (h : vs.length < 2 ^ 32) :
    (s.putStream p vs).slen[p].toNat = vs.length := by
  rw [slen_putStream_same, toWord_toNat h]

end

theorem stream_congr {s t : State} {p : Fin 8} (h : t.strm[p] = s.strm[p]) (k : Nat) :
    t.stream p k = s.stream p k := by
  unfold State.stream State.strmAt; rw [h]

/-! ### RGENC -/

section

variable {s : State} {n : Nat}

theorem exec_rgenc_of_ok (hg : GridOk s n) (hf : FlagsSet pixv s) :
    exec .rgenc s = .next ((s.putStream 0 (grayStream (s.image n))).finish
      (toWord (grayStream (s.image n)).length) (.strm 0)) :=
  execRgenc_of_ok hg hf

theorem image_ne_nil (hg : GridOk s n) : s.image n ≠ [] := by
  have hpos := hg.pos
  rw [ne_eq, ← List.length_eq_zero_iff, length_image]
  omega

theorem length_grayStream_image_le : (grayStream (s.image n)).length ≤ 2 * n :=
  (length_grayStream_le _).trans_eq (by rw [length_image])

/-- With legal parameters the length of an image's stream fits SLEN0 (00_scope.md R6). -/
theorem length_grayStream_image_lt (hP : s.params.wf = true) (hg : GridOk s n) :
    (grayStream (s.image n)).length < 2 ^ 32 := by
  have hle := length_grayStream_image_le (s := s) (n := n)
  obtain ⟨-, -, -, hfits⟩ := hg
  simp only [Params.wf, Bool.and_eq_true, decide_eq_true_eq] at hP
  omega

theorem two_le_length_grayStream_image (hg : GridOk s n) :
    2 ≤ (grayStream (s.image n)).length := by
  have hne := runItems_ne_nil (runs_maximal (s.image n)) (image_ne_nil hg)
  have hpos := List.length_pos_iff.2 hne
  rw [grayStream_eq_itemBytes, length_itemBytes]
  omega

/-- On a legal grid a success says that the flags required after GridCheck are set
(60_exceptions.md R197). -/
theorem flagsSet_of_gridBody_success {t : State} {d : Dest} {m : Word}
    {rest : Nat → Except OpError State} (hg : GridOk s n)
    (h : conclude d s (do let n ← gridCheck s; requireFlags m s; rest n) = .next t)
    (hst : t.status = 0x00000002) : FlagsSet m s := by
  by_contra hf
  rw [gridCheck_of_ok hg, except_ok_bind, requireFlags_error s hf, except_error_bind,
    conclude_error] at h
  cases h
  rw [State.raise_status] at hst
  exact absurd hst (by decide)

end

/-- Settles O32. -/
theorem rgencWritesItemsOfTheRuns : Obligations.RgencWritesItemsOfTheRuns := by
  intro s n hP hg hf
  have hlength := length_grayStream_image_lt hP hg
  have hslen := toNat_slen_putStream s 0 hlength
  have hsum : (grayStream (s.image n)).length =
      2 * ((runs (s.image n)).map fun r => (varint r.1).length).sum := by
    rw [grayStream_eq_itemBytes, length_itemBytes, length_runItems]
  refine ⟨_, runs (s.image n), exec_rgenc_of_ok hg hf, rfl, runs_maximal _, ?_, hslen.trans hsum,
    (two_le_length_grayStream_image hg).trans_eq hslen.symm,
    hslen.trans_le length_grayStream_image_le, (slen_putStream_same s 0 _).symm,
    fun j hj => ?_, rfl,
    keepsAllBut_mono ((keepsAllBut_putStream s 0 _).finish _ _) (by simp)⟩
  · exact (congrArg ((s.putStream 0 _).stream 0) hslen).trans (stream_putStream s 0 _)
  · exact strmAt_putStream_of_le s 0 (hslen.symm.trans_le hj)

/-! ### RGDEC -/

/-- Settles O33. -/
theorem rgdecReplaysTheItems : Obligations.RgdecReplaysTheItems := by
  intro s n its last tail hP hg hf hl hstream hroom hfill
  change s.stream 0 s.slen[(0 : Fin 8)].toNat = itemBytes (its ++ [last]) ++ tail at hstream
  have hexec : exec .rgdec s = .next ((s.putPixels (itemPixels (its ++ [last]))).finish
      (toWord (2 * (its.length + 1))) .pix) := by
    refine (execRgdec_of_checks hg hf hl).trans ?_
    rw [hstream, grayReplay_of_filling tail hroom hfill, except_ok_bind, conclude_ok]
  have hlength : (itemPixels (its ++ [last])).length = n := (length_itemPixels _).trans hfill
  have hused : 2 * (its.length + 1) ≤ s.slen[(0 : Fin 8)].toNat := by
    have hbytes := congrArg List.length hstream
    rw [length_stream, List.length_append, length_itemBytes, List.length_append,
      List.length_singleton] at hbytes
    exact (Nat.le_add_right _ _).trans_eq hbytes.symm
  refine ⟨_, hexec, rfl, ?_, toWord_toNat (hused.trans_lt (BitVec.isLt _)), fun j hj => ?_, rfl,
    (keepsAllBut_putPixels s _).finish _ _⟩
  · exact (congrArg (s.putPixels _).image hlength.symm).trans (image_putPixels s _)
  · exact pixAt_putPixels_of_le s (hlength.trans_le hj)

/-! ### RGENC and then RGDEC -/

/-- Settles O35: RGENC's stream is the items of the image's runs, which replay as the image, and its
last item is needed, since no length byte is 0. -/
theorem rgencThenRgdecRestoresTheImage : Obligations.RgencThenRgdecRestoresTheImage := by
  intro s t t' n hP hg h hst hsame hf
  obtain ⟨t₀, rs, h₀, -, hruns, hstream, hsum, -, hle, -, -, -, hkeeps⟩ :=
    rgencWritesItemsOfTheRuns s n hP hg (flagsSet_of_gridBody_success hg h hst)
  cases h₀.symm.trans h
  refine ⟨?_, rs, hruns, hsum⟩
  obtain ⟨hparams, hwidth, hheight, hstrm, hslen⟩ := hsame
  have hparams : t'.params = s.params := hparams.trans (hkeeps .params (by simp))
  have hg' : GridOk t' n := by
    rw [GridOk, hparams, hwidth, hheight, show t.width = s.width from hkeeps .width (by simp),
      show t.height = s.height from hkeeps .height (by simp)]
    exact hg
  have hslen : t'.slen[0].toNat = t.slen[0].toNat := congrArg BitVec.toNat hslen
  have hfits : t'.slen[0].toNat ≤ t'.params.maxStrm := by
    obtain ⟨-, -, -, hn⟩ := hg'
    exact (hslen.trans_le hle).trans (Nat.mul_le_mul_left 2 hn)
  obtain ⟨its, last, hits, hroom, hfill⟩ := exists_filling_items hruns (image_ne_nil hg)
  rw [length_image] at hroom hfill
  have hbytes : t'.stream 0 t'.slen[0].toNat = itemBytes (its ++ [last]) ++ [] := by
    rw [stream_congr hstrm, hslen, hstream, ← hits, itemBytes_runItems, List.append_nil]
  obtain ⟨u, hu, hust, himage, hresult, -⟩ :=
    rgdecReplaysTheItems t' n its last [] (hparams ▸ hP) hg' hf hfits hbytes hroom hfill
  refine ⟨u, hu, hust, ?_, BitVec.eq_of_toNat_eq ?_⟩
  · calc u.image n
        = itemPixels (runItems rs) := himage.trans (congrArg itemPixels hits.symm)
      _ = s.image n := itemPixels_of_maximalRuns hruns
  · rw [hresult, hsum, ← length_runItems, hits, List.length_append, List.length_singleton]

end Sys2Proof.Machine

/-! SUPPORT. The streams of a plane (43_rle_bitplane.md R130) as run lengths in alternating colours,
and what BPENC and BPDEC (R131, R132) leave when their checks pass. A plane's stream is settled by
two facts: the zero bytes keep the colour inside a run, and its last byte is not 0.
Settles O36, O37 and O39. -/

namespace Sys2Proof.Machine

open Sys2Proof.Config

/-! ### The pixels of run lengths -/

theorem itemsTotal_concat (its : List Byte) (last : Byte) :
    itemsTotal (its ++ [last]) = itemsTotal its + last.toNat := by
  simp [itemsTotal]

theorem length_planePixelsFrom (c : Bool) (its : List Byte) :
    (planePixelsFrom c its).length = itemsTotal its := by
  induction its generalizing c with
  | nil => rfl
  | cons len rest ih => simp [planePixelsFrom, itemsTotal, ih]

theorem planePixelsFrom_append_singleton (c : Bool) (its : List Byte) (last : Byte) :
    planePixelsFrom c (its ++ [last]) =
      planePixelsFrom c its ++ List.replicate last.toNat (colourAfter c its) := by
  induction its generalizing c with
  | nil => simp [planePixelsFrom, colourAfter]
  | cons len rest ih =>
    have hcolour : colourAfter (!c) rest = colourAfter c (len :: rest) := by
      rcases Nat.mod_two_eq_zero_or_one rest.length with h | h <;>
        simp [colourAfter, h, Nat.add_mod]
    rw [List.cons_append, planePixelsFrom, planePixelsFrom, ih, hcolour, List.append_assoc]

/-- A zero byte after each length keeps the colour (43_rle_bitplane.md R130). -/
theorem planePixelsFrom_separated (c : Bool) (lens tail : List Byte) :
    planePixelsFrom c ((lens.flatMap fun b => [b, 0]) ++ tail) =
      List.replicate (itemsTotal lens) c ++ planePixelsFrom c tail := by
  induction lens with
  | nil => rfl
  | cons b lens ih =>
    have hsum : itemsTotal (b :: lens) = b.toNat + itemsTotal lens := rfl
    have hzero : List.replicate (0 : Byte).toNat (!c) = [] := rfl
    simp only [List.flatMap_cons, List.cons_append, List.nil_append, planePixelsFrom, Bool.not_not,
      hzero, ih, hsum, List.replicate_add, List.append_assoc]

/-! ### The stream of a plane -/

theorem intersperse_zero_append_singleton (lens : List Byte) (last : Byte) :
    (lens ++ [last]).intersperse 0 = (lens.flatMap fun b => [b, 0]) ++ [last] := by
  induction lens with
  | nil => rfl
  | cons b lens ih =>
    cases lens with
    | nil => rfl
    | cons => exact congrArg (b :: 0 :: ·) ih

/-- `pitems` is the saturation bytes, each with a zero byte after it, and the last byte. -/
theorem pitems_eq_append (L : Nat) :
    pitems L = ((varint L).dropLast.flatMap fun b => [b, 0]) ++ [lastByte L] := by
  rw [← intersperse_zero_append_singleton, dropLast_varint, ← varint_eq_append, pitems]

/-- The items of one run replay as the run and flip the colour. -/
theorem planePixelsFrom_pitems_append (c : Bool) (L : Nat) (tail : List Byte) :
    planePixelsFrom c (pitems L ++ tail) = List.replicate L c ++ planePixelsFrom (!c) tail := by
  have htotal : itemsTotal (varint L).dropLast + (lastByte L).toNat = L := by
    rw [← itemsTotal_concat, dropLast_varint, ← varint_eq_append, itemsTotal_varint]
  rw [pitems_eq_append, List.append_assoc, planePixelsFrom_separated, List.singleton_append,
    planePixelsFrom, ← List.append_assoc, List.replicate_append_replicate, htotal]

/-- The items of runs of alternating colours, the first of colour c, replay as the runs. -/
theorem planePixelsFrom_flatMap_pitems {rs : List (Nat × Bool)} {c : Bool}
    (hchain : rs.IsChain fun a b => a.2 ≠ b.2) (hc : ∀ r ∈ rs.head?, r.2 = c) :
    planePixelsFrom c (rs.flatMap fun r => pitems r.1) =
      rs.flatMap fun r => List.replicate r.1 r.2 := by
  induction rs generalizing c with
  | nil => rfl
  | cons r rs ih =>
    obtain ⟨hnext, hrest⟩ := List.isChain_cons.1 hchain
    obtain rfl : r.2 = c := hc r rfl
    rw [List.flatMap_cons, List.flatMap_cons, planePixelsFrom_pitems_append,
      ih hrest fun q hq => Bool.eq_not.2 (hnext q hq).symm]

/-- A plane's stream replays as the plane: its lead byte is an empty white run before a first run
that is not white (43_rle_bitplane.md R130). -/
theorem planePixelsFrom_planeStream (bits : List Bool) :
    planePixelsFrom true (planeStream bits) = bits := by
  obtain ⟨-, hchain, hall⟩ := runs_maximal bits
  match bits with
  | [] => rfl
  | b :: bs =>
    obtain ⟨L, rs, hhead⟩ := head_runs b bs
    have hruns := (planePixelsFrom_flatMap_pitems (c := b) hchain (by simp [hhead])).trans hall
    cases b with
    | true => exact hruns
    | false => exact hruns

theorem planeItemPixels_planeStream (bits : List Bool) :
    planeItemPixels (planeStream bits) = bits :=
  (planeItemPixels_eq _).trans (planePixelsFrom_planeStream bits)

section

variable {bits : List Bool}

/-- A plane's stream ends with the last byte of a run length's varint, which is not 0. -/
theorem exists_lastByte_suffix_planeStream (hbits : bits ≠ []) :
    ∃ L, 1 ≤ L ∧ [lastByte L] <:+ planeStream bits := by
  obtain ⟨hpos, -, hall⟩ := runs_maximal bits
  rcases List.eq_nil_or_concat' (runs bits) with hnil | ⟨rs, r, hlast⟩
  · rw [hnil] at hall
    exact absurd hall.symm hbits
  · refine ⟨r.1, hpos r (by simp [hlast]), ?_⟩
    rw [planeStream, hlast, List.flatMap_append, List.flatMap_singleton, pitems_eq_append]
    exact List.suffix_append_of_suffix
      (List.suffix_append_of_suffix (List.suffix_append _ [lastByte r.1]))

/-- A plane's stream covers its pixels, and its last byte is needed. -/
theorem exists_filling_planeStream (hbits : bits ≠ []) :
    ∃ its last, planeStream bits = its ++ [last] ∧ itemsTotal its < bits.length ∧
      itemsTotal its + last.toNat = bits.length := by
  obtain ⟨L, hL, its, hstream⟩ := exists_lastByte_suffix_planeStream hbits
  have hneeded : (lastByte L).toNat ≠ 0 := by
    rw [toNat_lastByte]
    omega
  have hfill : itemsTotal its + (lastByte L).toNat = bits.length := by
    rw [← itemsTotal_concat, hstream, ← length_planePixelsFrom true,
      planePixelsFrom_planeStream]
  exact ⟨its, lastByte L, hstream.symm, by omega, hfill⟩

theorem one_le_length_planeStream (hbits : bits ≠ []) : 1 ≤ (planeStream bits).length := by
  obtain ⟨L, -, hsuffix⟩ := exists_lastByte_suffix_planeStream hbits
  exact hsuffix.length_le

end

/-- A run's items are no more bytes than it has pixels. -/
theorem length_pitems_le_self {L : Nat} (h : 1 ≤ L) : (pitems L).length ≤ L := by
  rw [length_pitems, varintLength]
  omega

/-- The bound of 43_rle_bitplane.md R131: a byte for each pixel and the lead byte. -/
theorem length_planeStream_le_succ (bits : List Bool) :
    (planeStream bits).length ≤ bits.length + 1 := by
  obtain ⟨hpos, -, hall⟩ := runs_maximal bits
  have hlead : (if bits.head? = some false then [(0 : Byte)] else []).length ≤ 1 := by
    split <;> simp
  have hruns : ((runs bits).flatMap fun r => pitems r.1).length ≤ bits.length := by
    conv_rhs => rw [← hall]
    simp only [List.length_flatMap, List.length_replicate]
    exact List.sum_le_sum fun r hr => length_pitems_le_self (hpos r hr)
  rw [planeStream, List.length_append]
  omega

/-! ### The replay -/

theorem planeReplay_full (n : Nat) (bs : List Byte) (pos : Nat) (c : Bool) :
    planeReplay n bs n pos c = .ok ([], pos) := by
  cases bs <;> simp [planeReplay]

/-- Run lengths that fill the plane, the last of them needed, are replayed and end the replay. -/
theorem planeReplay_of_filling {n : Nat} {its : List Byte} {last : Byte} (tail : List Byte)
    (hroom : itemsTotal its < n) (hfill : itemsTotal its + last.toNat = n) :
    planeReplay n (its ++ last :: tail) 0 0 true =
      .ok (planeItemPixels (its ++ [last]), its.length + 1) := by
  rw [planeReplay_items n its _ 0 0 true (by omega), Nat.zero_add, Nat.zero_add, planeReplay,
    if_neg (by omega), if_neg (by omega), hfill, planeReplay_full, planeItemPixels_eq,
    planePixelsFrom_append_singleton]
  simp

/-! ### Planes after a write -/

section

variable (s : State) (p : Fin 8)

theorem planeImage_putPlane (vs : List Bool) : (s.putPlane p vs).planeImage p vs.length = vs :=
  map_range_eq_of_getElem? fun j hj => by
    rw [planeAt_putPlane, if_pos rfl, List.getElem?_eq_getElem hj, Option.getD_some]

theorem planeAt_putPlane_of_le {vs : List Bool} {j : Nat} (h : vs.length ≤ j) :
    (s.putPlane p vs).planeAt p j = s.planeAt p j := by
  rw [planeAt_putPlane, if_pos rfl, List.getElem?_eq_none h, Option.getD_none]

end

/-! ### BPENC -/

section

variable {s : State} {n : Nat} {p : Fin 8}

theorem exec_bpenc_of_ok (hg : GridOk s n) (hf : FlagsSet (planev p) s) :
    exec (.bpenc p) s = .next ((s.putStream p (planeStream (s.planeImage p n))).finish
      (toWord (planeStream (s.planeImage p n)).length) (.strm p)) :=
  execBpenc_of_ok hg hf

theorem head?_planeImage (hg : GridOk s n) : (s.planeImage p n).head? = some (s.planeAt p 0) := by
  have hpos := hg.pos
  rw [State.planeImage, List.head?_map, List.head?_range, if_neg (by omega), Option.map_some]

theorem planeImage_ne_nil (hg : GridOk s n) : s.planeImage p n ≠ [] :=
  List.ne_nil_of_length_pos (hg.pos.trans_eq (length_planeImage s p n).symm)

/-- On a legal grid there is a first pixel, and it decides the lead byte. -/
theorem planeStream_planeImage (hg : GridOk s n) :
    planeStream (s.planeImage p n) = (if s.planeAt p 0 = false then [0] else []) ++
      (runs (s.planeImage p n)).flatMap fun r => pitems r.1 := by
  simp only [planeStream, head?_planeImage hg, Option.some_inj]

theorem length_planeStream_planeImage_le :
    (planeStream (s.planeImage p n)).length ≤ n + 1 :=
  (length_planeStream_le_succ _).trans_eq (by rw [length_planeImage])

/-- With legal parameters the length of a plane's stream fits SLENp (00_scope.md R6). -/
theorem length_planeStream_planeImage_lt (hP : s.params.wf = true) (hg : GridOk s n) :
    (planeStream (s.planeImage p n)).length < 2 ^ 32 := by
  have hle := length_planeStream_planeImage_le (s := s) (n := n) (p := p)
  obtain ⟨-, -, -, hfits⟩ := hg
  simp only [Params.wf, Bool.and_eq_true, decide_eq_true_eq] at hP
  omega

end

/-- Settles O36. -/
theorem bpencWritesRunLengths : Obligations.BpencWritesRunLengths := by
  intro s n p hP hg hf
  have hslen := toNat_slen_putStream s p (length_planeStream_planeImage_lt (p := p) hP hg)
  refine ⟨_, runs (s.planeImage p n), exec_bpenc_of_ok hg hf, rfl, runs_maximal _, ?_,
    (one_le_length_planeStream (planeImage_ne_nil hg)).trans_eq hslen.symm,
    hslen.trans_le length_planeStream_planeImage_le, (slen_putStream_same s p _).symm,
    fun j hj => strmAt_putStream_of_le s p (hslen.symm.trans_le hj), rfl,
    keepsAllBut_mono ((keepsAllBut_putStream s p _).finish _ _) (by simp)⟩
  have hstream := (congrArg ((s.putStream p _).stream p) hslen).trans (stream_putStream s p _)
  exact hstream.trans (planeStream_planeImage hg)

/-! ### BPDEC -/

/-- Settles O37. -/
theorem bpdecReplaysTheRuns : Obligations.BpdecReplaysTheRuns := by
  intro s n p its last tail hP hg hf hl hstream hroom hfill
  have hexec : exec (.bpdec p) s = .next ((s.putPlane p (planeItemPixels (its ++ [last]))).finish
      (toWord (its.length + 1)) (.plane p)) := by
    refine (execBpdec_of_checks hg hf hl).trans ?_
    rw [hstream, planeReplay_of_filling tail hroom hfill, except_ok_bind, conclude_ok]
  have hlength : (planeItemPixels (its ++ [last])).length = n := by
    rw [planeItemPixels_eq, length_planePixelsFrom, itemsTotal_concat, hfill]
  have hused : its.length + 1 ≤ s.slen[p].toNat := by
    have hbytes := congrArg List.length hstream
    rw [length_stream, List.length_append, List.length_cons] at hbytes
    omega
  refine ⟨_, hexec, rfl, ?_, toWord_toNat (hused.trans_lt (BitVec.isLt _)), fun j hj => ?_, rfl,
    (keepsAllBut_putPlane s p _).finish _ _⟩
  · exact (congrArg ((s.putPlane p _).planeImage p) hlength.symm).trans (planeImage_putPlane s p _)
  · exact planeAt_putPlane_of_le s p (hlength.trans_le hj)

/-! ### BPENC and then BPDEC -/

/-- Settles O39: a plane's stream covers the plane with its last byte needed, so BPDEC reads all of
it, and it replays as the plane. -/
theorem bpencThenBpdecRestoresThePlane : Obligations.BpencThenBpdecRestoresThePlane := by
  intro s t t' n p hP hg h hst hsame hf
  rw [exec_bpenc_of_ok hg (flagsSet_of_gridBody_success hg h hst)] at h
  cases h
  obtain ⟨hparams, hwidth, hheight, hstrm, hslen⟩ := hsame
  have hg' : GridOk t' n := by rw [GridOk, hparams, hwidth, hheight]; exact hg
  have hslen' : t'.slen[p].toNat = (planeStream (s.planeImage p n)).length :=
    (congrArg BitVec.toNat hslen).trans
      (toNat_slen_putStream s p (length_planeStream_planeImage_lt hP hg))
  have hfits : t'.slen[p].toNat ≤ t'.params.maxStrm := by
    have hle := length_planeStream_le (s.planeImage p n)
    obtain ⟨-, -, -, hn⟩ := hg'
    rw [length_planeImage] at hle
    exact (hslen'.trans_le hle).trans (Nat.mul_le_mul_left 2 hn)
  obtain ⟨its, last, hits, hroom, hfill⟩ :=
    exists_filling_planeStream (planeImage_ne_nil (p := p) hg)
  rw [length_planeImage] at hroom hfill
  have hbytes : t'.stream p t'.slen[p].toNat = its ++ last :: [] := by
    rw [stream_congr hstrm, hslen', ← hits]
    exact stream_putStream s p _
  obtain ⟨u, hu, hust, hplane, hresult, -⟩ :=
    bpdecReplaysTheRuns t' n p its last [] (hparams ▸ hP) hg' hf hfits hbytes hroom hfill
  refine ⟨u, hu, hust, ?_, BitVec.eq_of_toNat_eq ?_⟩
  · calc u.planeImage p n
        = planeItemPixels (planeStream (s.planeImage p n)) :=
          hplane.trans (congrArg planeItemPixels hits.symm)
      _ = s.planeImage p n := planeItemPixels_planeStream _
  · rw [hresult, ← hslen, hslen', hits, List.length_append, List.length_singleton]

end Sys2Proof.Machine

/-! SUPPORT. The tree that HBUILD makes (44_huffman_build.md R142 to R144): the invariant of the
merge loop, and the invariants of a valid tree from the greedy choice alone. Settles O41. -/

namespace Sys2Proof.Machine

open Sys2Proof.Config

/-! ### Keys -/

/-- The key of node k in the queue (44_huffman_build.md R142). -/
def State.keyAt (s : State) (k : Nat) : QueueKey := ((s.nodeAt k).freq.toNat, k)

theorem keyLess_eq_false_iff (a b : QueueKey) :
    keyLess a b = false ↔ b.1 < a.1 ∨ (a.1 = b.1 ∧ b.2 ≤ a.2) := by
  simp only [keyLess, Bool.or_eq_false_iff, decide_eq_false_iff_not, Bool.and_eq_false_iff,
    beq_eq_false_iff_ne]
  omega

/-- A node whose key is not less is another node above in the key order, or the node itself. -/
theorem keyBelow_of_not_keyLess {s : State} {j k : Nat}
    (h : keyLess (s.keyAt k) (s.keyAt j) = false) (hne : k ≠ j) : KeyBelow s j k := by
  obtain hlt | ⟨heq, hle⟩ := (keyLess_eq_false_iff _ _).1 h
  · exact .inl hlt
  · exact .inr ⟨BitVec.eq_of_toNat_eq heq.symm, lt_of_le_of_ne hle hne.symm⟩

theorem KeyBelow.freq_le {s : State} {j k : Nat} (h : KeyBelow s j k) :
    (s.nodeAt j).freq.toNat ≤ (s.nodeAt k).freq.toNat := by
  obtain hlt | ⟨heq, -⟩ := h
  · exact hlt.le
  · exact (congrArg BitVec.toNat heq).le

/-! ### One internal node, and the trees made of such -/

/-- Node k is what the merge loop makes (44_huffman_build.md R143): an internal node over the two
live nodes of least key, with the sum of their frequencies. -/
structure MergedAt (s : State) (k : Nat) : Prop where
  inner : (s.nodeAt k).leaf = false
  sym : (s.nodeAt k).sym = 0
  distinct : (s.nodeAt k).left ≠ (s.nodeAt k).right
  sum : (s.nodeAt k).freq.toNat =
    (s.nodeAt (s.nodeAt k).left.toNat).freq.toNat + (s.nodeAt (s.nodeAt k).right.toNat).freq.toNat
  liveLeft : LiveAt s k (s.nodeAt k).left.toNat
  liveRight : LiveAt s k (s.nodeAt k).right.toNat
  least : ∀ j, LiveAt s k j → j ≠ (s.nodeAt k).left.toNat → KeyBelow s (s.nodeAt k).left.toNat j
  nextLeast : ∀ j, LiveAt s k j → j ≠ (s.nodeAt k).left.toNat → j ≠ (s.nodeAt k).right.toNat →
    KeyBelow s (s.nodeAt k).right.toNat j

/-- Node k is what HBUILD makes of one intensity (44_huffman_build.md R143). -/
structure LeafAt (s : State) (k : Nat) : Prop where
  leaf : (s.nodeAt k).leaf = true
  counted : (s.nodeAt k).freq ≠ 0
  left : (s.nodeAt k).left = 0
  right : (s.nodeAt k).right = 0

section

variable {s : State} {j k k' : Nat}

theorem MergedAt.child_live (h : MergedAt s k) (hc : ChildOf s j k) : LiveAt s k j := by
  obtain rfl | rfl := hc
  · exact h.liveLeft
  · exact h.liveRight

theorem MergedAt.right_ne_left (h : MergedAt s k) :
    (s.nodeAt k).right.toNat ≠ (s.nodeAt k).left.toNat :=
  fun heq => h.distinct (BitVec.eq_of_toNat_eq heq.symm)

/-- A node that is taken is live no more, so no two nodes have the same child. -/
theorem MergedAt.parent_unique (h : MergedAt s k) (h' : MergedAt s k')
    (hk : s.nsym.toNat ≤ k) (hk' : s.nsym.toNat ≤ k') (hc : ChildOf s j k) (hc' : ChildOf s j k') :
    k' = k := by
  obtain ⟨-, hfree⟩ := h.child_live hc
  obtain ⟨-, hfree'⟩ := h'.child_live hc'
  rcases Nat.lt_trichotomy k' k with hlt | heq | hgt
  · exact absurd hc' (hfree k' hk' hlt)
  · exact heq
  · exact absurd hc (hfree' k hk hgt)

/-- What is live when the next node is made was live before or is the node just made. -/
theorem LiveAt.of_succ (h : LiveAt s (k + 1) j) (hk : s.nsym.toNat ≤ k) :
    j = k ∨ (LiveAt s k j ∧ j ≠ (s.nodeAt k).left.toNat ∧ j ≠ (s.nodeAt k).right.toNat) := by
  obtain ⟨hj, hfree⟩ := h
  have hnot := hfree k hk (Nat.lt_succ_self k)
  rcases Nat.lt_succ_iff_lt_or_eq.1 hj with hlt | heq
  · exact .inr ⟨⟨hlt, fun k' h1 h2 => hfree k' h1 (by omega)⟩,
      fun h => hnot (.inl h.symm), fun h => hnot (.inr h.symm)⟩
  · exact .inl heq

theorem LiveAt.succ (h : LiveAt s k j) (hl : j ≠ (s.nodeAt k).left.toNat)
    (hr : j ≠ (s.nodeAt k).right.toNat) : LiveAt s (k + 1) j := by
  obtain ⟨hj, hfree⟩ := h
  refine ⟨hj.trans (Nat.lt_succ_self k), fun k' hk' hlt => ?_⟩
  rcases Nat.lt_succ_iff_lt_or_eq.1 hlt with hlt' | rfl
  · exact hfree k' hk' hlt'
  · rintro (rfl | rfl)
    · exact hl rfl
    · exact hr rfl

/-- The node just made is live. -/
theorem liveAt_succ_self (h : ∀ k', s.nsym.toNat ≤ k' → k' < k + 1 → MergedAt s k') :
    LiveAt s (k + 1) k := by
  refine ⟨Nat.lt_succ_self k, fun k' hk' hlt hc => ?_⟩
  obtain ⟨hbelow, -⟩ := (h k' hk' hlt).child_live hc
  omega

/-- Whatever is live after k was made has at least the frequency of k's right child. -/
theorem MergedAt.freq_right_le_of_live (h : MergedAt s k) (hk : s.nsym.toNat ≤ k)
    (hj : LiveAt s (k + 1) j) :
    (s.nodeAt (s.nodeAt k).right.toNat).freq.toNat ≤ (s.nodeAt j).freq.toNat := by
  obtain rfl | ⟨hlive, hl, hr⟩ := hj.of_succ hk
  · rw [h.sum]; exact Nat.le_add_left _ _
  · exact (h.nextLeast j hlive hl hr).freq_le

/-- Two internal nodes made one after the other rise in frequency (44_huffman_build.md R144 (g)). -/
theorem MergedAt.freq_le_succ (h : MergedAt s k) (h' : MergedAt s (k + 1))
    (hk : s.nsym.toNat ≤ k) : (s.nodeAt k).freq.toNat ≤ (s.nodeAt (k + 1)).freq.toNat := by
  have hleft := h.freq_right_le_of_live hk h'.liveLeft
  have hright := h.freq_right_le_of_live hk h'.liveRight
  have hkey := (h.least _ h.liveRight h.right_ne_left).freq_le
  rw [h.sum, h'.sum]
  omega

/-- The invariants of a valid tree follow from the leaves and the greedy choice. -/
theorem treeOk_of_merged
    (hsize : 1 ≤ s.nsym.toNat ∧ s.nsym.toNat ≤ 256 ∧ s.root.toNat = 2 * s.nsym.toNat - 2)
    (hleaf : ∀ k, k < s.nsym.toNat → LeafAt s k)
    (hasc : ∀ j k, j < k → k < s.nsym.toNat → (s.nodeAt j).sym.toNat < (s.nodeAt k).sym.toNat)
    (hmerged : ∀ k, Internal s k → MergedAt s k)
    (hlast : ∀ j, LiveAt s (s.root.toNat + 1) j → j = s.root.toNat) : TreeOk s where
  size := hsize
  leaves k hk := by
    refine ⟨fun hl => ?_, fun hlt => (hleaf k hlt).leaf⟩
    by_contra hge
    have hinner := (hmerged k ⟨Nat.not_lt.1 hge, hk⟩).inner
    rw [hl] at hinner
    cases hinner
  ascending := hasc
  counted k hk := (hleaf k hk).counted
  leafFields k hk := ⟨(hleaf k hk).left, (hleaf k hk).right⟩
  innerFields k hk := (hmerged k hk).sym
  below k hk := ⟨(hmerged k hk).liveLeft.1, (hmerged k hk).liveRight.1, (hmerged k hk).distinct⟩
  oneParent j hj := by
    have hdead : ¬ LiveAt s (s.root.toNat + 1) j := fun h => hj.ne (hlast j h)
    simp only [LiveAt, not_and, not_forall, not_not] at hdead
    obtain ⟨k, hnk, hkr, hc⟩ := hdead (by omega)
    have hk : Internal s k := ⟨hnk, Nat.lt_succ_iff.1 hkr⟩
    exact ⟨k, hk, hc, fun k' hk' hc' =>
      (hmerged k hk).parent_unique (hmerged k' hk') hk.1 hk'.1 hc hc'⟩
  sums k hk := (hmerged k hk).sum
  ordered k hk := (hmerged k hk).least _ (hmerged k hk).liveRight (hmerged k hk).right_ne_left
  rising j k hj hk hjk := by
    induction k, hjk using Nat.le_induction with
    | base => exact le_rfl
    | succ k hjk ih =>
      have hk' : Internal s k := ⟨hj.1.trans hjk, (Nat.le_succ k).trans hk.2⟩
      exact (ih hk').trans ((hmerged k hk').freq_le_succ (hmerged _ hk) hk'.1)

theorem greedy_of_merged (h : ∀ k, Internal s k → MergedAt s k) : Greedy s :=
  fun k hk => ⟨(h k hk).liveLeft, (h k hk).liveRight, (h k hk).least, (h k hk).nextLeast⟩

end

/-! ### The merge loop -/

/-- The sum of the leaves' counts. -/
def State.leafTotal (s : State) : Nat :=
  ((List.range s.nsym.toNat).map fun k => (s.nodeAt k).freq.toNat).sum

/-- The invariant of the merge loop, over the tree that stands in the end: the first m nodes are
made, and the queue holds the keys of the live ones. -/
structure Building (s : State) (m : Nat) (live : List QueueKey) : Prop where
  started : s.nsym.toNat ≤ m
  keys : ∀ a, a ∈ live ↔ LiveAt s m a.2 ∧ a = s.keyAt a.2
  nodup : live.Nodup
  count : m + live.length = 2 * s.nsym.toNat
  total : (live.map Prod.fst).sum = s.leafTotal
  merged : ∀ k, s.nsym.toNat ≤ k → k < m → MergedAt s k

section

variable {s : State} {m : Nat} {live live₁ live₂ : List QueueKey} {a b : QueueKey}

/-- The first two pops take two keys off the queue. -/
theorem popMin_twice_perm (ha : popMin live = some (a, live₁))
    (hb : popMin live₁ = some (b, live₂)) : (a :: b :: live₂).Perm live :=
  ((popMin_spec hb).1.cons a).trans (popMin_spec ha).1

theorem Building.keyAt_mem (h : Building s m live) {j : Nat} (hj : LiveAt s m j) :
    s.keyAt j ∈ live := (h.keys (s.keyAt j)).2 ⟨hj, rfl⟩

/-- Two keys of the queue are of two nodes. -/
theorem Building.index_ne (h : Building s m live) (ha : a ∈ live) (hb : b ∈ live) (hne : a ≠ b) :
    a.2 ≠ b.2 := fun heq =>
  hne (((h.keys a).1 ha).2.trans ((congrArg s.keyAt heq).trans ((h.keys b).1 hb).2.symm))

theorem toNat_ofNat_of_lt {w n : Nat} (h : n < 2 ^ w) : (BitVec.ofNat w n).toNat = n := by
  rw [BitVec.toNat_ofNat, Nat.mod_eq_of_lt h]

/-- Of the two keys popped, the first is the least and the second the least of the others. -/
theorem not_keyLess_of_popMin_twice (ha : popMin live = some (a, live₁))
    (hb : popMin live₁ = some (b, live₂)) {c : QueueKey} (hc : c ∈ live) :
    (c ≠ a → keyLess c a = false) ∧ (c ≠ a → c ≠ b → keyLess c b = false) := by
  obtain ⟨hpa, hla⟩ := popMin_spec ha
  obtain ⟨hpb, hlb⟩ := popMin_spec hb
  have hc₁ : c ≠ a → c ∈ live₁ := fun hne =>
    (List.mem_cons.1 (hpa.mem_iff.2 hc)).resolve_left hne
  have hc₂ : c ≠ a → c ≠ b → c ∈ live₂ := fun hne hne' =>
    (List.mem_cons.1 (hpb.mem_iff.2 (hc₁ hne))).resolve_left hne'
  exact ⟨fun hne => hla c (hc₁ hne), fun hne hne' => hlb c (hc₂ hne hne')⟩

/-- What the merged node's fields read as: nothing is cut. -/
theorem Building.toNat_mergedNode (h : Building s m live) (hperm : (a :: b :: live₂).Perm live)
    (hm : s.nodeAt m = mergedNode a b) (hidx : m < 2 ^ 9) (hsum : s.leafTotal < 2 ^ 40) :
    (s.nodeAt m).left.toNat = a.2 ∧ (s.nodeAt m).right.toNat = b.2 ∧
      (s.nodeAt m).freq.toNat = a.1 + b.1 := by
  obtain ⟨⟨hlt_a, -⟩, -⟩ := (h.keys a).1 (hperm.mem_iff.1 (by simp))
  obtain ⟨⟨hlt_b, -⟩, -⟩ := (h.keys b).1 (hperm.mem_iff.1 (by simp))
  have htotal : a.1 + b.1 ≤ s.leafTotal := by
    rw [← h.total, ← (hperm.map Prod.fst).sum_eq]
    simp only [List.map_cons, List.sum_cons]
    omega
  rw [hm]
  exact ⟨toNat_ofNat_of_lt (hlt_a.trans hidx), toNat_ofNat_of_lt (hlt_b.trans hidx),
    toNat_ofNat_of_lt (htotal.trans_lt hsum)⟩

/-- The node made of the two keys popped is the greedy choice. -/
theorem Building.mergedAt (h : Building s m live) (ha : popMin live = some (a, live₁))
    (hb : popMin live₁ = some (b, live₂)) (hm : s.nodeAt m = mergedNode a b)
    (hidx : m < 2 ^ 9) (hsum : s.leafTotal < 2 ^ 40) : MergedAt s m := by
  have hperm := popMin_twice_perm ha hb
  have hmem_a : a ∈ live := hperm.mem_iff.1 (by simp)
  have hmem_b : b ∈ live := hperm.mem_iff.1 (by simp)
  obtain ⟨hlive_a, hkey_a⟩ := (h.keys a).1 hmem_a
  obtain ⟨hlive_b, hkey_b⟩ := (h.keys b).1 hmem_b
  obtain ⟨hleft, hright, hfreq⟩ := h.toNat_mergedNode hperm hm hidx hsum
  have hne : a ≠ b := by
    rintro rfl
    exact (List.nodup_cons.1 (hperm.nodup_iff.2 h.nodup)).1 (by simp)
  have key : ∀ j, LiveAt s m j →
      (j ≠ a.2 → KeyBelow s a.2 j) ∧ (j ≠ a.2 → j ≠ b.2 → KeyBelow s b.2 j) := by
    intro j hj
    obtain ⟨hless_a, hless_b⟩ := not_keyLess_of_popMin_twice ha hb (h.keyAt_mem hj)
    have hsnd : ∀ {c : QueueKey}, j ≠ c.2 → s.keyAt j ≠ c :=
      fun hne heq => hne (congrArg Prod.snd heq)
    rw [hkey_a] at hless_a hless_b
    rw [hkey_b] at hless_b
    exact ⟨fun hna => keyBelow_of_not_keyLess (hless_a (hsnd hna)) hna,
      fun hna hnb => keyBelow_of_not_keyLess (hless_b (hsnd hna) (hsnd hnb)) hnb⟩
  exact
    { inner := by rw [hm]; rfl
      sym := by rw [hm]; rfl
      distinct := fun heq => h.index_ne hmem_a hmem_b hne (by rw [← hleft, heq, hright])
      sum := by rw [hleft, hright, hfreq, hkey_a, hkey_b]; rfl
      liveLeft := hleft ▸ hlive_a
      liveRight := hright ▸ hlive_b
      least := by rw [hleft]; exact fun j hj => (key j hj).1
      nextLeast := by rw [hleft, hright]; exact fun j hj => (key j hj).2 }

/-- What is left in the queue is what was in it, without the two keys popped. -/
theorem Building.mem_rest_iff (h : Building s m live) (hperm : (a :: b :: live₂).Perm live)
    (c : QueueKey) :
    c ∈ live₂ ↔ (LiveAt s m c.2 ∧ c = s.keyAt c.2) ∧ c ≠ a ∧ c ≠ b := by
  obtain ⟨hnot_a, hnodup⟩ := List.nodup_cons.1 (hperm.nodup_iff.2 h.nodup)
  obtain ⟨hnot_b, -⟩ := List.nodup_cons.1 hnodup
  rw [← h.keys c, ← hperm.mem_iff]
  constructor
  · exact fun hc => ⟨by simp [hc], fun heq => hnot_a (by simp [← heq, hc]),
      fun heq => hnot_b (heq ▸ hc)⟩
  · rintro ⟨hc, hna, hnb⟩
    simpa [hna, hnb] using hc

/-- After a merge the queue holds the keys of the nodes live then. -/
theorem Building.mem_merge_iff (h : Building s m live) (hperm : (a :: b :: live₂).Perm live)
    (hm : s.nodeAt m = mergedNode a b) (hidx : m < 2 ^ 9) (hsum : s.leafTotal < 2 ^ 40)
    (hmerged : ∀ k, s.nsym.toNat ≤ k → k < m + 1 → MergedAt s k) (c : QueueKey) :
    c ∈ (a.1 + b.1, m) :: live₂ ↔ LiveAt s (m + 1) c.2 ∧ c = s.keyAt c.2 := by
  obtain ⟨hleft, hright, hfreq⟩ := h.toNat_mergedNode hperm hm hidx hsum
  have hkey_m : (a.1 + b.1, m) = s.keyAt m := by rw [State.keyAt, hfreq]
  rw [List.mem_cons, h.mem_rest_iff hperm, hkey_m]
  constructor
  · rintro (rfl | ⟨hc, hna, hnb⟩)
    · exact ⟨liveAt_succ_self hmerged, rfl⟩
    · have hmem := (h.keys c).2 hc
      refine ⟨hc.1.succ ?_ ?_, hc.2⟩
      · exact hleft ▸ h.index_ne hmem (hperm.mem_iff.1 (by simp)) hna
      · exact hright ▸ h.index_ne hmem (hperm.mem_iff.1 (by simp)) hnb
  · rintro ⟨hlive, hkey⟩
    obtain heq | ⟨hlive', hl, hr⟩ := hlive.of_succ h.started
    · exact .inl (heq ▸ hkey)
    · rw [hleft] at hl
      rw [hright] at hr
      exact .inr ⟨⟨hlive', hkey⟩, fun h => hl (congrArg Prod.snd h),
        fun h => hr (congrArg Prod.snd h)⟩

/-- One turn of the merge loop keeps its invariant. -/
theorem Building.merge (h : Building s m live) (ha : popMin live = some (a, live₁))
    (hb : popMin live₁ = some (b, live₂)) (hm : s.nodeAt m = mergedNode a b)
    (hidx : m < 2 ^ 9) (hsum : s.leafTotal < 2 ^ 40) :
    Building s (m + 1) ((a.1 + b.1, m) :: live₂) := by
  have hperm := popMin_twice_perm ha hb
  have hmerged : ∀ k, s.nsym.toNat ≤ k → k < m + 1 → MergedAt s k := by
    intro k hk hkm
    rcases Nat.lt_succ_iff_lt_or_eq.1 hkm with hlt | rfl
    · exact h.merged k hk hlt
    · exact h.mergedAt ha hb hm hidx hsum
  refine ⟨h.started.trans (Nat.le_succ m), h.mem_merge_iff hperm hm hidx hsum hmerged,
    List.nodup_cons.2 ⟨fun hc => ?_, ?_⟩, ?_, ?_, hmerged⟩
  · obtain ⟨⟨⟨hlt, -⟩, -⟩, -⟩ := (h.mem_rest_iff hperm _).1 hc
    exact lt_irrefl m hlt
  · exact ((hperm.nodup_iff.2 h.nodup).of_cons).of_cons
  · have hcount := h.count
    have hlen := hperm.length_eq
    simp only [List.length_cons] at hlen ⊢
    omega
  · rw [← h.total, ← (hperm.map Prod.fst).sum_eq]
    simp only [List.map_cons, List.sum_cons]
    omega

/-- A queue that holds a key gives one. -/
theorem exists_popMin {q : List QueueKey} (h : q ≠ []) : ∃ a q₁, popMin q = some (a, q₁) := by
  cases q with
  | nil => exact absurd rfl h
  | cons k ks =>
    simp only [popMin]
    split
    · exact ⟨_, _, rfl⟩
    · split <;> exact ⟨_, _, rfl⟩

end

theorem prefix_mergeLoop (fuel : Nat) (made : List NodeRec) (live : List QueueKey) :
    made <+: mergeLoop fuel made live := by
  fun_induction mergeLoop fuel made live
  case case1 | case2 | case3 => exact List.prefix_rfl
  case case4 ih => exact (List.prefix_append _ _).trans ih

/-- The node a merge makes stays at its index. -/
theorem getElem?_mergeLoop (fuel : Nat) (made : List NodeRec) (n : NodeRec) (live : List QueueKey) :
    (mergeLoop fuel (made ++ [n]) live)[made.length]? = some n := by
  obtain ⟨more, hmore⟩ := prefix_mergeLoop fuel (made ++ [n]) live
  simp [← hmore]

/-- The merge loop ends with one live node. -/
theorem building_mergeLoop {s : State} (hn : s.nsym.toNat ≤ 256) (hsum : s.leafTotal < 2 ^ 40)
    {fuel : Nat} {made : List NodeRec} {live : List QueueKey} (h : Building s made.length live)
    (hne : live ≠ []) (hfuel : live.length ≤ fuel + 1)
    (hnodes : ∀ (k : Nat) (v : NodeRec), (mergeLoop fuel made live)[k]? = some v → s.nodeAt k = v) :
    ∃ a, Building s (mergeLoop fuel made live).length [a] := by
  fun_induction mergeLoop fuel made live
  case case1 live =>
    obtain ⟨a, rfl⟩ := List.length_eq_one_iff.1
      (le_antisymm hfuel (List.length_pos_iff.2 hne))
    exact ⟨a, h⟩
  case case2 hnone =>
    obtain ⟨a, q, hpop⟩ := exists_popMin hne
    cases hnone.symm.trans hpop
  case case3 a live₁ hpop hnone =>
    by_cases hlive₁ : live₁ = []
    · have hperm := (popMin_spec hpop).1
      rw [hlive₁] at hperm
      exact ⟨a, List.singleton_perm.1 hperm ▸ h⟩
    · obtain ⟨b, q, hpop'⟩ := exists_popMin hlive₁
      cases hnone.symm.trans hpop'
  case case4 fuel made live a live₁ ha b live₂ hb ih =>
    have hlen := (popMin_twice_perm ha hb).length_eq
    have hcount := h.count
    simp only [List.length_cons] at hlen
    have hm : s.nodeAt made.length = mergedNode a b := hnodes _ _ (getElem?_mergeLoop _ _ _ _)
    have hnext := h.merge ha hb hm (by omega) hsum
    refine ih ?_ (by simp) (by simp only [List.length_cons]; omega) hnodes
    rwa [List.length_append, List.length_singleton]

/-- The keys of the leaves. -/
theorem queueKeys_eq_map {s : State} {k : Nat} {ns : List NodeRec}
    (h : ∀ (j : Nat) (hj : j < ns.length), s.nodeAt (k + j) = ns[j]) :
    queueKeys k ns = (List.range' k ns.length).map s.keyAt := by
  induction ns generalizing k with
  | nil => rfl
  | cons n ns ih =>
    have hhead : s.keyAt k = (n.freq.toNat, k) := by
      rw [State.keyAt, show s.nodeAt k = n from h 0 (by simp)]
    have htail := ih (k := k + 1) fun j hj => by
      rw [Nat.add_right_comm]
      exact h (j + 1) (Nat.succ_lt_succ hj)
    rw [queueKeys, htail, List.length_cons, List.range'_succ, List.map_cons, hhead]

/-- Before the first merge every leaf is live. -/
theorem liveAt_leaves (s : State) (j : Nat) : LiveAt s s.nsym.toNat j ↔ j < s.nsym.toNat :=
  ⟨fun h => h.1, fun h => ⟨h, fun _ hk hlt => absurd hlt (Nat.not_lt.2 hk)⟩⟩

/-- The merge loop begins with every leaf in the queue. -/
theorem building_leaves (s : State) :
    Building s s.nsym.toNat ((List.range s.nsym.toNat).map s.keyAt) where
  started := le_rfl
  keys a := by
    rw [liveAt_leaves, List.mem_map]
    constructor
    · rintro ⟨j, hj, rfl⟩
      exact ⟨List.mem_range.1 hj, rfl⟩
    · rintro ⟨hlt, hkey⟩
      exact ⟨a.2, List.mem_range.2 hlt, hkey.symm⟩
  nodup := List.nodup_range.map fun _ _ h => congrArg Prod.snd h
  count := by rw [List.length_map, List.length_range, Nat.two_mul]
  total := by rw [List.map_map]; rfl
  merged k hk hlt := absurd hlt (Nat.not_lt.2 hk)

/-! ### HBUILD -/

/-- What a successful HBUILD writes before its `done` (44_huffman_build.md R143). -/
def State.putTree (s : State) : State :=
  { s with
    node := s.node.writeFrom nodeElem 0 (huffmanNodes s.leafNodes)
    nsym := toWord s.occurring.length
    root := toWord ((huffmanNodes s.leafNodes).length - 1) }

section

variable {s : State}

theorem exec_hbuild_of_ok (hf : FlagsSet freqv s) (h : s.occurring ≠ []) :
    exec .hbuild s = .next (s.putTree.finish (toWord s.occurring.length) .node) :=
  execHbuild_of_ok hf fun hl => h (List.length_eq_zero_iff.1 hl)

theorem length_occurring_le (s : State) : s.occurring.length ≤ 256 :=
  (List.length_filter_le _ _).trans_eq List.length_range

theorem mem_occurring (s : State) (x : Nat) : x ∈ s.occurring ↔ x < 256 ∧ s.freqAt x ≠ 0 := by
  simp [State.occurring, symbols]

theorem occurring_ne_nil (h : ∃ x, x < 256 ∧ s.freqAt x ≠ 0) : s.occurring ≠ [] := by
  obtain ⟨x, hx⟩ := h
  exact List.ne_nil_of_mem ((mem_occurring s x).2 hx)

theorem toNat_nsym_putTree (s : State) : s.putTree.nsym.toNat = s.occurring.length :=
  toWord_toNat ((length_occurring_le s).trans_lt (by norm_num))

theorem nodeAt_putTree (s : State) (k : Nat) :
    s.putTree.nodeAt k = ((huffmanNodes s.leafNodes)[k]?).getD (s.nodeAt k) := by
  simp [State.nodeAt, State.putTree, Memory.get_writeFrom]

theorem nodeAt_putTree_of_lt (s : State) {k : Nat} (h : k < s.occurring.length) :
    s.putTree.nodeAt k = leafNode (s.freqAt s.occurring[k]) s.occurring[k] := by
  obtain ⟨more, hmore⟩ := prefix_mergeLoop s.leafNodes.length s.leafNodes (queueKeys 0 s.leafNodes)
  have hk : k < s.leafNodes.length := by rwa [State.leafNodes, List.length_map]
  rw [nodeAt_putTree, huffmanNodes, ← hmore, List.getElem?_append_left hk]
  simp [State.leafNodes, h]

theorem toNat_sym_putTree (s : State) {k : Nat} (h : k < s.occurring.length) :
    (s.putTree.nodeAt k).sym.toNat = s.occurring[k] := by
  obtain ⟨hlt, -⟩ := (mem_occurring s _).1 (List.getElem_mem h)
  rw [nodeAt_putTree_of_lt s h]
  exact toNat_ofNat_of_lt hlt

theorem toNat_freq_putTree (s : State) {k : Nat} (h : k < s.occurring.length) :
    (s.putTree.nodeAt k).freq.toNat = (s.freqAt s.occurring[k]).toNat := by
  rw [nodeAt_putTree_of_lt s h]
  exact BitVec.toNat_setWidth_of_le (by norm_num)

theorem leafAt_putTree (s : State) {k : Nat} (h : k < s.occurring.length) : LeafAt s.putTree k := by
  have hcount : s.freqAt s.occurring[k] ≠ 0 := ((mem_occurring s _).1 (List.getElem_mem h)).2
  have hfreq := toNat_freq_putTree s h
  refine ⟨?_, fun hzero => hcount (BitVec.eq_of_toNat_eq ?_), ?_, ?_⟩
  · rw [nodeAt_putTree_of_lt s h]; rfl
  · rw [← hfreq, hzero]; rfl
  · rw [nodeAt_putTree_of_lt s h]; rfl
  · rw [nodeAt_putTree_of_lt s h]; rfl

/-- The sum of 256 counts of 32 bits fits the 40 bits of a frequency (10_state.md R39). -/
theorem leafTotal_putTree_lt (s : State) : s.putTree.leafTotal < 2 ^ 40 := by
  have hbound : s.putTree.leafTotal ≤ s.occurring.length * (2 ^ 32 - 1) := by
    refine (List.sum_le_card_nsmul _ (2 ^ 32 - 1) ?_).trans_eq ?_
    · intro c hc
      obtain ⟨k, hk, rfl⟩ := List.mem_map.1 hc
      rw [List.mem_range, toNat_nsym_putTree] at hk
      rw [toNat_freq_putTree s hk]
      have := (s.freqAt s.occurring[k]).isLt
      omega
    · rw [List.length_map, List.length_range, toNat_nsym_putTree, smul_eq_mul]
  have := length_occurring_le s
  omega

/-- The merge loop of HBUILD ends with the whole tree made and the root alone live. -/
theorem building_putTree (h : s.occurring ≠ []) :
    ∃ a, Building s.putTree (huffmanNodes s.leafNodes).length [a] := by
  have hlen : s.leafNodes.length = s.putTree.nsym.toNat := by
    rw [State.leafNodes, List.length_map, toNat_nsym_putTree]
  have hkeys : queueKeys 0 s.leafNodes = (List.range s.putTree.nsym.toNat).map s.putTree.keyAt := by
    rw [List.range_eq_range', ← hlen]
    refine queueKeys_eq_map fun k hk => ?_
    have hk' : k < s.occurring.length := by rwa [State.leafNodes, List.length_map] at hk
    rw [Nat.zero_add, nodeAt_putTree_of_lt s hk']
    simp [State.leafNodes]
  have hstart := building_leaves s.putTree
  rw [← hkeys, ← hlen] at hstart
  refine building_mergeLoop (toNat_nsym_putTree s ▸ length_occurring_le s) (leafTotal_putTree_lt s)
    hstart ?_ ?_ fun k v hv => ?_
  · rw [← List.length_pos_iff, length_queueKeys, hlen, toNat_nsym_putTree]
    exact List.length_pos_iff.2 h
  · rw [length_queueKeys]; exact Nat.le_succ _
  · rw [nodeAt_putTree, huffmanNodes, hv]; rfl

theorem length_huffmanNodes (h : s.occurring ≠ []) :
    (huffmanNodes s.leafNodes).length + 1 = 2 * s.occurring.length := by
  obtain ⟨a, hb⟩ := building_putTree h
  exact toNat_nsym_putTree s ▸ hb.count

theorem toNat_root_putTree (h : s.occurring ≠ []) :
    s.putTree.root.toNat = 2 * s.occurring.length - 2 := by
  have hlen := length_huffmanNodes h
  have hle := length_occurring_le s
  refine (toWord_toNat ?_).trans ?_ <;> omega

/-- All nodes up to the root are made, and the root alone is live. -/
theorem building_root_putTree (h : s.occurring ≠ []) :
    Building s.putTree (s.putTree.root.toNat + 1) [s.putTree.keyAt s.putTree.root.toNat] := by
  have hlen := length_huffmanNodes h
  have hpos := List.length_pos_iff.2 h
  have hroot : (huffmanNodes s.leafNodes).length = s.putTree.root.toNat + 1 := by
    rw [toNat_root_putTree h]; omega
  obtain ⟨a, hb⟩ := building_putTree h
  rw [hroot] at hb
  have hmem := hb.keyAt_mem (liveAt_succ_self hb.merged)
  rwa [List.mem_singleton.1 hmem]

theorem mergedAt_putTree (h : s.occurring ≠ []) {k : Nat} (hk : Internal s.putTree k) :
    MergedAt s.putTree k :=
  (building_root_putTree h).merged k hk.1 (Nat.lt_succ_iff.2 hk.2)

theorem treeOk_putTree (h : s.occurring ≠ []) : TreeOk s.putTree := by
  have hpos := List.length_pos_iff.2 h
  have hle := length_occurring_le s
  have hnsym := toNat_nsym_putTree s
  refine treeOk_of_merged ⟨by omega, by omega, by rw [toNat_root_putTree h, hnsym]⟩
    (fun k hk => leafAt_putTree s (hnsym ▸ hk)) (fun j k hjk hk => ?_)
    (fun k hk => mergedAt_putTree h hk) fun j hj => ?_
  · rw [hnsym] at hk
    rw [toNat_sym_putTree s hk, toNat_sym_putTree s (hjk.trans hk)]
    exact List.pairwise_iff_getElem.1 (List.pairwise_lt_range.filter _) _ _ _ _ hjk
  · exact congrArg Prod.snd (List.mem_singleton.1 ((building_root_putTree h).keyAt_mem hj))

theorem greedy_putTree (h : s.occurring ≠ []) : Greedy s.putTree :=
  greedy_of_merged fun _ hk => mergedAt_putTree h hk

/-- The leaves are the intensities that occur, with their counts (44_huffman_build.md R143). -/
theorem leaves_putTree (s : State) :
    (List.range s.putTree.nsym.toNat).map
        (fun k => ((s.putTree.nodeAt k).sym.toNat, (s.putTree.nodeAt k).freq.toNat)) =
      s.occurring.map fun x => (x, (s.freqAt x).toNat) := by
  rw [toNat_nsym_putTree]
  refine List.ext_getElem (by simp) fun k hk _ => ?_
  have hk' : k < s.occurring.length := by simpa using hk
  simp [toNat_sym_putTree s hk', toNat_freq_putTree s hk']

/-- A sum over all intensities of what the count 0 makes 0 is a sum over those that occur. -/
theorem sum_occurring (s : State) {g : Nat → Nat} (hg : ∀ x, s.freqAt x = 0 → g x = 0) :
    (s.occurring.map g).sum = ((List.range 256).map g).sum := by
  unfold State.occurring symbols
  generalize List.range 256 = xs
  induction xs with
  | nil => rfl
  | cons x xs ih =>
    by_cases hx : s.freqAt x = 0
    · rw [List.filter_cons_of_neg (by simpa using hx), List.map_cons, List.sum_cons, hg x hx, ih,
        Nat.zero_add]
    · rw [List.filter_cons_of_pos (by simpa using hx), List.map_cons, List.sum_cons, ih,
        List.map_cons, List.sum_cons]

/-- The root carries the sum of all counts (44_huffman_build.md R144 (e)). -/
theorem toNat_freq_root_putTree (h : s.occurring ≠ []) :
    (s.putTree.nodeAt s.putTree.root.toNat).freq.toNat =
      ((List.range 256).map fun x => (s.freqAt x).toNat).sum := by
  have htotal := (building_root_putTree h).total
  rw [List.map_singleton, List.sum_singleton] at htotal
  have hleaves := congrArg (fun l => (l.map Prod.snd).sum) (leaves_putTree s)
  simp only [List.map_map] at hleaves
  calc (s.putTree.nodeAt s.putTree.root.toNat).freq.toNat
      = s.putTree.leafTotal := htotal
    _ = (s.occurring.map fun x => (s.freqAt x).toNat).sum := hleaves
    _ = _ := sum_occurring s fun x hx => by rw [hx]; rfl

theorem nodeAt_putTree_of_gt (h : s.occurring ≠ []) {k : Nat} (hk : s.putTree.root.toNat < k) :
    s.putTree.nodeAt k = s.nodeAt k := by
  have hlen := length_huffmanNodes h
  rw [toNat_root_putTree h] at hk
  rw [nodeAt_putTree, List.getElem?_eq_none (by omega)]
  rfl

end

theorem TreeOk.of_same {s t : State} (h : TreeOk s) (hnode : t.node = s.node)
    (hnsym : t.nsym = s.nsym) (hroot : t.root = s.root) : TreeOk t := by
  cases s
  cases t
  cases hnode
  cases hnsym
  cases hroot
  exact { h with }

theorem TreeOk.finish {s : State} (h : TreeOk s) (r : Word) (d : Dest) : TreeOk (s.finish r d) :=
  h.of_same rfl rfl rfl

/-- Settles O41: the merge loop's invariant, at its end. -/
theorem hbuildBuildsTheHuffmanTree : Obligations.HbuildBuildsTheHuffmanTree := by
  intro s hf hcount
  have h := occurring_ne_nil hcount
  exact ⟨_, exec_hbuild_of_ok hf h, rfl, leaves_putTree s, (treeOk_putTree h).finish _ _,
    greedy_putTree h, rfl, toNat_freq_root_putTree h, fun k => nodeAt_putTree_of_gt h, rfl,
    keepsAllBut_mono ((keepsAllBut_setTree s _ _ _).finish _ _) (by simp)⟩

end Sys2Proof.Machine

/-! SUPPORT. The flags TREEV and CODEV (10_state.md R33, R34): no step but HBUILD's, or HGEN's, sets
the flag or writes what it vouches for. Settles O56; used for O57. -/

namespace Sys2Proof.Machine

open Sys2Proof.Config

/-! ### Operations that alone make what a flag vouches for -/

/-- HBUILD with the bit of TREEV, and HGEN with the bit of CODEV (10_state.md R33). -/
def Derives (i : Instr) (b : Nat) : Prop := (i = .hbuild ∧ b = 2) ∨ (i = .hgen ∧ b = 3)

/-- What an operation writes before its `done`. -/
def writtenFields (i : Instr) : List Field := (destination i).fields ++ lengthFields i

/-- The tree and the code table. -/
def derivedFields : List Field := [.node, .nsym, .root, .code, .ncode]

/-- If the flag is 1 afterwards, it was 1 before, and what it vouches for is the same. -/
def Vouched (i : Instr) (b : Nat) (s t : State) : Prop :=
  t.valid.getLsbD b = true → s.valid.getLsbD b = true ∧ ∀ f ∈ writtenFields i, f.Same s t

section

variable {i i' : Instr} {b : Nat}

theorem Derives.derivedOnly_bit (h : Derives i b) : derivedOnly.getLsbD b = true := by
  obtain ⟨-, rfl⟩ | ⟨-, rfl⟩ := h <;> decide

theorem Derives.flags_self (h : Derives i b) : (destination i).flags.getLsbD b = true := by
  obtain ⟨rfl, rfl⟩ | ⟨rfl, rfl⟩ := h <;> decide

/-- No other operation has the flag for its own. -/
theorem Derives.flags_other (h : Derives i b) (hne : i' ≠ i) :
    (destination i').flags.getLsbD b = false := by
  have key : ∀ i' : Instr, (i' ≠ .hbuild → (destination i').flags.getLsbD 2 = false) ∧
      (i' ≠ .hgen → (destination i').flags.getLsbD 3 = false) := by
    intro i'
    cases i' with
    | bpenc p | bpdec p => revert p; decide
    | _ => decide
  obtain ⟨rfl, rfl⟩ | ⟨rfl, rfl⟩ := h
  · exact (key i').1 hne
  · exact (key i').2 hne

/-- The two operations write the tree and the code table. -/
theorem Derives.mem_written (h : Derives i b) {f : Field} (hf : f ∈ writtenFields i) :
    f ∈ derivedFields := by
  have key : writtenFields .hbuild ⊆ derivedFields ∧ writtenFields .hgen ⊆ derivedFields := by
    decide
  obtain ⟨rfl, -⟩ | ⟨rfl, -⟩ := h
  · exact key.1 hf
  · exact key.2 hf

theorem Derives.not_written (h : Derives i b) (hne : i' ≠ i) {f : Field}
    (hf : f ∈ writtenFields i) : f ∉ writtenFields i' := by
  have key : ∀ i' : Instr, (i' ≠ .hbuild → ∀ f ∈ writtenFields .hbuild, f ∉ writtenFields i') ∧
      (i' ≠ .hgen → ∀ f ∈ writtenFields .hgen, f ∉ writtenFields i') := by
    intro i'
    cases i' with
    | bpenc p | bpdec p => revert p; decide
    | _ => decide
  obtain ⟨rfl, rfl⟩ | ⟨rfl, rfl⟩ := h
  · exact (key i').1 hne f hf
  · exact (key i').2 hne f hf

/-- `done` and `raise` report in registers outside the tree and the table. -/
theorem Derives.notMem_report (h : Derives i b) {f : Field} (hf : f ∈ writtenFields i)
    {l : List Field} (hl : f ∉ l) : f ∉ [Field.status, .result, .valid] ++ l := by
  have hreport : ∀ f ∈ derivedFields, f ∉ [Field.status, .result, .valid] := by decide
  exact fun hmem => (List.mem_append.1 hmem).elim (hreport f (h.mem_written hf)) hl

end

section

variable {i : Instr} {b : Nat} {s t u : State}

theorem Vouched.trans (hst : Vouched i b s t) (htu : Vouched i b t u) : Vouched i b s u := by
  intro hu
  obtain ⟨ht, hsame_tu⟩ := htu hu
  obtain ⟨hs, hsame_st⟩ := hst ht
  refine ⟨hs, fun f hf => ?_⟩
  have h1 := hsame_st f hf
  have h2 := hsame_tu f hf
  cases f <;> exact h2.trans h1

/-- An update that keeps VALID and writes none of the tree and the table. -/
theorem Derives.vouched_of_keeps (hd : Derives i b) {l : List Field} (h : KeepsAllBut l s t)
    (hl : ∀ f ∈ derivedFields, f ∉ l := by simp [derivedFields])
    (hv : Field.valid ∉ l := by simp) : Vouched i b s t := by
  have hvalid : t.valid = s.valid := h .valid hv
  exact fun ht => ⟨hvalid ▸ ht, fun f hf => h f (hl f (hd.mem_written hf))⟩

/-- An error of the operation itself leaves the flag 0. -/
theorem Derives.flag_raise (hd : Derives i b) (s : State) (k : ErrKind) (info : Word) :
    (s.raise k info (destination i)).valid.getLsbD b = false := by
  rw [State.raise_valid, BitVec.getLsbD_and, BitVec.getLsbD_not, hd.flags_self, Bool.not_true,
    Bool.and_false, Bool.and_false]

/-- An error clears the flag of its own destination and keeps every other. -/
theorem Derives.vouched_raise (hd : Derives i b) (k : ErrKind) (info : Word) (i' : Instr) :
    Vouched i b s (s.raise k info (destination i')) := by
  intro ht
  have hne : i' ≠ i := by
    rintro rfl
    exact Bool.false_ne_true ((hd.flag_raise s k info).symm.trans ht)
  rw [State.raise_valid, BitVec.getLsbD_and, Bool.and_eq_true] at ht
  refine ⟨ht.1, fun f hf => keepsAllBut_raise s k info _ f (hd.notMem_report hf ?_)⟩
  have hdraws : ∀ f ∈ derivedFields, f ≠ .draws := by decide
  refine List.not_mem_cons_of_ne_of_not_mem (hdraws f (hd.mem_written hf)) fun hmem => ?_
  exact hd.not_written hne hf (List.mem_append_left _ hmem)

/-- Another operation keeps what the flag vouches for, whether it succeeds or not. -/
theorem Derives.vouched_exec (hd : Derives i b) {i' : Instr} (hne : i' ≠ i)
    (h : exec i' s = .next t) : Vouched i b s t := by
  by_cases hsrst : i' = .srst
  · subst hsrst
    cases h
    intro ht
    simp [Dest.flags] at ht
  obtain ⟨k, -, info, hx⟩ | ⟨u, r, hx, hkeep⟩ := exec_cases i' s hsrst
  · cases hx.symm.trans h
    exact hd.vouched_raise _ _ _
  · cases hx.symm.trans h
    intro ht
    have hvalid : u.valid = s.valid := hkeep .valid (valid_notMem_written i')
    rw [State.finish_valid, BitVec.getLsbD_or, hd.flags_other hne, Bool.or_false, hvalid] at ht
    exact ⟨ht, fun f hf => hkeep.finish r _ f (hd.notMem_report hf (hd.not_written hne hf))⟩

/-- The host can clear the flag and can write nothing of what it vouches for (10_state.md R34). -/
theorem Derives.vouched_writeReg (hd : Derives i b) (k : Nat) (w : Word) :
    Vouched i b s (s.writeReg k w) := by
  intro ht
  have hs : s.valid.getLsbD b = true := by
    rw [State.writeReg_valid] at ht
    split at ht
    · rw [getLsbD_validAfterHostWrite_of_derivedOnly _ _ hd.derivedOnly_bit,
        Bool.and_eq_true] at ht
      exact ht.1
    · exact ht
  refine ⟨hs, fun f hf => keepsAllBut_writeReg s k w f ?_⟩
  exact (by simp [derivedFields] : ∀ f ∈ derivedFields, f ∉ _) f (hd.mem_written hf)

theorem keepsAllBut_afterCommand (s : State) : KeepsAllBut [.script] s s.afterCommand := by
  unfold State.afterCommand
  split
  · exact keepsAllBut_setScript s []
  · exact keepsAllBut_refl _ s

/-- The state in which a command's operation is issued. -/
theorem keepsAllBut_begin_setScript (s : State) (rest : List HostMove) :
    KeepsAllBut [.status, .script] s (State.begin { s with script := rest }) := by
  intro f hf
  cases f with
  | status | script => exact absurd (by simp) hf
  | _ => rfl

theorem keepsAllBut_setStopOnError (s : State) (rest : List HostMove) (on : Bool) :
    KeepsAllBut [.script, .stopOnError] s { s with script := rest, stopOnError := on } := by
  intro f hf
  cases f with
  | script | stopOnError => exact absurd (by simp) hf
  | _ => rfl

/-- A step keeps what the flag vouches for or runs the operation that makes it. -/
theorem Derives.vouched_step (hd : Derives i b) (h : step s = .next t) :
    Vouched i b s t ∨
    ∃ s' u, KeepsAllBut [.status, .script] s s' ∧ exec i s' = .next u ∧
      KeepsAllBut [.script] u t := by
  have hscript : ∀ rest, Vouched i b s { s with script := rest } := fun rest =>
    hd.vouched_of_keeps (keepsAllBut_setScript s rest)
  have hissue : ∀ rest, Vouched i b s (State.begin { s with script := rest }) := fun rest =>
    hd.vouched_of_keeps (keepsAllBut_begin_setScript s rest)
  have hafter : ∀ u : State, Vouched i b u u.afterCommand := fun u =>
    hd.vouched_of_keeps (keepsAllBut_afterCommand u)
  obtain ⟨-, rfl⟩ | ⟨m, rest, -, hm⟩ := step_cases s h
  · exact .inl (hd.vouched_of_keeps (keepsAllBut_refl [] t))
  obtain ⟨ds, rfl⟩ | ⟨k, v, -, -, rfl⟩ | ⟨v, i', u, -, -, hx, rfl⟩ | ⟨v, -, -, rfl⟩ |
    ⟨sp, j, v, -, rfl⟩ | ⟨on, -, rfl⟩ | ⟨-, rfl⟩ := hm
  · exact .inl (hd.vouched_of_keeps (keepsAllBut_setReadings s rest _))
  · exact .inl ((hscript rest).trans (hd.vouched_writeReg _ _))
  · by_cases hi : i' = i
    · subst hi
      exact .inr ⟨_, u, keepsAllBut_begin_setScript s rest, hx, keepsAllBut_afterCommand u⟩
    · exact .inl (((hissue rest).trans (hd.vouched_exec hi hx)).trans (hafter u))
  · exact .inl (((hissue rest).trans (hd.vouched_raise _ _ .vdec)).trans (hafter _))
  · exact .inl ((hscript rest).trans (hd.vouched_of_keeps (keepsAllBut_writeBuf _ _ _ _)))
  · exact .inl (hd.vouched_of_keeps (keepsAllBut_setStopOnError s rest on))
  · exact .inl fun ht => by simp at ht

end

/-! ### TREEV -/

/-- A mask of one bit is set when the bit is. -/
theorem flagsSet_iff_getLsbD {m : Word} {b : Nat} (hb : b < 32) (hm : m = BitVec.twoPow 32 b)
    (s : State) : FlagsSet m s ↔ s.valid.getLsbD b = true := by
  have hne : (0 : Word) ≠ BitVec.twoPow 32 b := fun h => by
    have hbit := congrArg (BitVec.getLsbD · b) h
    simp [hb] at hbit
  rw [FlagsSet, hm, BitVec.and_twoPow]
  split
  · next h => simp [h]
  · next h => simpa [h] using hne

theorem flagsSet_treev_iff (s : State) : FlagsSet treev s ↔ s.valid.getLsbD 2 = true :=
  flagsSet_iff_getLsbD (by decide) (by decide) s

theorem derives_hbuild : Derives .hbuild 2 := .inl ⟨rfl, rfl⟩

theorem Vouched.treeInv {s t : State} (h : Vouched .hbuild 2 s t) (hs : TreeInv s) : TreeInv t := by
  intro ht
  obtain ⟨hflag, hsame⟩ := h ((flagsSet_treev_iff t).1 ht)
  exact (hs ((flagsSet_treev_iff s).2 hflag)).of_same (hsame .node (by decide))
    (hsame .nsym (by decide)) (hsame .root (by decide))

/-- HBUILD's two ends (44_huffman_build.md R143). -/
theorem exec_hbuild_cases {s t : State} (h : exec .hbuild s = .next t) :
    (FlagsSet freqv s ∧ s.occurring ≠ [] ∧
      t = s.putTree.finish (toWord s.occurring.length) .node) ∨
    ∃ k info, t = s.raise k info .node := by
  by_cases hf : FlagsSet freqv s
  · by_cases hcount : s.occurring = []
    · change execHbuild s = _ at h
      unfold execHbuild at h
      rw [requireFlags_of_set hf, except_ok_bind, if_pos (by rw [hcount]; rfl), conclude_error] at h
      cases h
      exact .inr ⟨_, _, rfl⟩
    · rw [exec_hbuild_of_ok hf hcount] at h
      cases h
      exact .inl ⟨hf, hcount, rfl⟩
  · change execHbuild s = _ at h
    unfold execHbuild at h
    rw [requireFlags_error s hf, except_error_bind, conclude_error] at h
    cases h
    exact .inr ⟨_, _, rfl⟩

/-- HBUILD leaves a valid tree or TREEV 0. -/
theorem treeInv_exec_hbuild {s t : State} (h : exec .hbuild s = .next t) : TreeInv t := by
  obtain ⟨-, hcount, rfl⟩ | ⟨k, info, rfl⟩ := exec_hbuild_cases h
  · exact fun _ => (treeOk_putTree hcount).finish _ _
  · exact fun ht => absurd ((derives_hbuild.flag_raise s k info).symm.trans
      ((flagsSet_treev_iff _).1 ht)) Bool.false_ne_true

/-- Settles O56: HBUILD leaves a valid tree or TREEV 0, and every other step keeps the tree or
clears the flag. -/
theorem everyStepKeepsTheTreeValid : Obligations.EveryStepKeepsTheTreeValid := by
  intro s t hs h
  obtain hv | ⟨s', u, -, hx, hut⟩ := derives_hbuild.vouched_step h
  · exact hv.treeInv hs
  · have hkeep := derives_hbuild.vouched_of_keeps hut
    exact hkeep.treeInv (treeInv_exec_hbuild hx)

end Sys2Proof.Machine

/-! SUPPORT. The paths of a valid tree (44_huffman_build.md R144, R145): each leaf has exactly one,
none begins with another, and every bit sequence begins with one. -/

namespace Sys2Proof.Machine

open Sys2Proof.Config

/-! ### Descending -/

/-- Where a bit leads from an internal node: left on 0, right on 1. -/
def State.child (s : State) (k : Nat) (b : Bool) : Nat :=
  if b then (s.nodeAt k).right.toNat else (s.nodeAt k).left.toNat

section

variable {s : State} {j k : Nat} {b : Bool} {p q : List Bool}

theorem childOf_iff : ChildOf s j k ↔ ∃ b, s.child k b = j := by
  simp [ChildOf, State.child]

theorem descend_cons : s.descend k (b :: p) =
    if (s.nodeAt k).leaf = true then none else s.descend (s.child k b) p := rfl

theorem descend_append (s : State) (k : Nat) (p q : List Bool) :
    s.descend k (p ++ q) = (s.descend k p).bind fun j => s.descend j q := by
  induction p generalizing k with
  | nil => rfl
  | cons b p ih =>
    rw [List.cons_append, descend_cons, descend_cons, ih]
    split <;> rfl

theorem descend_concat_iff : s.descend k (p ++ [b]) = some j ↔
    ∃ i, s.descend k p = some i ∧ (s.nodeAt i).leaf = false ∧ s.child i b = j := by
  simp only [descend_append, Option.bind_eq_some_iff, ite_eq_iff, State.descend]
  simp [State.child]

variable (h : TreeOk s)

include h

theorem TreeOk.internal_of_inner (hk : k ≤ s.root.toNat) (hl : (s.nodeAt k).leaf = false) :
    Internal s k := by
  refine ⟨Nat.not_lt.1 fun hlt => ?_, hk⟩
  rw [(h.leaves k hk).2 hlt] at hl
  cases hl

theorem TreeOk.leaf_of_lt (hk : k < s.nsym.toNat) : (s.nodeAt k).leaf = true := by
  obtain ⟨hpos, -, hroot⟩ := h.size
  exact (h.leaves k (by omega)).2 hk

theorem TreeOk.lt_of_leaf (hk : k ≤ s.root.toNat) (hl : (s.nodeAt k).leaf = true) :
    k < s.nsym.toNat := (h.leaves k hk).1 hl

theorem TreeOk.child_lt (hk : Internal s k) (b : Bool) : s.child k b < k := by
  obtain ⟨hleft, hright, -⟩ := h.below k hk
  cases b with
  | false => exact hleft
  | true => exact hright

theorem TreeOk.child_injective (hk : Internal s k) {b b' : Bool}
    (heq : s.child k b = s.child k b') : b = b' := by
  obtain ⟨-, -, hne⟩ := h.below k hk
  have hne' : (s.nodeAt k).left.toNat ≠ (s.nodeAt k).right.toNat :=
    fun he => hne (BitVec.eq_of_toNat_eq he)
  cases b <;> cases b' <;> simp_all [State.child]

/-- A way down from the root ends inside the tree. -/
theorem TreeOk.descend_le (hk : k ≤ s.root.toNat) (hp : s.descend k p = some j) : j ≤ k := by
  induction p generalizing k with
  | nil => exact (Option.some.inj hp).ge
  | cons b p ih =>
    rw [descend_cons] at hp
    split at hp
    · cases hp
    · next hl =>
      have hint := h.internal_of_inner hk (Bool.not_eq_true _ ▸ hl)
      have hlt := h.child_lt hint b
      exact (ih (hlt.le.trans hk) hp).trans hlt.le

/-- A way down is no longer than the number of internal nodes it can pass (44_huffman_build.md
R149). -/
theorem TreeOk.length_le_of_descend (hk : k ≤ s.root.toNat) (hp : s.descend k p = some j) :
    p.length ≤ k + 1 - s.nsym.toNat := by
  induction p generalizing k with
  | nil => exact Nat.zero_le _
  | cons b p ih =>
    rw [descend_cons] at hp
    split at hp
    · cases hp
    · next hl =>
      have hint := h.internal_of_inner hk (Bool.not_eq_true _ ▸ hl)
      have hlt := h.child_lt hint b
      have hrest := ih (hlt.le.trans hk) hp
      have hstart := hint.1
      rw [List.length_cons]
      omega

/-- The last step of a way down from the root to another node. -/
theorem TreeOk.parent_of_descend (hp : s.descend s.root.toNat (p ++ [b]) = some j) :
    ∃ i, s.descend s.root.toNat p = some i ∧ Internal s i ∧ s.child i b = j ∧ j < s.root.toNat := by
  obtain ⟨i, hi, hl, hc⟩ := descend_concat_iff.1 hp
  have hle := h.descend_le le_rfl hi
  have hint := h.internal_of_inner hle hl
  exact ⟨i, hi, hint, hc, hc ▸ (h.child_lt hint b).trans_le hle⟩

/-- One way leads from the root to a node. -/
theorem TreeOk.descend_unique {p' : List Bool} (hp : s.descend s.root.toNat p = some j)
    (hp' : s.descend s.root.toNat p' = some j) : p = p' := by
  induction p using List.reverseRecOn generalizing p' j with
  | nil =>
    cases Option.some.inj hp
    induction p' using List.reverseRecOn with
    | nil => rfl
    | append_singleton p' b' _ =>
      obtain ⟨-, -, -, -, hlt⟩ := h.parent_of_descend hp'
      exact absurd hlt (lt_irrefl _)
  | append_singleton p b ih =>
    obtain ⟨i, hi, hint, hc, hlt⟩ := h.parent_of_descend hp
    induction p' using List.reverseRecOn with
    | nil => exact absurd (Option.some.inj hp') hlt.ne'
    | append_singleton p' b' _ =>
      obtain ⟨i', hi', hint', hc', -⟩ := h.parent_of_descend hp'
      obtain ⟨k, -, -, huniq⟩ := h.oneParent j hlt
      have hik : i = k := huniq i hint (childOf_iff.2 ⟨b, hc⟩)
      have hik' : i' = k := huniq i' hint' (childOf_iff.2 ⟨b', hc'⟩)
      subst hik
      subst hik'
      rw [h.child_injective hint (hc.trans hc'.symm), ih hi hi']

/-- A way leads from the root to every node. -/
theorem TreeOk.exists_descend (hj : j ≤ s.root.toNat) :
    ∃ p, s.descend s.root.toNat p = some j := by
  induction hd : s.root.toNat - j using Nat.strong_induction_on generalizing j with
  | _ d ih =>
    rcases hj.lt_or_eq with hlt | rfl
    · obtain ⟨k, hk, hc, -⟩ := h.oneParent j hlt
      obtain ⟨b, rfl⟩ := childOf_iff.1 hc
      have hbelow := h.child_lt hk b
      have hroot := hk.2
      obtain ⟨p, hp⟩ := ih (s.root.toNat - k) (by omega) hroot rfl
      refine ⟨p ++ [b], descend_concat_iff.2 ⟨k, hp, ?_, rfl⟩⟩
      refine Bool.eq_false_iff.2 fun hl => ?_
      exact absurd (h.lt_of_leaf hroot hl) (Nat.not_lt.2 hk.1)
    · exact ⟨[], rfl⟩

/-- No way down goes on past a leaf. -/
theorem TreeOk.eq_of_prefix {j' : Nat} {p' : List Bool} (hj : j < s.nsym.toNat)
    (hp : s.descend s.root.toNat p = some j) (hp' : s.descend s.root.toNat p' = some j')
    (hpre : p <+: p') : j = j' := by
  obtain ⟨r, rfl⟩ := hpre
  rw [descend_append, hp, Option.bind_some] at hp'
  cases r with
  | nil => exact Option.some.inj hp'
  | cons b r =>
    rw [descend_cons, if_pos (h.leaf_of_lt hj)] at hp'
    cases hp'

/-- Every bit sequence leads from a node to a leaf. -/
theorem TreeOk.exists_leaf_of_bits (hk : k ≤ s.root.toNat) (f : Nat → Bool) :
    ∃ d j, s.descend k ((List.range d).map f) = some j ∧ j < s.nsym.toNat := by
  induction k using Nat.strong_induction_on generalizing f with
  | _ k ih =>
    cases hl : (s.nodeAt k).leaf with
    | true => exact ⟨0, k, rfl, h.lt_of_leaf hk hl⟩
    | false =>
      have hlt := h.child_lt (h.internal_of_inner hk hl) (f 0)
      obtain ⟨d, j, hd, hj⟩ := ih _ hlt (hlt.le.trans hk) fun i => f (i + 1)
      refine ⟨d + 1, j, ?_, hj⟩
      rw [List.range_succ_eq_map, List.map_cons, List.map_map, descend_cons, hl]
      exact hd

/-! ### The traversal -/

/-- `visit` gives the leaves below a node with the ways to them. -/
theorem TreeOk.mem_visit {fuel : Nat} {path : List Bool} {x : Byte} (hk : k ≤ s.root.toNat)
    (hfuel : 1 ≤ fuel ∧ k + 1 < fuel + s.nsym.toNat) :
    (x, p) ∈ visit s.nodeAt fuel k path ↔
      ∃ q j, p = path ++ q ∧ s.descend k q = some j ∧ j < s.nsym.toNat ∧ (s.nodeAt j).sym = x := by
  induction fuel generalizing k path with
  | zero => omega
  | succ fuel ih =>
    rw [visit]
    cases hl : (s.nodeAt k).leaf with
    | true =>
      rw [if_pos rfl, List.mem_singleton, Prod.mk.injEq]
      constructor
      · rintro ⟨rfl, rfl⟩
        exact ⟨[], k, (List.append_nil p).symm, rfl, h.lt_of_leaf hk hl, rfl⟩
      · rintro ⟨q, j, rfl, hq, -, rfl⟩
        cases q with
        | nil => cases hq; exact ⟨rfl, List.append_nil path⟩
        | cons b q => rw [descend_cons, hl] at hq; cases hq
    | false =>
      have hint := h.internal_of_inner hk hl
      have hstart := hint.1
      have hchild : ∀ b, (x, p) ∈ visit s.nodeAt fuel (s.child k b) (path ++ [b]) ↔
          ∃ q j, p = path ++ b :: q ∧ s.descend k (b :: q) = some j ∧ j < s.nsym.toNat ∧
            (s.nodeAt j).sym = x := by
        intro b
        have hlt := h.child_lt hint b
        rw [ih (hlt.le.trans hk) (by omega)]
        simp [descend_cons, hl]
      rw [if_neg Bool.false_ne_true, List.mem_append]
      constructor
      · rintro (hmem | hmem)
        · obtain ⟨q, j, hq⟩ := (hchild false).1 hmem
          exact ⟨_, j, hq⟩
        · obtain ⟨q, j, hq⟩ := (hchild true).1 hmem
          exact ⟨_, j, hq⟩
      · rintro ⟨q, j, hp, hq, hj, hx⟩
        cases q with
        | nil => cases hq; exact absurd hj (Nat.not_lt.2 hstart)
        | cons b q =>
          have hmem := (hchild b).2 ⟨q, j, hp, hq, hj, hx⟩
          cases b with
          | false => exact .inl hmem
          | true => exact .inr hmem

end

/-! ### Codes -/

/-- The code of leaf k: the way to it from the root, or the one-bit code of a single leaf
(44_huffman_build.md R145, R147). -/
def LeafCode (s : State) (k : Nat) (p : List Bool) : Prop :=
  k < s.nsym.toNat ∧
    if s.nsym.toNat = 1 then p = [false] else s.descend s.root.toNat p = some k

section

variable {s : State} {j k : Nat} {p q : List Bool}

theorem leafCode_iff_of_ne (hn : s.nsym.toNat ≠ 1) :
    LeafCode s k p ↔ k < s.nsym.toNat ∧ s.descend s.root.toNat p = some k := by
  rw [LeafCode, if_neg hn]

theorem leafCode_iff_of_single (hn : s.nsym.toNat = 1) : LeafCode s k p ↔ k = 0 ∧ p = [false] := by
  rw [LeafCode, if_pos hn, hn, Nat.lt_one_iff]

variable (h : TreeOk s)

include h

theorem TreeOk.exists_leafCode (hk : k < s.nsym.toNat) : ∃ p, LeafCode s k p := by
  obtain ⟨-, -, hroot⟩ := h.size
  by_cases hn : s.nsym.toNat = 1
  · exact ⟨[false], hk, by rw [if_pos hn]⟩
  · obtain ⟨p, hp⟩ := h.exists_descend (j := k) (by omega)
    exact ⟨p, (leafCode_iff_of_ne hn).2 ⟨hk, hp⟩⟩

theorem TreeOk.leafCode_unique (hp : LeafCode s k p) (hq : LeafCode s k q) : p = q := by
  by_cases hn : s.nsym.toNat = 1
  · rw [leafCode_iff_of_single hn] at hp hq
    exact hp.2.trans hq.2.symm
  · rw [leafCode_iff_of_ne hn] at hp hq
    exact h.descend_unique hp.2 hq.2

theorem TreeOk.leafCode_of_prefix (hp : LeafCode s j p) (hq : LeafCode s k q) (hpre : p <+: q) :
    j = k := by
  by_cases hn : s.nsym.toNat = 1
  · rw [leafCode_iff_of_single hn] at hp hq
    exact hp.1.trans hq.1.symm
  · rw [leafCode_iff_of_ne hn] at hp hq
    exact h.eq_of_prefix hp.1 hp.2 hq.2 hpre

/-- Codes have 1 to 255 bits (44_huffman_build.md R146 (a), R149). -/
theorem TreeOk.length_leafCode (hp : LeafCode s k p) : 1 ≤ p.length ∧ p.length ≤ 255 := by
  obtain ⟨hpos, hle, hroot⟩ := h.size
  by_cases hn : s.nsym.toNat = 1
  · rw [leafCode_iff_of_single hn] at hp
    rw [hp.2]
    decide
  · obtain ⟨hk, hp⟩ := (leafCode_iff_of_ne hn).1 hp
    have hlen := h.length_le_of_descend le_rfl hp
    refine ⟨List.length_pos_iff.2 ?_, by omega⟩
    rintro rfl
    have hkr : s.root.toNat = k := Option.some.inj hp
    omega

/-- With two leaves or more every bit sequence begins with a code (44_huffman_build.md R146 (c)). -/
theorem TreeOk.exists_leafCode_of_bits (hn : 2 ≤ s.nsym.toNat) (f : Nat → Bool) :
    ∃ k d, LeafCode s k ((List.range d).map f) := by
  obtain ⟨d, j, hd, hj⟩ := h.exists_leaf_of_bits le_rfl f
  exact ⟨j, d, (leafCode_iff_of_ne (by omega)).2 ⟨hj, hd⟩⟩

/-- HGEN's traversal gives each leaf's symbol and code (44_huffman_build.md R145). -/
theorem TreeOk.mem_treeCodes {x : Byte} :
    (x, p) ∈ s.treeCodes ↔ ∃ k, LeafCode s k p ∧ (s.nodeAt k).sym = x := by
  obtain ⟨hpos, hle, hroot⟩ := h.size
  have hone : s.nsym = 1 ↔ s.nsym.toNat = 1 := BitVec.toNat_inj.symm
  by_cases hn : s.nsym.toNat = 1
  · have hzero : s.root.toNat = 0 := by omega
    rw [State.treeCodes, if_pos (hone.2 hn), List.mem_singleton, Prod.mk.injEq, hzero]
    simp only [leafCode_iff_of_single hn, and_assoc, exists_eq_left]
    exact ⟨fun ⟨hx, hp⟩ => ⟨hp, hx.symm⟩, fun ⟨hp, hx⟩ => ⟨hx.symm, hp⟩⟩
  · rw [State.treeCodes, if_neg fun h1 => hn (hone.1 h1), h.mem_visit le_rfl (by omega)]
    simp only [leafCode_iff_of_ne hn, List.nil_append]
    constructor
    · rintro ⟨q, j, rfl, hq, hj, hx⟩
      exact ⟨j, ⟨hj, hq⟩, hx⟩
    · rintro ⟨j, ⟨hj, hq⟩, hx⟩
      exact ⟨p, j, rfl, hq, hj, hx⟩

end

end Sys2Proof.Machine

/-! SUPPORT. The code table that HGEN writes (44_huffman_build.md R145 to R147): element by element
from the codes of the leaves. Settles O44 and O57. -/

namespace Sys2Proof.Machine

open Sys2Proof.Config

/-! ### One code -/

section

variable {p : List Bool}

theorem toNat_len_codeRec (hp : p.length ≤ 255) : (codeRec p).len.toNat = p.length :=
  toNat_ofNat_of_lt (Nat.lt_succ_of_le hp)

theorem getLsbD_bits_codeRec (hp : p.length ≤ 255) (j : Nat) :
    (codeRec p).bits.getLsbD j = p.getD j false := by
  rw [codeRec, BitVec.getLsbD_setWidth, BitVec.getLsbD_ofBoolListLE]
  by_cases hj : j < 255
  · simp [hj]
  · have hout : p.length ≤ j := by omega
    simp [hj, hout]

theorem codeBits_codeRec (hp : p.length ≤ 255) : codeBits (codeRec p) = p := by
  rw [codeBits, toNat_len_codeRec hp]
  refine map_range_eq_of_getElem? fun j hj => ?_
  simp [getLsbD_bits_codeRec hp, hj]

end

/-! ### A table of codes -/

section

variable {codes : List (Byte × List Bool)} {x : Byte} {p : List Bool}

/-- What is written to a table element last, when all that is written to it is one code. -/
theorem get_foldl_write (m : Memory CodeRec) (hx : ∀ q, (x, q) ∈ codes → q = p)
    (hm : (x, p) ∈ codes ∨ m.get codeElem x.toNat = codeRec p) :
    (codes.foldl (fun m c => m.write codeElem c.1.toNat (codeRec c.2)) m).get codeElem x.toNat =
      codeRec p := by
  induction codes generalizing m with
  | nil => exact hm.resolve_left List.not_mem_nil
  | cons c codes ih =>
    refine ih _ (fun q hq => hx q (List.mem_cons_of_mem c hq)) ?_
    dsimp only
    by_cases hc : c.1 = x
    · have hcode : c.2 = p := hx c.2 (by rw [← hc]; exact List.mem_cons_self)
      exact .inr (by rw [hc, Memory.get_write_same, hcode])
    · have hne : c.1.toNat ≠ x.toNat := fun heq => hc (BitVec.eq_of_toNat_eq heq)
      rw [Memory.get_write_other _ _ _ hne]
      refine hm.imp_left fun hmem => (List.mem_cons.1 hmem).resolve_left fun heq => ?_
      exact hc (congrArg Prod.fst heq).symm

theorem get_codeTable_of_mem (hx : ∀ q, (x, q) ∈ codes → q = p) (hmem : (x, p) ∈ codes) :
    (codeTable codes).get codeElem x.toNat = codeRec p :=
  get_foldl_write .empty hx (.inl hmem)

theorem get_codeTable_of_not_mem {k : Nat} (hk : ∀ c ∈ codes, c.1.toNat ≠ k) :
    (codeTable codes).get codeElem k = codeElem.zero := by
  have key : ∀ m : Memory CodeRec,
      (codes.foldl (fun m c => m.write codeElem c.1.toNat (codeRec c.2)) m).get codeElem k =
        m.get codeElem k := by
    induction codes with
    | nil => exact fun m => rfl
    | cons c codes ih =>
      obtain ⟨hc, hrest⟩ := List.forall_mem_cons.1 hk
      exact fun m => (ih hrest _).trans (Memory.get_write_other _ _ _ hc)
  exact key .empty

/-- The greatest length is that of one of the codes, and none is longer. -/
theorem greatestLength_spec (hne : codes ≠ []) :
    (∀ c ∈ codes, c.2.length ≤ greatestLength codes) ∧
      ∃ c ∈ codes, c.2.length = greatestLength codes := by
  have hmap : greatestLength codes = (codes.map fun c => c.2.length).foldl max 0 :=
    (List.foldl_map ..).symm
  obtain ⟨m, hm⟩ : ∃ m, (codes.map fun c => c.2.length).max? = some m :=
    Option.ne_none_iff_exists'.1 fun h => hne (List.map_eq_nil_iff.1 (List.max?_eq_none_iff.1 h))
  have hval : greatestLength codes = m := by
    rw [hmap, List.foldl_max, hm, Option.getD_some, Nat.zero_max]
  obtain ⟨hmem, hall⟩ := List.max?_eq_some_iff.1 hm
  rw [hval]
  exact ⟨fun c hc => hall _ (List.mem_map_of_mem hc), List.mem_map.1 hmem⟩

end

/-! ### The table of a valid tree -/

/-- What a successful HGEN writes before its `done` (44_huffman_build.md R145). -/
def State.putCodes (s : State) : State := { s with code := codeTable s.treeCodes, ncode := s.nsym }

theorem exec_hgen_of_ok {s : State} (hf : FlagsSet treev s) :
    exec .hgen s = .next (s.putCodes.finish (toWord (greatestLength s.treeCodes)) .code) :=
  execHgen_of_ok hf

section

variable {s : State} {j k x : Nat} {p : List Bool} (h : TreeOk s)

include h

theorem TreeOk.sym_injective (hj : j < s.nsym.toNat) (hk : k < s.nsym.toNat)
    (heq : (s.nodeAt j).sym.toNat = (s.nodeAt k).sym.toNat) : j = k := by
  rcases Nat.lt_trichotomy j k with hlt | he | hgt
  · exact absurd heq (h.ascending j k hlt hk).ne
  · exact he
  · exact absurd heq (h.ascending k j hgt hj).ne'

theorem TreeOk.codeAt_putCodes_of_leafCode (hp : LeafCode s k p) :
    s.putCodes.codeAt (s.nodeAt k).sym.toNat = codeRec p := by
  refine get_codeTable_of_mem (fun q hq => ?_) (h.mem_treeCodes.2 ⟨k, hp, rfl⟩)
  obtain ⟨k', hk', hsym⟩ := h.mem_treeCodes.1 hq
  obtain rfl := h.sym_injective hk'.1 hp.1 (congrArg BitVec.toNat hsym)
  exact h.leafCode_unique hk' hp

theorem TreeOk.codeAt_putCodes_of_absent (hx : ∀ k, k < s.nsym.toNat → (s.nodeAt k).sym.toNat ≠ x) :
    s.putCodes.codeAt x = codeElem.zero := by
  refine get_codeTable_of_not_mem fun c hc => ?_
  obtain ⟨k, hk, hsym⟩ := h.mem_treeCodes.1 hc
  exact hsym ▸ hx k hk.1

/-- Every element of the table: a leaf's code, or zero. -/
theorem TreeOk.codeAt_putCodes_cases (x : Nat) :
    (∃ k p, LeafCode s k p ∧ (s.nodeAt k).sym.toNat = x ∧ s.putCodes.codeAt x = codeRec p) ∨
    ((∀ k, k < s.nsym.toNat → (s.nodeAt k).sym.toNat ≠ x) ∧
      s.putCodes.codeAt x = codeElem.zero) := by
  by_cases hx : ∃ k, k < s.nsym.toNat ∧ (s.nodeAt k).sym.toNat = x
  · obtain ⟨k, hk, rfl⟩ := hx
    obtain ⟨p, hp⟩ := h.exists_leafCode hk
    exact .inl ⟨k, p, hp, rfl, h.codeAt_putCodes_of_leafCode hp⟩
  · have habsent : ∀ k, k < s.nsym.toNat → (s.nodeAt k).sym.toNat ≠ x :=
      fun k hk heq => hx ⟨k, hk, heq⟩
    exact .inr ⟨habsent, h.codeAt_putCodes_of_absent habsent⟩

theorem TreeOk.present_putCodes_iff (x : Nat) : (s.putCodes.codeAt x).present = true ↔
    ∃ k, k < s.nsym.toNat ∧ (s.nodeAt k).sym.toNat = x := by
  obtain ⟨k, p, hp, hsym, hcode⟩ | ⟨habsent, hcode⟩ := h.codeAt_putCodes_cases x
  · exact ⟨fun _ => ⟨k, hp.1, hsym⟩, fun _ => by rw [hcode]; rfl⟩
  · rw [hcode]
    exact ⟨fun hpresent => absurd hpresent Bool.false_ne_true,
      fun ⟨k, hk, heq⟩ => absurd heq (habsent k hk)⟩

theorem TreeOk.leafCode_of_hasCode (hx : HasCode s.putCodes x) :
    ∃ k p, LeafCode s k p ∧ (s.nodeAt k).sym.toNat = x ∧ s.putCodes.codeAt x = codeRec p := by
  obtain hcode | ⟨habsent, -⟩ := h.codeAt_putCodes_cases x
  · exact hcode
  · obtain ⟨k, hk, heq⟩ := (h.present_putCodes_iff x).1 hx.2
    exact absurd heq (habsent k hk)

theorem TreeOk.hasCode_putCodes (hk : k < s.nsym.toNat) :
    HasCode s.putCodes (s.nodeAt k).sym.toNat :=
  ⟨(s.nodeAt k).sym.isLt, (h.present_putCodes_iff _).2 ⟨k, hk, rfl⟩⟩

/-- As many intensities have a code as there are leaves. -/
theorem TreeOk.countP_present :
    (List.range symbols).countP (fun x => (s.putCodes.codeAt x).present) = s.nsym.toNat := by
  have hperm : ((List.range symbols).filter fun x => (s.putCodes.codeAt x).present).Perm
      ((List.range s.nsym.toNat).map fun k => (s.nodeAt k).sym.toNat) := by
    refine (List.perm_ext_iff_of_nodup (List.nodup_range.filter _) ?_).2 fun x => ?_
    · refine List.nodup_range.map_on fun j hj k hk heq => ?_
      exact h.sym_injective (List.mem_range.1 hj) (List.mem_range.1 hk) heq
    · simp only [List.mem_filter, List.mem_range, List.mem_map, h.present_putCodes_iff]
      refine ⟨fun hx => hx.2, fun hx => ⟨?_, hx⟩⟩
      obtain ⟨k, -, rfl⟩ := hx
      exact (s.nodeAt k).sym.isLt
  rw [List.countP_eq_length_filter, hperm.length_eq, List.length_map, List.length_range]

/-- The table of a valid tree is valid (44_huffman_build.md R146). -/
theorem TreeOk.codeOk_putCodes : CodeOk s.putCodes where
  size := by
    obtain ⟨hpos, hle, -⟩ := h.size
    exact ⟨hpos, hle, h.countP_present.symm⟩
  lengths x hx := by
    obtain ⟨k, p, hp, -, hcode⟩ := h.leafCode_of_hasCode hx
    obtain ⟨hpos, hle⟩ := h.length_leafCode hp
    rwa [hcode, toNat_len_codeRec hle]
  absent x _ hx := by
    obtain ⟨k, p, -, -, hcode⟩ | ⟨-, hcode⟩ := h.codeAt_putCodes_cases x
    · rw [hcode] at hx
      cases hx
    · exact hcode
  padding x j _ hj := by
    obtain ⟨k, p, hp, -, hcode⟩ | ⟨-, hcode⟩ := h.codeAt_putCodes_cases x
    · obtain ⟨-, hle⟩ := h.length_leafCode hp
      rw [hcode, toNat_len_codeRec hle] at hj
      rw [hcode, getLsbD_bits_codeRec hle, List.getD_eq_default _ _ hj]
    · rw [hcode]
      exact BitVec.getLsbD_zero
  prefixFree x y hx hy hne hpre := by
    obtain ⟨j, p, hp, rfl, hcode⟩ := h.leafCode_of_hasCode hx
    obtain ⟨k, q, hq, rfl, hcode'⟩ := h.leafCode_of_hasCode hy
    rw [hcode, hcode', codeBits_codeRec (h.length_leafCode hp).2,
      codeBits_codeRec (h.length_leafCode hq).2] at hpre
    exact hne (by rw [h.leafCode_of_prefix hp hq hpre])
  complete hn f := by
    obtain ⟨k, d, hd⟩ := h.exists_leafCode_of_bits hn f
    obtain ⟨-, hle⟩ := h.length_leafCode hd
    refine ⟨_, h.hasCode_putCodes hd.1, fun j hj => ?_⟩
    rw [h.codeAt_putCodes_of_leafCode hd] at hj ⊢
    rw [toNat_len_codeRec hle, List.length_map, List.length_range] at hj
    simp [getLsbD_bits_codeRec hle, hj]

/-- RESULT is the greatest code length, from 1 to 255 (44_huffman_build.md R145). -/
theorem TreeOk.greatestLength_treeCodes :
    (∀ x, (s.putCodes.codeAt x).len.toNat ≤ greatestLength s.treeCodes) ∧
    (∃ x, x < 256 ∧ (s.putCodes.codeAt x).len.toNat = greatestLength s.treeCodes) ∧
    1 ≤ greatestLength s.treeCodes ∧ greatestLength s.treeCodes ≤ 255 := by
  obtain ⟨p₀, hp₀⟩ := h.exists_leafCode h.size.1
  obtain ⟨hall, ⟨x, p⟩, hmem, hlen⟩ :=
    greatestLength_spec (List.ne_nil_of_mem (h.mem_treeCodes.2 ⟨0, hp₀, rfl⟩))
  obtain ⟨k, hp, rfl⟩ := h.mem_treeCodes.1 hmem
  obtain ⟨hpos, hle⟩ := h.length_leafCode hp
  rw [← hlen]
  refine ⟨fun x => ?_, ⟨_, (s.nodeAt k).sym.isLt, ?_⟩, hpos, hle⟩
  · obtain ⟨j, q, hq, rfl, hcode⟩ | ⟨-, hcode⟩ := h.codeAt_putCodes_cases x
    · rw [hcode, toNat_len_codeRec (h.length_leafCode hq).2, hlen]
      exact hall _ (h.mem_treeCodes.2 ⟨j, hq, rfl⟩)
    · rw [hcode]
      exact Nat.zero_le _
  · rw [h.codeAt_putCodes_of_leafCode hp, toNat_len_codeRec hle]

end

/-- Settles O44: the table of a valid tree, element by element. -/
theorem hgenGivesEachLeafItsPath : Obligations.HgenGivesEachLeafItsPath := by
  intro s hf h
  obtain ⟨hall, hex, hpos, hle⟩ := h.greatestLength_treeCodes
  have hresult : (toWord (greatestLength s.treeCodes)).toNat = greatestLength s.treeCodes :=
    toWord_toNat (hle.trans_lt (by norm_num))
  have hbits : ∀ {k p}, LeafCode s k p →
      codeBits (s.putCodes.codeAt (s.nodeAt k).sym.toNat) = p := fun hp => by
    rw [h.codeAt_putCodes_of_leafCode hp, codeBits_codeRec (h.length_leafCode hp).2]
  refine ⟨_, exec_hgen_of_ok hf, rfl, fun x _ => h.present_putCodes_iff x,
    h.codeOk_putCodes.absent, fun hn k hk => ?_, fun hn => ?_, rfl,
    fun x _ => (hall x).trans_eq hresult.symm, ?_, hpos.trans_eq hresult.symm,
    hresult.trans_le hle, rfl, keepsAllBut_mono ((keepsAllBut_setCode s _ _).finish _ _) (by simp)⟩
  · obtain ⟨p, hp⟩ := h.exists_leafCode hk
    exact (congrArg _ (hbits hp)).trans ((leafCode_iff_of_ne hn).1 hp).2
  · exact hbits ((leafCode_iff_of_single hn).2 ⟨rfl, rfl⟩)
  · obtain ⟨x, hx, hlen⟩ := hex
    exact ⟨x, hx, hlen.trans hresult.symm⟩

/-! ### CODEV -/

theorem flagsSet_codev_iff (s : State) : FlagsSet codev s ↔ s.valid.getLsbD 3 = true :=
  flagsSet_iff_getLsbD (by decide) (by decide) s

theorem derives_hgen : Derives .hgen 3 := .inr ⟨rfl, rfl⟩

theorem CodeOk.of_same {s t : State} (h : CodeOk s) (hcode : t.code = s.code)
    (hncode : t.ncode = s.ncode) : CodeOk t := by
  cases s
  cases t
  cases hcode
  cases hncode
  exact { h with }

theorem Vouched.codeInv {s t : State} (h : Vouched .hgen 3 s t) (hs : CodeInv s) : CodeInv t := by
  intro ht
  obtain ⟨hflag, hsame⟩ := h ((flagsSet_codev_iff t).1 ht)
  exact (hs ((flagsSet_codev_iff s).2 hflag)).of_same (hsame .code (by decide))
    (hsame .ncode (by decide))

/-- HGEN's two ends (44_huffman_build.md R145). -/
theorem exec_hgen_cases {s t : State} (h : exec .hgen s = .next t) :
    (FlagsSet treev s ∧ t = s.putCodes.finish (toWord (greatestLength s.treeCodes)) .code) ∨
    ∃ k info, t = s.raise k info .code := by
  by_cases hf : FlagsSet treev s
  · rw [exec_hgen_of_ok hf] at h
    cases h
    exact .inl ⟨hf, rfl⟩
  · change execHgen s = _ at h
    unfold execHgen at h
    rw [requireFlags_error s hf, except_error_bind, conclude_error] at h
    cases h
    exact .inr ⟨_, _, rfl⟩

/-- HGEN, on a tree that is valid while TREEV is 1, leaves a valid table or CODEV 0. -/
theorem codeInv_exec_hgen {s t : State} (hs : TreeInv s) (h : exec .hgen s = .next t) :
    CodeInv t := by
  obtain ⟨hf, rfl⟩ | ⟨k, info, rfl⟩ := exec_hgen_cases h
  · exact fun _ => (hs hf).codeOk_putCodes.of_same rfl rfl
  · exact fun ht => absurd ((derives_hgen.flag_raise s k info).symm.trans
      ((flagsSet_codev_iff _).1 ht)) Bool.false_ne_true

/-- Settles O57: HGEN leaves a valid table or CODEV 0, and every other step keeps the table or
clears the flag. -/
theorem everyStepKeepsTheCodeTableValid : Obligations.EveryStepKeepsTheCodeTableValid := by
  intro s t htree hcode h
  obtain hv | ⟨s', u, hs', hx, hut⟩ := derives_hgen.vouched_step h
  · exact hv.codeInv hcode
  · have hissue := derives_hbuild.vouched_of_keeps hs'
    have hkeep := derives_hgen.vouched_of_keeps hut
    exact hkeep.codeInv (codeInv_exec_hgen (hissue.treeInv htree) hx)

end Sys2Proof.Machine

/-! SUPPORT. The counts that HFREQ makes (44_huffman_build.md R141). Settles O40. -/

namespace Sys2Proof.Machine

open Sys2Proof.Config

/-! ### Counting bytes -/

/-- The 256 intensities, ascending. -/
def allBytes : List Byte := (List.range symbols).map (BitVec.ofNat 8)

theorem mem_allBytes (v : Byte) : v ∈ allBytes :=
  List.mem_map.2 ⟨v.toNat, List.mem_range.2 v.isLt, BitVec.ofNat_toNat 8 v ▸ by simp⟩

theorem nodup_allBytes : allBytes.Nodup := by
  refine List.nodup_range.map_on fun x hx y hy heq => ?_
  have hval := congrArg BitVec.toNat heq
  rwa [toNat_ofNat_of_lt (List.mem_range.1 hx), toNat_ofNat_of_lt (List.mem_range.1 hy)] at hval

theorem histogram_eq (px : List Byte) : histogram px = allBytes.map px.count := by
  rw [histogram, allBytes, List.map_map]
  rfl

theorem length_histogram (px : List Byte) : (histogram px).length = 256 := by
  rw [histogram, List.length_map, List.length_range]; rfl

/-- Every pixel is counted once. -/
theorem sum_histogram (px : List Byte) : (histogram px).sum = px.length := by
  calc (histogram px).sum
      = ∑ v ∈ allBytes.toFinset, (px : Multiset Byte).count v := by
        rw [histogram_eq, List.sum_toFinset _ nodup_allBytes]
        simp only [Multiset.coe_count]
    _ = px.length := Multiset.sum_count_eq_card fun v _ => List.mem_toFinset.2 (mem_allBytes v)

theorem countP_ne_zero_le_sum (cs : List Nat) : cs.countP (fun c => c ≠ 0) ≤ cs.sum := by
  induction cs with
  | nil => exact le_rfl
  | cons c cs ih =>
    rw [List.countP_cons, List.sum_cons]
    split
    · next hc =>
      have hpos : c ≠ 0 := by simpa using hc
      omega
    · omega

/-- The number of distinct intensities is at most the number of pixels and at most 256, and an image
with a pixel has one. -/
theorem countP_histogram_bounds {px : List Byte} (h : 1 ≤ px.length) :
    1 ≤ (histogram px).countP (fun c => c ≠ 0) ∧
      (histogram px).countP (fun c => c ≠ 0) ≤ min px.length 256 := by
  refine ⟨List.countP_pos_iff.2 ?_, le_min ?_ ?_⟩
  · by_contra hnone
    have hzero : ∀ c ∈ histogram px, c = 0 := fun c hc => by
      by_contra hne
      exact hnone ⟨c, hc, decide_eq_true hne⟩
    have hsum := List.sum_eq_zero hzero
    rw [sum_histogram] at hsum
    omega
  · exact (countP_ne_zero_le_sum _).trans_eq (sum_histogram px)
  · exact List.countP_le_length.trans_eq (length_histogram px)

/-! ### HFREQ -/

/-- FREQ with the given counts from index 0 on, over the reset fill. Irreducible, so that no
comparison of states evaluates 256 counts. -/
@[irreducible] def countTable (counts : List Nat) : Memory Word :=
  Memory.empty.writeFrom freqElem 0 (counts.map toWord)

theorem get_countTable (counts : List Nat) (k : Nat) :
    (countTable counts).get freqElem k = (counts[k]?.map toWord).getD 0 := by
  rw [countTable, Memory.get_writeFrom, if_pos (Nat.zero_le k), Nat.sub_zero, List.getElem?_map]
  rfl

/-- What a successful HFREQ writes before its `done` (44_huffman_build.md R141). -/
def State.putCounts (n : Nat) (s : State) : State :=
  { s with freq := countTable (histogram (s.image n)) }

section

variable {s : State} {n : Nat}

theorem exec_hfreq_of_ok (hg : GridOk s n) (hf : FlagsSet pixv s) :
    exec .hfreq s = .next ((s.putCounts n).finish
      (toWord ((histogram (s.image n)).countP fun c => c ≠ 0)) .freq) := by
  rw [State.putCounts, countTable]
  exact execHfreq_of_ok hg hf

theorem GridOk.lt_of_wf (hP : s.params.wf = true) (hg : GridOk s n) : n < 2 ^ 32 :=
  (hg.toNat_toWord hP).symm.trans_lt (BitVec.isLt _)

theorem toNat_freqAt_putCounts (hP : s.params.wf = true) (hg : GridOk s n) {x : Nat}
    (hx : x < 256) :
    ((s.putCounts n).freqAt x).toNat = (s.image n).count (BitVec.ofNat 8 x) := by
  have hget : (s.putCounts n).freqAt x = toWord ((s.image n).count (BitVec.ofNat 8 x)) := by
    refine (get_countTable _ x).trans ?_
    simp [histogram, symbols, hx]
  rw [hget]
  refine toWord_toNat (List.count_le_length.trans_lt ?_)
  rw [length_image]
  exact hg.lt_of_wf hP

theorem map_toNat_freqAt_putCounts (hP : s.params.wf = true) (hg : GridOk s n) :
    ((List.range 256).map fun x => ((s.putCounts n).freqAt x).toNat) = histogram (s.image n) :=
  List.map_congr_left fun _ hx => toNat_freqAt_putCounts hP hg (List.mem_range.1 hx)

theorem sum_freqAt_putCounts (hP : s.params.wf = true) (hg : GridOk s n) :
    ((List.range 256).map fun x => ((s.putCounts n).freqAt x).toNat).sum = n := by
  rw [map_toNat_freqAt_putCounts hP hg, sum_histogram, length_image]

end

/-- The intensities that occur are those whose count is not 0. -/
theorem length_occurring_eq_countP (s : State) :
    s.occurring.length =
      ((List.range 256).map fun x => (s.freqAt x).toNat).countP fun c => c ≠ 0 := by
  rw [State.occurring, List.countP_map, List.countP_eq_length_filter]
  refine congrArg List.length (List.filter_congr fun x _ => ?_)
  exact decide_eq_decide.2 (not_congr BitVec.toNat_inj.symm)

/-- Settles O40. -/
theorem hfreqCountsTheIntensities : Obligations.HfreqCountsTheIntensities := by
  intro s n hP hg hf
  have hpixels := length_image s n
  obtain ⟨hpos, hle⟩ := countP_histogram_bounds (hg.pos.trans_eq hpixels.symm)
  rw [hpixels] at hle
  have hresult := toWord_toNat (((hle.trans (min_le_right n 256)).trans_lt (by norm_num)))
  have hdistinct := length_occurring_eq_countP (s.putCounts n)
  rw [map_toNat_freqAt_putCounts hP hg] at hdistinct
  exact ⟨_, exec_hfreq_of_ok hg hf, rfl, fun x => toNat_freqAt_putCounts hP hg,
    hresult.trans hdistinct.symm, hpos.trans_eq hresult.symm, hresult.trans_le hle,
    sum_freqAt_putCounts hP hg, rfl, (keepsAllBut_setFreq s _).finish _ _⟩

end Sys2Proof.Machine

/-! SUPPORT. What HBUILD and HGEN depend on (44_huffman_build.md R148). Settles O43. -/

namespace Sys2Proof.Machine

open Sys2Proof.Config

section

variable {s s' : State}

/-! ### HBUILD -/

theorem occurring_congr (h : ∀ x, x < 256 → s.freqAt x = s'.freqAt x) :
    s.occurring = s'.occurring :=
  List.filter_congr fun x hx => by rw [h x (List.mem_range.1 hx)]

theorem leafNodes_congr (h : ∀ x, x < 256 → s.freqAt x = s'.freqAt x) :
    s.leafNodes = s'.leafNodes := by
  rw [State.leafNodes, State.leafNodes, ← occurring_congr h]
  refine List.map_congr_left fun x hx => ?_
  rw [h x ((mem_occurring s x).1 hx).1]

theorem nsym_putTree_congr (h : ∀ x, x < 256 → s.freqAt x = s'.freqAt x) :
    s.putTree.nsym = s'.putTree.nsym := 
  congrArg (fun xs : List Nat => toWord xs.length) (occurring_congr h)

theorem root_putTree_congr (h : ∀ x, x < 256 → s.freqAt x = s'.freqAt x) :
    s.putTree.root = s'.putTree.root :=
  congrArg (fun ns => toWord ((huffmanNodes ns).length - 1)) (leafNodes_congr h)

/-- The nodes of the tree depend on the counts alone; the nodes past the root are what they were. -/
theorem nodeAt_putTree_congr (h : ∀ x, x < 256 → s.freqAt x = s'.freqAt x) (hne : s.occurring ≠ [])
    {k : Nat} (hk : k ≤ s.putTree.root.toNat) : s.putTree.nodeAt k = s'.putTree.nodeAt k := by
  have hlen := length_huffmanNodes hne
  have hpos := List.length_pos_iff.2 hne
  rw [toNat_root_putTree hne] at hk
  have hlt : k < (huffmanNodes s.leafNodes).length := by omega
  rw [nodeAt_putTree, nodeAt_putTree, ← leafNodes_congr h, List.getElem?_eq_getElem hlt,
    Option.getD_some, Option.getD_some]

/-! ### HGEN -/

/-- The traversal reads the tree's nodes alone. -/
theorem TreeOk.visit_congr (hs : TreeOk s) {node : Nat → NodeRec}
    (hnode : ∀ k, k ≤ s.root.toNat → s.nodeAt k = node k) (fuel : Nat) {k : Nat}
    (hk : k ≤ s.root.toNat) (path : List Bool) :
    visit s.nodeAt fuel k path = visit node fuel k path := by
  induction fuel generalizing k path with
  | zero => rfl
  | succ fuel ih =>
    rw [visit, visit, ← hnode k hk]
    cases hl : (s.nodeAt k).leaf with
    | true => rfl
    | false =>
      have hlt := hs.child_lt (hs.internal_of_inner hk hl)
      have hchild : ∀ b, visit s.nodeAt fuel (s.child k b) (path ++ [b]) =
          visit node fuel (s.child k b) (path ++ [b]) := fun b => ih ((hlt b).le.trans hk) _
      exact congrArg₂ (· ++ ·) (hchild false) (hchild true)

theorem TreeOk.treeCodes_congr (hs : TreeOk s)
    (hnode : ∀ k, k ≤ s.root.toNat → s.nodeAt k = s'.nodeAt k) (hnsym : s.nsym = s'.nsym)
    (hroot : s.root = s'.root) : s.treeCodes = s'.treeCodes := by
  rw [State.treeCodes, State.treeCodes, ← hnsym, ← hroot, ← hnode _ le_rfl,
    hs.visit_congr hnode 256 le_rfl]

/-- Whatever NODE holds, HGEN reads it, NSYM and ROOT alone. -/
theorem treeCodes_congr (hnode : ∀ k, s.nodeAt k = s'.nodeAt k) (hnsym : s.nsym = s'.nsym)
    (hroot : s.root = s'.root) : s.treeCodes = s'.treeCodes := by
  rw [State.treeCodes, State.treeCodes, hnsym, hroot, funext hnode]

/-- Two states whose traversals give the same codes get the same table, NCODE and RESULT. -/
theorem exec_hgen_congr (hf : FlagsSet treev s) (hf' : FlagsSet treev s')
    (hcodes : s.treeCodes = s'.treeCodes) (hnsym : s.nsym = s'.nsym) :
    ∃ u u', exec .hgen s = .next u ∧ exec .hgen s' = .next u' ∧
      u.status = 0x00000002 ∧ u'.status = 0x00000002 ∧
      u.code = u'.code ∧ u.ncode = u'.ncode ∧ u.result = u'.result :=
  ⟨_, _, exec_hgen_of_ok hf, exec_hgen_of_ok hf', rfl, rfl, congrArg codeTable hcodes, hnsym,
    congrArg (fun cs => toWord (greatestLength cs)) hcodes⟩

end

/-- Settles O43. -/
theorem treeAndTableDependOnTheCountsAlone : Obligations.TreeAndTableDependOnTheCountsAlone := by
  refine ⟨fun s s' hf hf' hnode hnsym hroot =>
    exec_hgen_congr hf hf' (treeCodes_congr hnode hnsym hroot) hnsym,
    fun s s' hf hf' hcount hsame => ?_⟩
  have hne := occurring_ne_nil hcount
  have hne' : s'.occurring ≠ [] := occurring_congr hsame ▸ hne
  have hnsym := nsym_putTree_congr hsame
  have hroot := root_putTree_congr hsame
  have hnode := fun k => nodeAt_putTree_congr hsame hne (k := k)
  obtain ⟨u, u', hu, hu', hst, hst', hsame'⟩ := exec_hgen_congr
    (flagsSet_finish (toWord s.occurring.length) .node s.putTree)
    (flagsSet_finish (toWord s'.occurring.length) .node s'.putTree)
    ((treeOk_putTree hne).treeCodes_congr hnode hnsym hroot) hnsym
  exact ⟨_, _, u, u', exec_hbuild_of_ok hf hne, exec_hbuild_of_ok hf' hne', hu, hu', rfl, rfl,
    hnsym, hroot, hnsym, hnode, hst, hst', hsame'⟩

end Sys2Proof.Machine

/-! SUPPORT. The exchange argument of Huffman's theorem, for code lengths that meet Kraft's
inequality (44_huffman_build.md R146 (d)): two items of least weight can be given one and the same
length, no other being longer, and then be merged. -/

namespace Sys2Proof.Machine

/-! ### Sums over a set in which two items are merged -/

/-- The items when a and b are merged into m. -/
def mergedSet (A : Finset Nat) (a b m : Nat) : Finset Nat := insert m ((A.erase a).erase b)

section

variable {M : Type} [AddCommMonoid M] (f : Nat → M) {A : Finset Nat} {a b m : Nat}

theorem sum_eq_add_add_sum_erase (ha : a ∈ A) (hb : b ∈ A) (hne : b ≠ a) :
    ∑ j ∈ A, f j = f a + (f b + ∑ j ∈ (A.erase a).erase b, f j) := by
  rw [← Finset.add_sum_erase A f ha, ← Finset.add_sum_erase _ f (Finset.mem_erase.2 ⟨hne, hb⟩)]

theorem sum_mergedSet (hm : m ∉ A) :
    ∑ j ∈ mergedSet A a b m, f j = f m + ∑ j ∈ (A.erase a).erase b, f j :=
  Finset.sum_insert fun h => hm (Finset.mem_of_mem_erase (Finset.mem_of_mem_erase h))

end

/-! ### Lengths and weights -/

/-- Kraft's sum of the lengths of some items. -/
noncomputable def kraftSum (A : Finset Nat) (len : Nat → Nat) : ℝ := ∑ j ∈ A, (1 / 2 : ℝ) ^ len j

/-- The sum of weight times length. -/
def weightedLength (A : Finset Nat) (w len : Nat → Nat) : Nat := ∑ j ∈ A, w j * len j

/-- The same lengths, but for those of a and c, which are swapped. -/
def swapLengths (len : Nat → Nat) (a c : Nat) : Nat → Nat := fun j => len (Equiv.swap a c j)

section

variable {A : Finset Nat} {w len : Nat → Nat} {a b c m : Nat}

theorem swapLengths_left (len : Nat → Nat) (a c : Nat) : swapLengths len a c a = len c :=
  congrArg len (Equiv.swap_apply_left a c)

theorem swapLengths_right (len : Nat → Nat) (a c : Nat) : swapLengths len a c c = len a :=
  congrArg len (Equiv.swap_apply_right a c)

theorem swapLengths_of_ne {j : Nat} (ha : j ≠ a) (hc : j ≠ c) : swapLengths len a c j = len j :=
  congrArg len (Equiv.swap_apply_of_ne_of_ne ha hc)

theorem swapLengths_self (len : Nat → Nat) (a : Nat) : swapLengths len a a = len := by
  funext j
  rw [swapLengths, Equiv.swap_self, Equiv.refl_apply]

/-- The rest of a sum does not see the swap. -/
theorem sum_swapLengths_rest {M : Type} [AddCommMonoid M] (g : Nat → Nat → M) :
    ∑ j ∈ (A.erase a).erase c, g j (swapLengths len a c j) =
      ∑ j ∈ (A.erase a).erase c, g j (len j) := by
  refine Finset.sum_congr rfl fun j hj => ?_
  obtain ⟨hc, hj⟩ := Finset.mem_erase.1 hj
  rw [swapLengths_of_ne (Finset.ne_of_mem_erase hj) hc]

theorem kraftSum_swapLengths (ha : a ∈ A) (hc : c ∈ A) :
    kraftSum A (swapLengths len a c) = kraftSum A len := by
  by_cases hne : c = a
  · rw [hne, swapLengths_self]
  · rw [kraftSum, kraftSum, sum_eq_add_add_sum_erase _ ha hc hne,
      sum_eq_add_add_sum_erase _ ha hc hne, sum_swapLengths_rest fun _ l => (1 / 2 : ℝ) ^ l,
      swapLengths_left, swapLengths_right]
    ring

/-- To give the lighter item the greater length does not make the sum greater. -/
theorem weightedLength_swapLengths_le (ha : a ∈ A) (hc : c ∈ A) (hw : w a ≤ w c)
    (hlen : len a ≤ len c) :
    weightedLength A w (swapLengths len a c) ≤ weightedLength A w len := by
  by_cases hne : c = a
  · rw [hne, swapLengths_self]
  · rw [weightedLength, weightedLength, sum_eq_add_add_sum_erase _ ha hc hne,
      sum_eq_add_add_sum_erase _ ha hc hne, sum_swapLengths_rest fun j l => w j * l,
      swapLengths_left, swapLengths_right]
    have key := mul_add_mul_le_mul_add_mul hw hlen
    omega

/-- The lightest item can be given the greatest length, by a swap. -/
theorem exists_swap_greatest (ha : a ∈ A) (hw : ∀ j ∈ A, w a ≤ w j) (len : Nat → Nat) :
    ∃ c ∈ A, (∀ j ∈ A, swapLengths len a c j ≤ swapLengths len a c a) ∧
      weightedLength A w (swapLengths len a c) ≤ weightedLength A w len := by
  obtain ⟨c, hc, hmax⟩ := Finset.exists_max_image A len ⟨a, ha⟩
  refine ⟨c, hc, fun j hj => ?_, weightedLength_swapLengths_le ha hc (hw c hc) (hmax a ha)⟩
  rw [swapLengths_left]
  by_cases hja : j = a
  · rw [hja, swapLengths_left]
  · by_cases hjc : j = c
    · rw [hjc, swapLengths_right]; exact hmax a ha
    · rw [swapLengths_of_ne hja hjc]; exact hmax j hj

/-- Lengths of at most L have a Kraft sum that is a multiple of 2 ^ −L. -/
theorem kraftSum_eq_div {L : Nat} (h : ∀ j ∈ A, len j ≤ L) :
    kraftSum A len = (∑ j ∈ A, 2 ^ (L - len j) : Nat) / 2 ^ L := by
  rw [kraftSum, Nat.cast_sum, Finset.sum_div]
  refine Finset.sum_congr rfl fun j hj => ?_
  rw [Nat.cast_pow, Nat.cast_ofNat, one_div, inv_pow, eq_div_iff (by positivity),
    inv_mul_eq_iff_eq_mul₀ (by positivity), ← pow_add, Nat.add_sub_cancel' (h j hj)]

theorem sum_update_of_notMem {M : Type} [AddCommMonoid M] (g : Nat → Nat → M) {l : Nat}
    (ha : a ∉ A) : ∑ j ∈ A, g j (Function.update len a l j) = ∑ j ∈ A, g j (len j) := by
  refine Finset.sum_congr rfl fun j hj => ?_
  rw [Function.update_of_ne (ne_of_mem_of_not_mem hj ha)]

/-- If one item is longer than all others, it need be no longer than the longest of them, b, which
has a bit at least. -/
theorem kraftSum_update_le_one (ha : a ∈ A) (hb : b ∈ A) (hne : b ≠ a) (hk : kraftSum A len ≤ 1)
    (hmax : ∀ j ∈ A.erase a, len j ≤ len b) :
    1 ≤ len b ∧ kraftSum A (Function.update len a (len b)) ≤ 1 := by
  have hsplit : ∀ l : Nat → Nat, kraftSum A l = (1 / 2 : ℝ) ^ l a + kraftSum (A.erase a) l :=
    fun l => (Finset.add_sum_erase A (fun j => (1 / 2 : ℝ) ^ l j) ha).symm
  have hrest : kraftSum (A.erase a) (Function.update len a (len b)) = kraftSum (A.erase a) len :=
    sum_update_of_notMem (fun _ l => (1 / 2 : ℝ) ^ l) (Finset.notMem_erase a A)
  have hdiv := kraftSum_eq_div hmax
  set K := ∑ j ∈ A.erase a, 2 ^ (len b - len j)
  have hlt : K < 2 ^ len b := by
    have hpos : (0 : ℝ) < (1 / 2) ^ len a := by positivity
    have hsum : (K : ℝ) / 2 ^ len b < 1 := by rw [← hdiv]; linarith [hsplit len]
    rw [div_lt_one (by positivity)] at hsum
    exact_mod_cast hsum
  have hone : 1 ≤ K := by
    have hmem : b ∈ A.erase a := Finset.mem_erase.2 ⟨hne, hb⟩
    calc 1 = 2 ^ (len b - len b) := by rw [Nat.sub_self, pow_zero]
      _ ≤ K := Finset.single_le_sum (f := fun j => 2 ^ (len b - len j))
        (fun _ _ => Nat.zero_le _) hmem
  refine ⟨Nat.one_le_iff_ne_zero.2 fun hzero => ?_, ?_⟩
  · rw [hzero, pow_zero] at hlt
    omega
  · rw [hsplit, hrest, hdiv, Function.update_self, one_div, inv_pow, inv_eq_one_div, ← add_div,
      div_le_one (by positivity)]
    have hle : 1 + K ≤ 2 ^ len b := by omega
    exact_mod_cast hle

/-- Huffman's exchange: the lightest item and the next lightest can be given one length, without a
greater sum. -/
theorem exists_sibling_lengths (ha : a ∈ A) (hb : b ∈ A) (hne : b ≠ a) (hwa : ∀ j ∈ A, w a ≤ w j)
    (hwb : ∀ j ∈ A.erase a, w b ≤ w j) (hk : kraftSum A len ≤ 1) :
    ∃ len', len' a = len' b ∧ 1 ≤ len' b ∧ kraftSum A len' ≤ 1 ∧
      weightedLength A w len' ≤ weightedLength A w len := by
  have hb' : b ∈ A.erase a := Finset.mem_erase.2 ⟨hne, hb⟩
  obtain ⟨c, hc, hmax, hcost⟩ := exists_swap_greatest ha hwa len
  rw [← kraftSum_swapLengths ha hc] at hk
  generalize swapLengths len a c = len₁ at hmax hcost hk
  obtain ⟨d, hd, hmax', -⟩ := exists_swap_greatest hb' hwb len₁
  obtain ⟨hda, hdA⟩ := Finset.mem_erase.1 hd
  have hbd : len₁ b ≤ len₁ d := by
    have hle := hmax' d hd
    rwa [swapLengths_left, swapLengths_right] at hle
  have hcost' := weightedLength_swapLengths_le hb hdA (hwb d hd) hbd
  have hba : swapLengths len₁ b d b ≤ swapLengths len₁ b d a := by
    rw [swapLengths_left, swapLengths_of_ne hne.symm hda.symm]
    exact hmax d hdA
  rw [← kraftSum_swapLengths hb hdA] at hk
  generalize swapLengths len₁ b d = len₂ at hmax' hcost' hba hk
  obtain ⟨hpos, hk'⟩ := kraftSum_update_le_one ha hb hne hk hmax'
  have hb₂ : Function.update len₂ a (len₂ b) b = len₂ b := Function.update_of_ne hne _ _
  refine ⟨Function.update len₂ a (len₂ b), ?_, hpos.trans_eq hb₂.symm, hk',
    le_trans ?_ (hcost'.trans hcost)⟩
  · rw [Function.update_self, hb₂]
  · refine Finset.sum_le_sum fun j _ => Nat.mul_le_mul_left _ ?_
    by_cases hja : j = a
    · rw [hja, Function.update_self]; exact hba
    · rw [Function.update_of_ne hja]

/-- Two items of one length that are merged, to an item of one bit less. -/
theorem kraftSum_mergedSet (ha : a ∈ A) (hb : b ∈ A) (hne : b ≠ a) (hm : m ∉ A)
    (hlen : len a = len b) (hpos : 1 ≤ len b) :
    kraftSum (mergedSet A a b m) (Function.update len m (len b - 1)) = kraftSum A len := by
  have hm' : m ∉ (A.erase a).erase b :=
    fun h => hm (Finset.mem_of_mem_erase (Finset.mem_of_mem_erase h))
  obtain ⟨l, hl⟩ := Nat.exists_eq_add_of_le hpos
  rw [kraftSum, kraftSum, sum_mergedSet _ hm, sum_eq_add_add_sum_erase _ ha hb hne,
    sum_update_of_notMem (fun _ l => (1 / 2 : ℝ) ^ l) hm', Function.update_self, hlen, hl,
    Nat.add_sub_cancel_left, pow_add]
  ring

/-- A merged item of one bit less saves its weight once. -/
theorem weightedLength_mergedSet (ha : a ∈ A) (hb : b ∈ A) (hne : b ≠ a) (hm : m ∉ A)
    (hw : w m = w a + w b) {len' : Nat → Nat} (hla : len a = len' m + 1) (hlb : len b = len' m + 1)
    (hrest : ∀ j ∈ A, len' j = len j) :
    weightedLength A w len = weightedLength (mergedSet A a b m) w len' + w m := by
  have hsum : ∑ j ∈ (A.erase a).erase b, w j * len' j = ∑ j ∈ (A.erase a).erase b, w j * len j :=
    Finset.sum_congr rfl fun j hj => by
      rw [hrest j (Finset.mem_of_mem_erase (Finset.mem_of_mem_erase hj))]
  rw [weightedLength, weightedLength, sum_mergedSet _ hm, sum_eq_add_add_sum_erase _ ha hb hne,
    hsum, hla, hlb, hw]
  ring

end

/-! ### Kraft's inequality -/

theorem uniquelyDecodable_of_prefixFree {S : Set (List Bool)} (hne : ∀ w ∈ S, w ≠ [])
    (hfree : ∀ v ∈ S, ∀ w ∈ S, v <+: w → v = w) : InformationTheory.UniquelyDecodable S := by
  intro L
  induction L with
  | nil =>
    intro L' _ hL' heq
    cases L' with
    | nil => rfl
    | cons w L' =>
      refine absurd ?_ (hne w (hL' w List.mem_cons_self))
      exact (List.append_eq_nil_iff.1 heq.symm).1
  | cons v L ih =>
    intro L' hL hL' heq
    cases L' with
    | nil =>
      refine absurd ?_ (hne v (hL v List.mem_cons_self))
      exact (List.append_eq_nil_iff.1 heq).1
    | cons w L' =>
      obtain ⟨hv, hrest⟩ := List.forall_mem_cons.1 hL
      obtain ⟨hw, hrest'⟩ := List.forall_mem_cons.1 hL'
      rw [List.flatten_cons, List.flatten_cons] at heq
      have hvw : v = w := by
        rcases List.prefix_or_prefix_of_prefix (heq ▸ List.prefix_append v _)
          (List.prefix_append w L'.flatten) with hpre | hpre
        · exact hfree v hv w hw hpre
        · exact (hfree w hw v hv hpre).symm
      subst hvw
      rw [ih L' hrest hrest' (List.append_cancel_left heq)]

/-- The lengths of nonempty codes, none of which begins with another, meet Kraft's inequality. -/
theorem kraftSum_le_one {A : Finset Nat} {code : Nat → List Bool} (hne : ∀ j ∈ A, code j ≠ [])
    (hfree : ∀ j ∈ A, ∀ k ∈ A, j ≠ k → ¬ (code j <+: code k)) :
    kraftSum A (fun j => (code j).length) ≤ 1 := by
  have hinj : ∀ j ∈ A, ∀ k ∈ A, code j <+: code k → j = k := fun j hj k hk hpre => by
    by_contra hjk
    exact hfree j hj k hk hjk hpre
  have hdec : InformationTheory.UniquelyDecodable
      ((A.image code : Finset _) : Set (List Bool)) := by
    refine uniquelyDecodable_of_prefixFree ?_ ?_
    · simpa using hne
    · intro v hv w hw hpre
      obtain ⟨j, hj, rfl⟩ := Finset.mem_image.1 hv
      obtain ⟨k, hk, rfl⟩ := Finset.mem_image.1 hw
      rw [hinj j hj k hk hpre]
  have hinjOn : Set.InjOn code A := fun j hj k hk heq =>
    hinj j hj k hk ⟨[], (List.append_nil _).trans heq⟩
  have hkraft := InformationTheory.kraft_mcmillan_inequality hdec
  rw [Finset.sum_image hinjOn] at hkraft
  simpa [kraftSum] using hkraft

end Sys2Proof.Machine

/-! SUPPORT. Huffman's theorem for the tree in NODE (44_huffman_build.md R146 (d)): by the greedy
choice, the exchange argument goes from the leaves to the root one internal node at a time. Settles
O45. -/

namespace Sys2Proof.Machine

open Sys2Proof.Config

/-! ### The live nodes, from one internal node to the next -/

/-- A is the set of the nodes that are live when node m is made. -/
def LiveSet (s : State) (m : Nat) (A : Finset Nat) : Prop := ∀ j, j ∈ A ↔ LiveAt s m j

/-- The frequency of node k. -/
def State.weight (s : State) (k : Nat) : Nat := (s.nodeAt k).freq.toNat

/-- The frequencies of the internal nodes from m on. -/
def State.weightFrom (s : State) (m : Nat) : Nat :=
  ∑ k ∈ Finset.Ico m (s.root.toNat + 1), s.weight k

section

variable {s : State} {m k : Nat} {A : Finset Nat}

/-- In a valid greedy tree every internal node is as the merge loop makes it. -/
theorem TreeOk.mergedAt (h : TreeOk s) (hg : Greedy s) (hk : Internal s k) : MergedAt s k := by
  obtain ⟨hleft, hright, hleast, hnext⟩ := hg k hk
  refine ⟨Bool.eq_false_iff.2 fun hl => ?_, h.innerFields k hk, (h.below k hk).2.2, h.sums k hk,
    hleft, hright, hleast, hnext⟩
  exact absurd (h.lt_of_leaf hk.2 hl) (Nat.not_lt.2 hk.1)

theorem LiveSet.notMem (hA : LiveSet s m A) : m ∉ A := fun hm => lt_irrefl m ((hA m).1 hm).1

theorem liveSet_leaves (s : State) : LiveSet s s.nsym.toNat (Finset.range s.nsym.toNat) :=
  fun j => Finset.mem_range.trans (liveAt_leaves s j).symm

/-- The next node takes its children off the live nodes and is live itself. -/
theorem LiveSet.succ (hmerged : ∀ k, Internal s k → MergedAt s k) (hm : Internal s m)
    (hA : LiveSet s m A) : LiveSet s (m + 1)
      (mergedSet A (s.nodeAt m).left.toNat (s.nodeAt m).right.toNat m) := by
  intro j
  rw [mergedSet, Finset.mem_insert, Finset.mem_erase, Finset.mem_erase, hA]
  constructor
  · rintro (rfl | ⟨hr, hl, hlive⟩)
    · exact liveAt_succ_self fun k hk hlt =>
        hmerged k ⟨hk, (Nat.lt_succ_iff.1 hlt).trans hm.2⟩
    · exact hlive.succ hl hr
  · intro hlive
    exact (hlive.of_succ hm.1).imp_right fun ⟨hlive, hl, hr⟩ => ⟨hr, hl, hlive⟩

theorem weightFrom_eq_add (hm : m ≤ s.root.toNat) :
    s.weightFrom m = s.weight m + s.weightFrom (m + 1) :=
  Finset.sum_eq_sum_Ico_succ_bot (Nat.lt_succ_iff.2 hm) _

theorem weightFrom_of_gt (hm : s.root.toNat < m) : s.weightFrom m = 0 := by
  rw [State.weightFrom, Finset.Ico_eq_empty (by omega), Finset.sum_empty]

variable (hmerged : ∀ k, Internal s k → MergedAt s k)

include hmerged

/-- Lengths of the live nodes that meet Kraft's inequality cost no less than the internal nodes that
are still to be made weigh. -/
theorem weightFrom_le_weightedLength {len : Nat → Nat} (hm : s.nsym.toNat ≤ m) (hA : LiveSet s m A)
    (hk : kraftSum A len ≤ 1) : s.weightFrom m ≤ weightedLength A s.weight len := by
  induction hd : s.root.toNat + 1 - m generalizing m A len with
  | zero => exact (weightFrom_of_gt (by omega)).trans_le (Nat.zero_le _)
  | succ d ih =>
    have hint : Internal s m := ⟨hm, by omega⟩
    have hmade := hmerged m hint
    have hleft := (hA _).2 hmade.liveLeft
    have hright := (hA _).2 hmade.liveRight
    have hleast : ∀ j ∈ A, s.weight (s.nodeAt m).left.toNat ≤ s.weight j := fun j hj => by
      by_cases hjl : j = (s.nodeAt m).left.toNat
      · rw [hjl]
      · exact (hmade.least j ((hA j).1 hj) hjl).freq_le
    have hnext : ∀ j ∈ A.erase (s.nodeAt m).left.toNat,
        s.weight (s.nodeAt m).right.toNat ≤ s.weight j := fun j hj => by
      obtain ⟨hjl, hj⟩ := Finset.mem_erase.1 hj
      by_cases hjr : j = (s.nodeAt m).right.toNat
      · rw [hjr]
      · exact (hmade.nextLeast j ((hA j).1 hj) hjl hjr).freq_le
    obtain ⟨len', hsame, hpos, hk', hcost⟩ :=
      exists_sibling_lengths hleft hright hmade.right_ne_left hleast hnext hk
    have hrest := ih (m := m + 1) (hm.trans (Nat.le_succ m)) (hA.succ hmerged hint)
      ((kraftSum_mergedSet hleft hright hmade.right_ne_left hA.notMem hsame hpos).trans_le hk')
      (by omega)
    have hbit : len' (s.nodeAt m).right.toNat =
        Function.update len' m (len' (s.nodeAt m).right.toNat - 1) m + 1 := by
      rw [Function.update_self, Nat.sub_add_cancel hpos]
    have hmerge := weightedLength_mergedSet hleft hright hmade.right_ne_left hA.notMem
      (w := s.weight) hmade.sum (hsame.trans hbit) hbit
      fun j hj => Function.update_of_ne (ne_of_mem_of_not_mem hj hA.notMem) _ _
    rw [weightFrom_eq_add hint.2]
    omega

/-- The depths of the live nodes cost exactly what the internal nodes that are still to be made
weigh. -/
theorem weightedLength_depth {depth : Nat → Nat}
    (hlast : ∀ j, LiveAt s (s.root.toNat + 1) j → depth j = 0)
    (hchild : ∀ k, Internal s k → ∀ b, depth (s.child k b) = depth k + 1)
    (hm : s.nsym.toNat ≤ m) (hle : m ≤ s.root.toNat + 1) (hA : LiveSet s m A) :
    weightedLength A s.weight depth = s.weightFrom m := by
  induction hd : s.root.toNat + 1 - m generalizing m A with
  | zero =>
    obtain rfl : m = s.root.toNat + 1 := by omega
    rw [weightFrom_of_gt (Nat.lt_succ_self _)]
    refine Finset.sum_eq_zero fun j hj => ?_
    rw [hlast j ((hA j).1 hj), Nat.mul_zero]
  | succ d ih =>
    have hint : Internal s m := ⟨hm, by omega⟩
    have hmade := hmerged m hint
    have hmerge := weightedLength_mergedSet ((hA _).2 hmade.liveLeft) ((hA _).2 hmade.liveRight)
      hmade.right_ne_left hA.notMem (w := s.weight) hmade.sum (hchild m hint false)
      (hchild m hint true) fun _ _ => rfl
    rw [hmerge, ih (m := m + 1) (hm.trans (Nat.le_succ m)) (by omega) (hA.succ hmerged hint)
      (by omega),
      weightFrom_eq_add hint.2, Nat.add_comm]

end

/-! ### The codes of the tree -/

section

variable {s : State} (h : TreeOk s)

include h

/-- Once the root is made, it alone is live. -/
theorem TreeOk.eq_root_of_liveAt {j : Nat} (hj : LiveAt s (s.root.toNat + 1) j) :
    j = s.root.toNat := by
  obtain ⟨hlt, hfree⟩ := hj
  by_contra hne
  obtain ⟨k, hk, hc, -⟩ := h.oneParent j (by omega)
  exact hfree k hk.1 (Nat.lt_succ_iff.2 hk.2) hc

/-- The depth of each node: the length of the way to it from the root. -/
theorem TreeOk.exists_depth : ∃ depth : Nat → Nat, depth s.root.toNat = 0 ∧
    (∀ k, Internal s k → ∀ b, depth (s.child k b) = depth k + 1) ∧
    ∀ k p, s.descend s.root.toNat p = some k → p.length = depth k := by
  have hway : ∀ k, ∃ p, k ≤ s.root.toNat → s.descend s.root.toNat p = some k := fun k => by
    by_cases hk : k ≤ s.root.toNat
    · obtain ⟨p, hp⟩ := h.exists_descend hk
      exact ⟨p, fun _ => hp⟩
    · exact ⟨[], fun hk' => absurd hk' hk⟩
  choose path hpath using hway
  have hlen : ∀ k p, s.descend s.root.toNat p = some k → p.length = (path k).length :=
    fun k p hp => congrArg List.length (h.descend_unique hp (hpath k (h.descend_le le_rfl hp)))
  refine ⟨fun k => (path k).length, (hlen _ [] rfl).symm, fun k hk b => ?_, hlen⟩
  have hinner : (s.nodeAt k).leaf = false := Bool.eq_false_iff.2 fun hl =>
    absurd (h.lt_of_leaf hk.2 hl) (Nat.not_lt.2 hk.1)
  dsimp only
  rw [← hlen _ _ (descend_concat_iff.2 ⟨k, hpath k hk.2, hinner, rfl⟩), List.length_append,
    List.length_singleton]

/-- Huffman's theorem: no nonempty codes of the leaves, none of which begins with another, cost less
than the tree's. -/
theorem TreeOk.weightedLength_leafCode_le (hg : Greedy s) {code assigned : Nat → List Bool}
    (hcode : ∀ k, k < s.nsym.toNat → LeafCode s k (code k))
    (hne : ∀ k, k < s.nsym.toNat → assigned k ≠ [])
    (hfree : ∀ j, j < s.nsym.toNat → ∀ k, k < s.nsym.toNat → j ≠ k →
      ¬ (assigned j <+: assigned k)) :
    weightedLength (Finset.range s.nsym.toNat) s.weight (fun k => (code k).length) ≤
      weightedLength (Finset.range s.nsym.toNat) s.weight fun k => (assigned k).length := by
  obtain ⟨hpos, -, hroot⟩ := h.size
  by_cases hn : s.nsym.toNat = 1
  · refine Finset.sum_le_sum fun k hk => Nat.mul_le_mul_left _ ?_
    have hk' := Finset.mem_range.1 hk
    dsimp only
    rw [((leafCode_iff_of_single hn).1 (hcode k hk')).2]
    exact List.length_pos_iff.2 (hne k hk')
  · obtain ⟨depth, hzero, hchild, hdepth⟩ := h.exists_depth
    have hmerged := fun k => h.mergedAt hg (k := k)
    have hkraft : kraftSum (Finset.range s.nsym.toNat) (fun k => (assigned k).length) ≤ 1 :=
      kraftSum_le_one (fun k hk => hne k (Finset.mem_range.1 hk)) fun j hj k hk =>
        hfree j (Finset.mem_range.1 hj) k (Finset.mem_range.1 hk)
    calc weightedLength (Finset.range s.nsym.toNat) s.weight (fun k => (code k).length)
        = weightedLength (Finset.range s.nsym.toNat) s.weight depth :=
          Finset.sum_congr rfl fun k hk => congrArg (s.weight k * ·)
            (hdepth k _ ((leafCode_iff_of_ne hn).1 (hcode k (Finset.mem_range.1 hk))).2)
      _ = s.weightFrom s.nsym.toNat :=
          weightedLength_depth hmerged (fun j hj => h.eq_root_of_liveAt hj ▸ hzero) hchild le_rfl
            (by omega) (liveSet_leaves s)
      _ ≤ _ := weightFrom_le_weightedLength hmerged le_rfl (liveSet_leaves s) hkraft

/-- Huffman's theorem for the table that HGEN writes. -/
theorem TreeOk.weightedLength_putCodes_le (hg : Greedy s) {assigned : Nat → List Bool}
    (hne : ∀ x, HasCode s.putCodes x → assigned x ≠ [])
    (hfree : ∀ x y, HasCode s.putCodes x → HasCode s.putCodes y → x ≠ y →
      ¬ (assigned x <+: assigned y)) :
    weightedLength (Finset.range s.nsym.toNat) s.weight
        (fun k => (s.putCodes.codeAt (s.nodeAt k).sym.toNat).len.toNat) ≤
      weightedLength (Finset.range s.nsym.toNat) s.weight
        fun k => (assigned (s.nodeAt k).sym.toNat).length := by
  have hcode : ∀ k, k < s.nsym.toNat →
      LeafCode s k (codeBits (s.putCodes.codeAt (s.nodeAt k).sym.toNat)) := fun k hk => by
    obtain ⟨p, hp⟩ := h.exists_leafCode hk
    rwa [h.codeAt_putCodes_of_leafCode hp, codeBits_codeRec (h.length_leafCode hp).2]
  have hhas := fun k hk => h.hasCode_putCodes (k := k) hk
  have hcost := h.weightedLength_leafCode_le hg hcode (fun k hk => hne _ (hhas k hk))
    fun j hj k hk hjk => hfree _ _ (hhas j hj) (hhas k hk) fun heq =>
      hjk (h.sym_injective hj hk heq)
  simpa only [length_codeBits] using hcost

end

/-! ### The counts of the intensities -/

section

variable {s t u : State}

theorem statusError_ne_success (k : ErrKind) : statusError k ≠ 0x00000002 := by
  cases k <;> decide

/-- HBUILD that succeeds has made its tree. -/
theorem exec_hbuild_success (h : exec .hbuild s = .next t) (hst : t.status = 0x00000002) :
    s.occurring ≠ [] ∧ t = s.putTree.finish (toWord s.occurring.length) .node := by
  obtain ⟨-, hne, ht⟩ | ⟨k, info, rfl⟩ := exec_hbuild_cases h
  · exact ⟨hne, ht⟩
  · exact absurd hst (statusError_ne_success k)

theorem exec_hgen_success (h : exec .hgen s = .next t) (hst : t.status = 0x00000002) :
    t = s.putCodes.finish (toWord (greatestLength s.treeCodes)) .code := by
  obtain ⟨-, ht⟩ | ⟨k, info, rfl⟩ := exec_hgen_cases h
  · exact ht
  · exact absurd hst (statusError_ne_success k)

/-- What the counts cost is what the leaves cost. -/
theorem sum_counts_eq_weightedLength (s : State) (g : Nat → Nat) :
    ((List.range 256).map fun x => (s.freqAt x).toNat * g x).sum =
      weightedLength (Finset.range s.putTree.nsym.toNat) s.putTree.weight
        fun k => g (s.putTree.nodeAt k).sym.toNat := by
  have hleaves := congrArg (fun l => (l.map fun c : Nat × Nat => c.2 * g c.1).sum)
    (leaves_putTree s)
  simp only [List.map_map] at hleaves
  calc ((List.range 256).map fun x => (s.freqAt x).toNat * g x).sum
      = (s.occurring.map fun x => (s.freqAt x).toNat * g x).sum :=
        (sum_occurring s fun x hx => by rw [hx]; exact Nat.zero_mul _).symm
    _ = _ := hleaves.symm

/-- The codes that HGEN makes of HBUILD's tree cost no more than any nonempty codes of the same
intensities of which none begins with another. -/
theorem sum_codes_le_sum_assigned (hb : exec .hbuild s = .next t) (hbst : t.status = 0x00000002)
    (hc : exec .hgen t = .next u) (hcst : u.status = 0x00000002) {assigned : Nat → List Bool}
    (hne : ∀ x, HasCode u x → assigned x ≠ [])
    (hfree : ∀ x y, HasCode u x → HasCode u y → x ≠ y → ¬ (assigned x <+: assigned y)) :
    ((List.range 256).map fun x => (u.freqAt x).toNat * (u.codeAt x).len.toNat).sum ≤
      ((List.range 256).map fun x => (u.freqAt x).toNat * (assigned x).length).sum := by
  obtain ⟨hocc, rfl⟩ := exec_hbuild_success hb hbst
  obtain rfl := exec_hgen_success hc hcst
  have htree : TreeOk (s.putTree.finish (toWord s.occurring.length) .node) :=
    (treeOk_putTree hocc).finish _ _
  have hcost := htree.weightedLength_putCodes_le (greedy_putTree hocc) hne hfree
  exact (sum_counts_eq_weightedLength s _).trans_le
    (hcost.trans_eq (sum_counts_eq_weightedLength s fun x => (assigned x).length).symm)

/-- The 8 bits of an intensity, a code like any other. -/
def byteCode (x : Nat) : List Bool := (List.range 8).map fun j => (BitVec.ofNat 8 x).getLsbD j

theorem length_byteCode (x : Nat) : (byteCode x).length = 8 := by
  rw [byteCode, List.length_map, List.length_range]

theorem byteCode_injective {x y : Nat} (hx : x < 256) (hy : y < 256)
    (h : byteCode x = byteCode y) : x = y := by
  have hbits : BitVec.ofNat 8 x = BitVec.ofNat 8 y := BitVec.eq_of_getLsbD_eq fun j hj =>
    List.map_inj_left.1 h j (List.mem_range.2 hj)
  have hval := congrArg BitVec.toNat hbits
  rwa [toNat_ofNat_of_lt hx, toNat_ofNat_of_lt hy] at hval

end

/-- Settles O45: Huffman's theorem on the tree of HFREQ's counts; for the second bound, every
intensity is assigned its own 8 bits. -/
theorem huffmanCodesAreOptimal : Obligations.HuffmanCodesAreOptimal := by
  intro s a b c n hP hg ha hast hb hbst hc hcst
  have hle := fun assigned => sum_codes_le_sum_assigned (assigned := assigned) hb hbst hc hcst
  refine ⟨hle, (hle byteCode (fun x _ => ?_) fun x y hx hy hne hpre => ?_).trans_eq ?_⟩
  · exact List.ne_nil_of_length_eq_add_one (length_byteCode x)
  · refine hne (byteCode_injective hx.1 hy.1 (hpre.eq_of_length ?_))
    rw [length_byteCode, length_byteCode]
  · have hf := flagsSet_of_gridBody_success hg ha hast
    rw [exec_hfreq_of_ok hg hf] at ha
    cases ha
    obtain ⟨-, rfl⟩ := exec_hbuild_success hb hbst
    obtain rfl := exec_hgen_success hc hcst
    simp only [length_byteCode]
    rw [List.sum_map_mul_right, Nat.mul_comm]
    exact congrArg (8 * ·) (sum_freqAt_putCounts hP hg)

end Sys2Proof.Machine

/-! SUPPORT. Bit sequences of the stream in STRM[0] (20_memory.md R65), and what HENC leaves there
(45_huffman_stream.md R160, R161). Settles O46. -/

namespace Sys2Proof.Machine

open Sys2Proof.Config

/-! ### Prefixes of an enumerated sequence -/

theorem map_range_add {α : Type} (f : Nat → α) (m k : Nat) :
    (List.range (m + k)).map f = (List.range m).map f ++ (List.range k).map fun j => f (m + j) := by
  rw [List.range_add, List.map_append, List.map_map]
  rfl

theorem map_range_prefix {α : Type} (f : Nat → α) {m k : Nat} (h : m ≤ k) :
    (List.range m).map f <+: (List.range k).map f := by
  obtain ⟨d, rfl⟩ := Nat.exists_eq_add_of_le h
  rw [map_range_add]
  exact List.prefix_append _ _

/-! ### Bit sequences of the stream -/

/-- The L stream bits from position pos on: the window of 45_huffman_stream.md R162, as a sequence. -/
def State.bitsFrom (s : State) (pos L : Nat) : List Bool :=
  (List.range L).map fun j => s.streamBit (pos + j)

section

variable {s : State} {pos L L' : Nat}

theorem window_eq_bitsValue : s.window pos L = bitsValue (s.bitsFrom pos L) := rfl

theorem length_bitsFrom : (s.bitsFrom pos L).length = L := by
  rw [State.bitsFrom, List.length_map, List.length_range]

theorem bitsFrom_prefix (h : L ≤ L') : s.bitsFrom pos L <+: s.bitsFrom pos L' :=
  map_range_prefix _ h

theorem bitsFrom_add :
    s.bitsFrom pos (L + L') = s.bitsFrom pos L ++ s.bitsFrom (pos + L) L' := by
  simp only [State.bitsFrom, map_range_add, Nat.add_assoc]

theorem streamBits_eq_bitsFrom : s.streamBits L = s.bitsFrom 0 L :=
  List.map_congr_left fun j _ => by rw [Nat.zero_add]

theorem bitsFrom_congr {t : State} (h : t.strm[(0 : Fin 8)] = s.strm[(0 : Fin 8)]) :
    t.bitsFrom pos L = s.bitsFrom pos L := by
  unfold State.bitsFrom State.streamBit State.strmAt
  rw [h]

end

/-! ### The codes of pixels -/

section

variable (s : State)

theorem codesOf_nil : s.codesOf [] = [] := rfl

theorem codesOf_cons (v : Byte) (vs : List Byte) :
    s.codesOf (v :: vs) = codeBits (s.codeAt v.toNat) ++ s.codesOf vs := List.flatMap_cons

theorem codesOf_append (px px' : List Byte) :
    s.codesOf (px ++ px') = s.codesOf px ++ s.codesOf px' := List.flatMap_append

theorem image_succ (n : Nat) : s.image (n + 1) = s.image n ++ [s.pixAt n] := by
  rw [State.image, State.image, List.range_succ, List.map_append, List.map_singleton]

/-- The codes, by the table of s, of an image that any state holds. -/
theorem codesOf_image_succ (t : State) (i : Nat) :
    s.codesOf (t.image (i + 1)) =
      s.codesOf (t.image i) ++ codeBits (s.codeAt (t.pixAt i).toNat) := by
  rw [image_succ, codesOf_append, codesOf_cons, codesOf_nil, List.append_nil]

theorem codesOf_image_prefix {i n : Nat} (h : i ≤ n) :
    s.codesOf (s.image i) <+: s.codesOf (s.image n) := by
  obtain ⟨rest, hrest⟩ := map_range_prefix s.pixAt h
  exact ⟨s.codesOf rest, by rw [← codesOf_append]; exact congrArg s.codesOf hrest⟩

end

/-! ### Flags -/

theorem flagsSet_of_submask {s : State} {m m' : Word} (h : FlagsSet m s) (hsub : m &&& m' = m') :
    FlagsSet m' s := by
  calc s.valid &&& m' = s.valid &&& m &&& m' := by rw [BitVec.and_assoc, hsub]
    _ = m' := by rw [h, hsub]

/-! ### A packed stream -/

/-- What a successful HENC writes before its `done` (45_huffman_stream.md R161). -/
def State.putPacked (bits : List Bool) (s : State) : State :=
  { s with bitcnt := toWord bits.length }.putStream 0 (packedBytes bits)

section

variable (s : State) {bits : List Bool}

theorem strmAt_putPacked_of_le {j : Nat} (h : (bits.length + 7) / 8 ≤ j) :
    (s.putPacked bits).strmAt 0 j = s.strmAt 0 j :=
  strmAt_putStream_of_le _ 0 ((length_packedBytes bits).trans_le h)

/-- Inside its bytes the stream is the bits packed and then zeros (20_memory.md R65). -/
theorem streamBit_putPacked {k : Nat} (h : k < 8 * ((bits.length + 7) / 8)) :
    (s.putPacked bits).streamBit k = bits.getD k false := by
  have hbyte : (s.putPacked bits).strmAt 0 (k / 8) = packedByte bits (k / 8) := by
    have hk : k / 8 < (bits.length + 7) / 8 := by omega
    refine (strmAt_putStream _ 0 0 _ _).trans ?_
    rw [if_pos rfl, packedBytes, List.getElem?_map, List.getElem?_range hk]
    rfl
  rw [State.streamBit, hbyte, getLsbD_packedByte bits _ _ (Nat.mod_lt k (by norm_num)),
    Nat.div_add_mod]

theorem streamBits_putPacked : (s.putPacked bits).streamBits bits.length = bits :=
  map_range_eq_of_getElem? fun k hk => by
    rw [streamBit_putPacked s (by omega), List.getD_eq_getElem _ _ hk]

theorem streamBit_putPacked_padding {k : Nat} (hk : bits.length ≤ k)
    (hlast : k < 8 * ((bits.length + 7) / 8)) : (s.putPacked bits).streamBit k = false := by
  rw [streamBit_putPacked s hlast, List.getD_eq_default _ _ hk]

theorem toNat_bitcnt_putPacked (h : bits.length < 2 ^ 32) :
    (s.putPacked bits).bitcnt.toNat = bits.length := toWord_toNat h

theorem toNat_slen_putPacked (h : bits.length < 2 ^ 32) :
    (s.putPacked bits).slen[(0 : Fin 8)].toNat = (bits.length + 7) / 8 := by
  rw [← length_packedBytes]
  refine toNat_slen_putStream _ 0 ?_
  rw [length_packedBytes]
  omega

end

/-! ### HENC -/

section

variable {s t : State} {n : Nat}

theorem exec_henc_of_fits (hg : GridOk s n) (hf : FlagsSet (pixv ||| codev) s)
    (hcodes : ∀ v ∈ s.image n, HasCode s v.toNat)
    (hfits : (s.codesOf (s.image n)).length ≤ 8 * s.params.maxStrm) :
    exec .henc s = .next ((s.putPacked (s.codesOf (s.image n))).finish
      (toWord (s.codesOf (s.image n)).length) (.strm 0)) := by
  refine (execHenc_of_checks hg hf).trans ?_
  rw [packCodes_of_fits _ _ _ _ _ (fun v hv => (hcodes v hv).2)
    ((Nat.zero_add _).trans_le hfits), except_ok_bind, conclude_ok]
  rfl

/-- With legal parameters a capacity in bits fits a register (00_scope.md R6). -/
theorem lt_of_le_capacity (hP : s.params.wf = true) {k : Nat} (h : k ≤ 8 * s.params.maxStrm) :
    k < 2 ^ 32 := by
  simp only [Params.wf, Bool.and_eq_true, decide_eq_true_eq] at hP
  unfold Params.maxStrm at h
  omega

end

/-- Settles O46. -/
theorem hencPacksTheCodes : Obligations.HencPacksTheCodes := by
  intro s n hP hg hf hcodes hfits
  have hlt := lt_of_le_capacity hP hfits
  have hcnt := toNat_bitcnt_putPacked s hlt
  have hslen := toNat_slen_putPacked s hlt
  refine ⟨_, exec_henc_of_fits hg hf hcodes hfits, rfl, hcnt, ?_, ?_, fun k hk hlast => ?_,
    fun j hj => ?_, rfl, rfl, keepsAllBut_mono ((keepsAllBut_packed s _ _).finish _ _) (by simp)⟩
  · exact (congrArg (s.putPacked _).streamBits hcnt).trans (streamBits_putPacked s)
  · exact hslen.trans (by rw [← hcnt]; rfl)
  · exact streamBit_putPacked_padding s (hcnt.symm.trans_le hk)
      (hlast.trans_eq (congrArg (8 * ·) hslen))
  · exact strmAt_putPacked_of_le s (hslen.symm.trans_le hj)

end Sys2Proof.Machine

/-! SUPPORT. HDEC's scanner under a valid table (45_huffman_stream.md R162, R163): at most one code
stands at a position of the stream, and the scan finds it. -/

namespace Sys2Proof.Machine

open Sys2Proof.Config

/-! ### The code at a position -/

/-- Intensity x has a code, and the stream holds its bits from position pos on. -/
def CodeStands (s : State) (pos x : Nat) : Prop :=
  HasCode s x ∧ codeBits (s.codeAt x) = s.bitsFrom pos (s.codeAt x).len.toNat

section

variable {s : State} {pos x y : Nat}

theorem codeBits_eq_bitsFrom_iff :
    codeBits (s.codeAt x) = s.bitsFrom pos (s.codeAt x).len.toNat ↔
      ∀ j, j < (s.codeAt x).len.toNat →
        (s.codeAt x).bits.getLsbD j = s.streamBit (pos + j) := by
  rw [codeBits, State.bitsFrom, List.map_inj_left]
  simp only [List.mem_range]

/-- No code of at most MAXSCAN bits stands at the position, inside BITCNT. -/
theorem noMatchAt_iff : NoMatchAt s pos ↔ ∀ x, CodeStands s pos x →
    (s.codeAt x).len.toNat ≤ s.params.maxScan → s.bitcnt.toNat < pos + (s.codeAt x).len.toNat := by
  refine forall_congr' fun x => ?_
  rw [CodeStands, codeBits_eq_bitsFrom_iff, ← not_le]
  constructor
  · rintro h ⟨hx, hbits⟩ hlen hin
    obtain ⟨j, hj, hne⟩ := h hx hlen hin
    exact hne (hbits j hj)
  · intro h hx hlen hin
    by_contra hall
    push Not at hall
    exact h ⟨hx, hall⟩ hlen hin

variable (hc : CodeOk s)

include hc

/-- At most one code stands at a position: of two, one would begin with the other
(44_huffman_build.md R146 (b)). -/
theorem CodeOk.codeStands_unique (hx : CodeStands s pos x) (hy : CodeStands s pos y) : x = y := by
  obtain ⟨hx, hxbits⟩ := hx
  obtain ⟨hy, hybits⟩ := hy
  by_contra hne
  rcases Nat.le_total (s.codeAt x).len.toNat (s.codeAt y).len.toNat with hle | hle
  · refine hc.prefixFree x y hx hy hne ?_
    rw [hxbits, hybits]
    exact bitsFrom_prefix hle
  · refine hc.prefixFree y x hy hx (Ne.symm hne) ?_
    rw [hxbits, hybits]
    exact bitsFrom_prefix hle

/-- With two codes or more, one stands at every position (44_huffman_build.md R146 (c)). -/
theorem CodeOk.exists_codeStands (hn : s.ncode ≠ 1) (pos : Nat) : ∃ x, CodeStands s pos x := by
  obtain ⟨hpos, -, -⟩ := hc.size
  have hone : s.ncode.toNat ≠ 1 := fun h => hn (BitVec.eq_of_toNat_eq h)
  obtain ⟨x, hx, hbits⟩ := hc.complete (by omega) fun j => s.streamBit (pos + j)
  exact ⟨x, hx, codeBits_eq_bitsFrom_iff.2 hbits⟩

end

/-! ### lookup -/

section

variable {s : State} {pos L : Nat}

/-- The test of `lookup` at one intensity. -/
theorem lookup_test_iff (x : Nat) :
    ((s.codeAt x).present && (s.codeAt x).len.toNat == L &&
      codeValue (s.codeAt x) == s.window pos L) = true ↔
    (s.codeAt x).present = true ∧ (s.codeAt x).len.toNat = L ∧
      codeBits (s.codeAt x) = s.bitsFrom pos (s.codeAt x).len.toNat := by
  rw [Bool.and_eq_true, Bool.and_eq_true, beq_iff_eq, beq_iff_eq, window_eq_bitsValue, and_assoc]
  refine and_congr_right fun _ => and_congr_right fun hlen => ?_
  rw [hlen]
  exact codeValue_eq_iff _ _ (length_bitsFrom.trans hlen.symm)

/-- `lookup` finds only a code that stands at the position, of the length asked for. -/
theorem codeStands_of_lookupCode {v : Byte} (h : s.lookupCode L (s.window pos L) = some v) :
    CodeStands s pos v.toNat ∧ (s.codeAt v.toNat).len.toNat = L := by
  obtain ⟨x, hx, rfl⟩ := Option.map_eq_some_iff.1 h
  have hlt : x < symbols := List.mem_range.1 (List.mem_of_find?_eq_some hx)
  have htest := List.find?_some hx
  obtain ⟨hpresent, hlen, hbits⟩ := (lookup_test_iff x).1 htest
  rw [toNat_ofNat_of_lt (show x < 2 ^ 8 from hlt)]
  exact ⟨⟨⟨hlt, hpresent⟩, hbits⟩, hlen⟩

theorem lookupCode_ne_none {x : Nat} (hx : CodeStands s pos x) :
    s.lookupCode (s.codeAt x).len.toNat (s.window pos (s.codeAt x).len.toNat) ≠ none := by
  obtain ⟨⟨hlt, hpresent⟩, hbits⟩ := hx
  intro h
  have hnone := List.find?_eq_none.1 (Option.map_eq_none_iff.1 h) x (List.mem_range.2 hlt)
  exact hnone ((lookup_test_iff x).2 ⟨hpresent, rfl, hbits⟩)

/-- Under a valid table `lookup` finds the code that stands at the position. -/
theorem CodeOk.lookupCode_eq_some (hc : CodeOk s) {v : Byte} (hv : CodeStands s pos v.toNat) :
    s.lookupCode (s.codeAt v.toNat).len.toNat
      (s.window pos (s.codeAt v.toNat).len.toNat) = some v := by
  obtain ⟨w, hw⟩ := Option.ne_none_iff_exists'.1 (lookupCode_ne_none hv)
  have heq := hc.codeStands_unique (codeStands_of_lookupCode hw).1 hv
  rw [hw, BitVec.eq_of_toNat_eq heq]

/-- Under a valid table `lookup` finds nothing at any other length. -/
theorem CodeOk.lookupCode_eq_none (hc : CodeOk s) {x : Nat} (hx : CodeStands s pos x)
    (hL : L ≠ (s.codeAt x).len.toNat) : s.lookupCode L (s.window pos L) = none := by
  rw [Option.eq_none_iff_forall_ne_some]
  intro w hw
  obtain ⟨hstands, hlen⟩ := codeStands_of_lookupCode hw
  exact hL (by rw [← hlen, hc.codeStands_unique hstands hx])

end

/-! ### The scan of one pixel -/

section

variable {s : State} {i pos L tries : Nat}

theorem scanCode_of_lookup {v : Byte} (hin : pos + L ≤ s.bitcnt.toNat)
    (h : s.lookupCode L (s.window pos L) = some v) :
    s.scanCode i pos L (tries + 1) = .ok (v, L) := by
  rw [State.scanCode, if_neg (Nat.not_lt.2 hin), h]

theorem scanCode_of_no_lookup (hin : pos + L ≤ s.bitcnt.toNat)
    (h : s.lookupCode L (s.window pos L) = none) :
    s.scanCode i pos L (tries + 1) = s.scanCode i pos (L + 1) tries := by
  rw [State.scanCode, if_neg (Nat.not_lt.2 hin), h]

theorem scanCode_of_exhausted (h : s.bitcnt.toNat < pos + L) :
    s.scanCode i pos L (tries + 1) = .error ⟨.malformedArtifact, toWord i⟩ := by
  rw [State.scanCode, if_pos h]

/-- The scan finds the code that stands at the position. -/
theorem CodeOk.scanCode_of_codeStands (hc : CodeOk s) {v : Byte} (hv : CodeStands s pos v.toNat)
    (hin : pos + (s.codeAt v.toNat).len.toNat ≤ s.bitcnt.toNat)
    (hL : L ≤ (s.codeAt v.toNat).len.toNat)
    (htries : (s.codeAt v.toNat).len.toNat < L + tries) :
    s.scanCode i pos L tries = .ok (v, (s.codeAt v.toNat).len.toNat) := by
  induction tries generalizing L with
  | zero => omega
  | succ tries ih =>
    by_cases heq : L = (s.codeAt v.toNat).len.toNat
    · rw [heq]
      exact scanCode_of_lookup hin (hc.lookupCode_eq_some hv)
    · rw [scanCode_of_no_lookup (by omega) (hc.lookupCode_eq_none hv heq)]
      exact ih (by omega) (by omega)

/-- Where no candidate length finds a code, the scan ends with MalformedArtifact if the stream ends
before the last candidate does, and with UnmatchedCode if not (45_huffman_stream.md R163). -/
theorem scanCode_of_no_code
    (hnone : ∀ L', L ≤ L' → L' < L + tries → pos + L' ≤ s.bitcnt.toNat →
      s.lookupCode L' (s.window pos L') = none) (hin : pos + L ≤ s.bitcnt.toNat + 1) :
    s.scanCode i pos L tries = .error
      (if s.bitcnt.toNat + 1 < pos + L + tries then ⟨.malformedArtifact, toWord i⟩
      else ⟨.unmatchedCode, toWord pos⟩) := by
  induction tries generalizing L with
  | zero => rw [if_neg (by omega), State.scanCode]
  | succ tries ih =>
    by_cases hL : pos + L ≤ s.bitcnt.toNat
    · rw [scanCode_of_no_lookup hL (hnone L le_rfl (by omega) hL),
        ih (fun L' h h' => hnone L' (by omega) (by omega)) (by omega)]
      simp only [Nat.add_assoc, Nat.add_comm 1]
    · rw [scanCode_of_exhausted (by omega), if_pos (by omega)]

theorem scanCode_of_noMatchAt (hnone : NoMatchAt s pos) (hin : pos ≤ s.bitcnt.toNat) :
    s.scanCode i pos 1 s.params.maxScan = .error
      (if s.bitcnt.toNat < pos + s.params.maxScan then ⟨.malformedArtifact, toWord i⟩
      else ⟨.unmatchedCode, toWord pos⟩) := by
  rw [scanCode_of_no_code (fun L _ hscan hL => ?_) (by omega)]
  · simp only [Nat.add_right_comm pos 1, Nat.add_lt_add_iff_right]
  · rw [Option.eq_none_iff_forall_ne_some]
    intro v hv
    obtain ⟨hstands, hlen⟩ := codeStands_of_lookupCode hv
    have hout := noMatchAt_iff.1 hnone _ hstands (by omega)
    omega

/-- The scan does not run out of candidates before the code that stands at the position
(45_huffman_stream.md R165). -/
theorem failsAs_scanCode_of_codeStands {x : Nat} (hx : CodeStands s pos x)
    (hL : L ≤ (s.codeAt x).len.toNat) (htries : (s.codeAt x).len.toNat < L + tries) :
    FailsAs [.malformedArtifact] (s.scanCode i pos L tries) := by
  induction tries generalizing L with
  | zero => omega
  | succ tries ih =>
    by_cases hin : pos + L ≤ s.bitcnt.toNat
    · cases hlook : s.lookupCode L (s.window pos L) with
      | some v =>
        rw [scanCode_of_lookup hin hlook]
        exact failsAs_ok _ _
      | none =>
        have hne : L ≠ (s.codeAt x).len.toNat := by
          rintro rfl
          exact lookupCode_ne_none hx hlook
        rw [scanCode_of_no_lookup hin hlook]
        exact ih (by omega) (by omega)
    · rw [scanCode_of_exhausted (by omega)]
      exact failsAs_error _ (by simp)

end

/-! ### The scan of the pixels -/

section

variable {s : State}

/-- The scan of a stream that begins with the codes of some pixels, and goes on after them. -/
theorem CodeOk.scanPixels_of_codes (hc : CodeOk s) {px : List Byte}
    (hpx : ∀ v ∈ px, HasCode s v.toNat ∧ (s.codeAt v.toNat).len.toNat ≤ s.params.maxScan)
    (m i pos : Nat) (hin : pos + (s.codesOf px).length ≤ s.bitcnt.toNat)
    (hbits : s.bitsFrom pos (s.codesOf px).length = s.codesOf px) :
    s.scanPixels (px.length + m) i pos =
      (s.scanPixels m (i + px.length) (pos + (s.codesOf px).length) >>= fun r =>
        .ok (px ++ r.1, r.2)) := by
  induction px generalizing i pos with
  | nil =>
    rw [codesOf_nil, List.length_nil, Nat.zero_add]
    cases s.scanPixels m i pos <;> rfl
  | cons v vs ih =>
    obtain ⟨⟨hv, hscan⟩, hvs⟩ := List.forall_mem_cons.1 hpx
    rw [codesOf_cons, List.length_append, length_codeBits] at hin hbits ⊢
    rw [bitsFrom_add] at hbits
    obtain ⟨hfirst, hrest⟩ := List.append_inj hbits (length_bitsFrom.trans (length_codeBits _).symm)
    have hcode : s.scanCode i pos 1 s.params.maxScan =
        .ok (v, (s.codeAt v.toNat).len.toNat) :=
      hc.scanCode_of_codeStands ⟨hv, hfirst.symm⟩ (by omega) (hc.lengths _ hv) (by omega)
    rw [List.length_cons, Nat.add_right_comm vs.length 1 m, State.scanPixels, hcode,
      except_ok_bind, ih hvs _ _ (by omega) hrest, Nat.add_right_comm i 1, Nat.add_assoc i,
      Nat.add_assoc pos]
    cases s.scanPixels m (i + (vs.length + 1))
      (pos + ((s.codeAt v.toNat).len.toNat + (s.codesOf vs).length)) <;> rfl

theorem CodeOk.failsAs_scanPixels (hc : CodeOk s) (hn : s.ncode ≠ 1)
    (hscan : ∀ x, HasCode s x → (s.codeAt x).len.toNat ≤ s.params.maxScan) (n i pos : Nat) :
    FailsAs [.malformedArtifact] (s.scanPixels n i pos) := by
  induction n generalizing i pos with
  | zero => exact failsAs_ok _ _
  | succ n ih =>
    obtain ⟨x, hx⟩ := hc.exists_codeStands hn pos
    have hlen := hscan x hx.1
    exact failsAs_bind
      (failsAs_scanCode_of_codeStands hx (hc.lengths x hx.1) (by omega)) fun _ =>
      failsAs_bind (ih _ _) fun _ => failsAs_ok _ _

end

end Sys2Proof.Machine

/-! SUPPORT. How HDEC ends: the degenerate decode, a scan that succeeds, and each of its errors
(45_huffman_stream.md R163 to R165). Settles O48, O49 and O50. -/

namespace Sys2Proof.Machine

open Sys2Proof.Config

section

variable {s : State} {n : Nat}

/-! ### The degenerate decode -/

/-- In a table with one code the degenerate decode takes its intensity (45_huffman_stream.md R164). -/
theorem soleSymbol_eq {x : Byte} (hx : HasCode s x.toNat) (honly : ∀ y, HasCode s y → y = x.toNat) :
    s.soleSymbol = x := by
  unfold State.soleSymbol
  cases hfind : (List.range symbols).find? fun y => (s.codeAt y).present with
  | none => exact absurd hx.2 (List.find?_eq_none.1 hfind _ (List.mem_range.2 hx.1))
  | some y =>
    have hpresent := List.find?_some hfind
    have hy := honly y ⟨List.mem_range.1 (List.mem_of_find?_eq_some hfind), hpresent⟩
    rw [hy]
    exact (BitVec.ofNat_toNat 8 x).trans (BitVec.setWidth_eq x)

theorem exec_hdec_degenerate (hg : GridOk s n) (hf : FlagsSet codev s) (h1 : s.ncode = 1) :
    exec .hdec s = .next ((s.putPixels (List.replicate n s.soleSymbol)).finish 0 .pix) :=
  execHdec_degenerate hg hf h1

end

/-- Settles O48. -/
theorem hdecDegenerateFillsTheGrid : Obligations.HdecDegenerateFillsTheGrid := by
  intro s n x hg hf h1 hx honly
  have hexec := exec_hdec_degenerate hg hf h1
  rw [soleSymbol_eq hx honly] at hexec
  have hlen : (List.replicate n x).length = n := List.length_replicate
  refine ⟨_, hexec, rfl, rfl, ?_, fun j hj => pixAt_putPixels_of_le s (hlen.trans_le hj), rfl,
    (keepsAllBut_putPixels s _).finish _ _⟩
  exact (congrArg (s.putPixels _).image hlen.symm).trans (image_putPixels s _)

/-! ### The ends of the other decode -/

section

variable {s : State} {n : Nat} (hg : GridOk s n) (hf : FlagsSet (codev ||| strmv 0) s)
  (h1 : s.ncode ≠ 1)

include hg hf h1

/-- HDEC whose first checks pass: SLEN0, then BITCNT, then the scan (45_huffman_stream.md R163). -/
theorem exec_hdec_of_flags :
    exec .hdec s = conclude .pix s (streamFits 0 s >>= fun _ =>
      if s.bitcnt.toNat > 8 * s.slen[(0 : Fin 8)].toNat then .error ⟨.malformedArtifact, 0⟩
      else s.scanPixels n 0 0 >>= fun r => .ok ((s.putPixels r.1).finish (toWord r.2) .pix)) := by
  change execHdec s = _
  unfold execHdec
  rw [gridCheck_of_ok hg, except_ok_bind, requireFlags_of_set (flagsSet_of_submask hf (by decide)),
    except_ok_bind, if_neg h1, requireFlags_of_set (flagsSet_of_submask hf (by decide)),
    except_ok_bind]
  rfl

theorem exec_hdec_of_long_stream (hl : s.params.maxStrm < s.slen[(0 : Fin 8)].toNat) :
    exec .hdec s = .next (s.raise .capacityExceeded s.slen[(0 : Fin 8)] .pix) := by
  rw [exec_hdec_of_flags hg hf h1, streamFits_error s hl, except_error_bind, conclude_error]

variable (hl : s.slen[(0 : Fin 8)].toNat ≤ s.params.maxStrm)

include hl

theorem exec_hdec_of_long_bitcnt (hb : 8 * s.slen[(0 : Fin 8)].toNat < s.bitcnt.toNat) :
    exec .hdec s = .next (s.raise .malformedArtifact 0 .pix) := by
  rw [exec_hdec_of_flags hg hf h1, streamFits_of_le hl, except_ok_bind, if_pos hb, conclude_error]

variable (hb : s.bitcnt.toNat ≤ 8 * s.slen[(0 : Fin 8)].toNat)

include hb

theorem exec_hdec_of_scan {r : List Byte × Nat} (h : s.scanPixels n 0 0 = .ok r) :
    exec .hdec s = .next ((s.putPixels r.1).finish (toWord r.2) .pix) := by
  rw [exec_hdec_of_flags hg hf h1, streamFits_of_le hl, except_ok_bind, if_neg (Nat.not_lt.2 hb), h,
    except_ok_bind, conclude_ok]

theorem exec_hdec_of_scan_error {e : OpError} (h : s.scanPixels n 0 0 = .error e) :
    exec .hdec s = .next (s.raise e.kind e.info .pix) := by
  rw [exec_hdec_of_flags hg hf h1, streamFits_of_le hl, except_ok_bind, if_neg (Nat.not_lt.2 hb), h,
    except_error_bind, conclude_error]

end

/-! ### The scan of a stream from its start -/

section

variable {s : State} {n : Nat} {px : List Byte} (hc : CodeOk s)
  (hpx : ∀ v ∈ px, HasCode s v.toNat ∧ (s.codeAt v.toNat).len.toNat ≤ s.params.maxScan)
  (hin : (s.codesOf px).length ≤ s.bitcnt.toNat)
  (hbits : s.streamBits (s.codesOf px).length = s.codesOf px)

include hc hpx hin hbits

theorem CodeOk.scanPixels_of_stream (m : Nat) :
    s.scanPixels (px.length + m) 0 0 =
      (s.scanPixels m px.length (s.codesOf px).length >>= fun r => .ok (px ++ r.1, r.2)) := by
  have hscan := hc.scanPixels_of_codes hpx m 0 0 ((Nat.zero_add _).trans_le hin)
    (streamBits_eq_bitsFrom.symm.trans hbits)
  rwa [Nat.zero_add, Nat.zero_add] at hscan

theorem CodeOk.scanPixels_of_whole_stream :
    s.scanPixels px.length 0 0 = .ok (px, (s.codesOf px).length) := by
  refine (hc.scanPixels_of_stream hpx hin hbits 0).trans ?_
  rw [State.scanPixels, except_ok_bind, List.append_nil]

/-- A scan that comes to a position where no code matches ends there. -/
theorem CodeOk.scanPixels_of_noMatchAt (hlt : px.length < n)
    (hnone : NoMatchAt s (s.codesOf px).length) :
    s.scanPixels n 0 0 = .error
      (if s.bitcnt.toNat < (s.codesOf px).length + s.params.maxScan then
        ⟨.malformedArtifact, toWord px.length⟩
      else ⟨.unmatchedCode, toWord (s.codesOf px).length⟩) := by
  obtain ⟨m, rfl⟩ := Nat.exists_eq_add_of_lt hlt
  rw [Nat.add_assoc, hc.scanPixels_of_stream hpx hin hbits, State.scanPixels,
    scanCode_of_noMatchAt hnone hin, except_error_bind, except_error_bind]

end

/-- Settles O49. -/
theorem hdecScansTheCodes : Obligations.HdecScansTheCodes := by
  intro s n px _ hg hc hf h1 hl hb hlen hpx hin hbits
  subst hlen
  exact ⟨_, exec_hdec_of_scan hg hf h1 hl hb (hc.scanPixels_of_whole_stream hpx hin hbits), rfl,
    image_putPixels s px, toWord_toNat (hin.trans_lt (BitVec.isLt _)),
    fun j hj => pixAt_putPixels_of_le s hj, rfl, (keepsAllBut_putPixels s _).finish _ _⟩

/-- Settles O50. -/
theorem hdecReportsExhaustedAndUnmatched : Obligations.HdecReportsExhaustedAndUnmatched := by
  intro s n hP hg hc hf h1
  refine ⟨fun hl => ⟨_, exec_hdec_of_long_stream hg hf h1 hl, rfl, rfl⟩,
    fun hl hb => ⟨_, exec_hdec_of_long_bitcnt hg hf h1 hl hb, rfl, rfl⟩,
    fun hl hb px hlt hpx hin hbits hnone => ?_⟩
  have hscan := hc.scanPixels_of_noMatchAt hpx hin hbits hlt hnone
  refine ⟨fun hshort => ?_, fun hlong => ?_⟩
  · rw [if_pos hshort] at hscan
    exact ⟨_, exec_hdec_of_scan_error hg hf h1 hl hb hscan, rfl,
      toWord_toNat (hlt.trans (hg.lt_of_wf hP))⟩
  · rw [if_neg (Nat.not_lt.2 hlong)] at hscan
    exact ⟨_, exec_hdec_of_scan_error hg hf h1 hl hb hscan, rfl,
      toWord_toNat (hin.trans_lt (BitVec.isLt _))⟩

end Sys2Proof.Machine

/-! SUPPORT. HENC and then HDEC (45_huffman_stream.md R161, R163 to R165): what HDEC reads of what HENC
made, and how it ends. Settles O51 and O52. -/

namespace Sys2Proof.Machine

open Sys2Proof.Config

/-! ### The kinds of error that HDEC can end with -/

section

variable {s t : State}

theorem status_of_conclude {ks : List ErrKind} {d : Dest} {body : Except OpError State}
    (hf : FailsAs ks body) (hs : SucceedsWith (fun u => u.status = 0x00000002) body)
    (h : conclude d s body = .next t) :
    t.status = 0x00000002 ∨ ∃ k ∈ ks, t.status = statusError k := by
  obtain ⟨u, rfl, hu⟩ | ⟨k, info, rfl, hu⟩ := conclude_cases s d body
  · cases hu.symm.trans h
    exact .inl (hs _ rfl)
  · cases hu.symm.trans h
    exact .inr ⟨k, hf _ rfl, rfl⟩

/-- With a valid table of codes of at most MAXSCAN bits, every error of HDEC is of another kind than
UnmatchedCode (45_huffman_stream.md R165). -/
theorem CodeOk.status_exec_hdec (hc : CodeOk s)
    (hscan : ∀ x, HasCode s x → (s.codeAt x).len.toNat ≤ s.params.maxScan)
    (h : exec .hdec s = .next t) :
    t.status = 0x00000002 ∨
      ∃ k ∈ [.invalidDimensions, .capacityExceeded, .sourceInvalid, .malformedArtifact],
        t.status = statusError k := by
  refine status_of_conclude ?_ ?_ h
  · refine failsAs_bind (failsAs_mono (failsAs_gridCheck s) (by simp)) fun n =>
      failsAs_bind (failsAs_mono (failsAs_requireFlags _ s) (by simp)) fun _ => ?_
    split
    · exact failsAs_ok _ _
    · next hn =>
      refine failsAs_bind (failsAs_mono (failsAs_requireFlags _ s) (by simp)) fun _ =>
        failsAs_bind (failsAs_mono (failsAs_streamFits _ s) (by simp)) fun _ => ?_
      split
      · exact failsAs_error _ (by simp)
      · exact failsAs_bind (failsAs_mono (hc.failsAs_scanPixels hn hscan _ _ _) (by simp))
          fun _ => failsAs_ok _ _
  · refine succeedsWith_check fun n => succeedsWith_check fun _ => ?_
    split
    · exact succeedsWith_ok rfl
    · refine succeedsWith_check fun _ => succeedsWith_check fun _ => ?_
      split
      · exact succeedsWith_error _
      · exact succeedsWith_check fun _ => succeedsWith_ok rfl

end

/-! ### What a successful HENC has found -/

/-- Packing that succeeds has found a code for every pixel, and gives the codes. -/
theorem succeedsWith_packCodes_eq (code : Nat → CodeRec) (capacity : Nat) (px : List Byte)
    (i cnt : Nat) :
    SucceedsWith (fun bits => (∀ v ∈ px, (code v.toNat).present = true) ∧
      bits = px.flatMap fun v => codeBits (code v.toNat)) (packCodes code capacity px i cnt) := by
  fun_induction packCodes code capacity px i cnt
  case case1 => exact succeedsWith_ok ⟨fun _ h => absurd h List.not_mem_nil, rfl⟩
  case case2 => exact succeedsWith_error _
  case case3 => exact succeedsWith_error _
  case case4 hpresent _ ih =>
    refine succeedsWith_bind ih fun bits ⟨hall, hbits⟩ => succeedsWith_ok ⟨?_, ?_⟩
    · exact List.forall_mem_cons.2 ⟨Bool.eq_true_of_not_eq_false hpresent, hall⟩
    · rw [List.flatMap_cons, hbits]

section

variable {s t : State} {n : Nat}

/-- A successful HENC has found a code for every pixel, and room for them. -/
theorem coded_of_henc_success (hg : GridOk s n) (h : exec .henc s = .next t)
    (hst : t.status = 0x00000002) :
    FlagsSet (pixv ||| codev) s ∧ (∀ v ∈ s.image n, HasCode s v.toNat) ∧
      (s.codesOf (s.image n)).length ≤ 8 * s.params.maxStrm := by
  have hf : FlagsSet (pixv ||| codev) s := flagsSet_of_gridBody_success hg h hst
  have hexec := (execHenc_of_checks hg hf).symm.trans h
  cases hpack : packCodes s.codeAt (8 * s.params.maxStrm) (s.image n) 0 0 with
  | error e =>
    rw [hpack, except_error_bind, conclude_error] at hexec
    cases hexec
    exact absurd hst (statusError_ne_success _)
  | ok bits =>
    obtain ⟨hpresent, rfl⟩ := succeedsWith_packCodes_eq _ _ _ _ _ bits hpack
    have hfits := succeedsWith_packCodes _ _ _ (Nat.zero_le _) _ hpack
    exact ⟨hf, fun v hv => ⟨v.isLt, hpresent v hv⟩, (Nat.zero_add _).symm.trans_le hfits⟩

end

/-! ### What HDEC reads -/

section

variable {s t : State}

theorem codesOf_congr (h : t.code = s.code) (px : List Byte) : t.codesOf px = s.codesOf px := by
  unfold State.codesOf State.codeAt
  rw [h]

theorem codeAt_congr (h : t.code = s.code) (x : Nat) : t.codeAt x = s.codeAt x :=
  congrArg (fun m : Memory CodeRec => m.get codeElem x) h

theorem hasCode_congr (h : t.code = s.code) (x : Nat) : HasCode t x ↔ HasCode s x := by
  rw [HasCode, HasCode, codeAt_congr h]

/-- Where a stream begins with some bits, it begins with any first part of them. -/
theorem streamBits_of_prefix {bits bits' : List Bool} (hpre : bits <+: bits')
    (h : s.streamBits bits'.length = bits') : s.streamBits bits.length = bits := by
  have hlen : (s.streamBits bits.length).length = bits.length := by
    rw [State.streamBits, List.length_map, List.length_range]
  have hstream : s.streamBits bits.length <+: bits' :=
    h ▸ map_range_prefix s.streamBit hpre.length_le
  exact (List.prefix_of_prefix_length_le hstream hpre hlen.le).eq_of_length hlen

end

/-- State t holds, for HDEC, the codes of the image of s (45_huffman_stream.md R166). -/
structure HoldsImage (s t : State) (n : Nat) : Prop where
  params : t.params = s.params
  grid : GridOk t n
  code : t.code = s.code
  ncode : t.ncode = s.ncode
  coded : ∀ v ∈ s.image n, HasCode s v.toNat
  slen : t.slen[(0 : Fin 8)].toNat ≤ t.params.maxStrm
  bitcnt : t.bitcnt.toNat = (s.codesOf (s.image n)).length
  within : t.bitcnt.toNat ≤ 8 * t.slen[(0 : Fin 8)].toNat
  bits : t.streamBits (s.codesOf (s.image n)).length = s.codesOf (s.image n)

section

variable {s t t' : State} {n i : Nat}

theorem holdsImage_of_henc (hP : s.params.wf = true) (hg : GridOk s n)
    (h : exec .henc s = .next t) (hst : t.status = 0x00000002) (hsame : SameHuffman t t') :
    HoldsImage s t' n := by
  obtain ⟨hf, hcoded, hfits⟩ := coded_of_henc_success hg h hst
  obtain ⟨t₀, h₀, -, hcnt, hbits, hslen, -, -, -, -, hkeeps⟩ :=
    hencPacksTheCodes s n hP hg hf hcoded hfits
  cases h₀.symm.trans h
  obtain ⟨⟨hparams, hwidth, hheight, hstrm, hslen'⟩, hbitcnt, hcode, hncode⟩ := hsame
  have hparams : t'.params = s.params := hparams.trans (hkeeps .params (by simp))
  have hslen' : t'.slen[(0 : Fin 8)].toNat = (t.bitcnt.toNat + 7) / 8 := hslen' ▸ hslen
  refine ⟨hparams, ?_, hcode.trans (hkeeps .code (by simp)),
    hncode.trans (hkeeps .ncode (by simp)), hcoded, ?_, hbitcnt ▸ hcnt, ?_, ?_⟩
  · rw [GridOk, hparams, hwidth, hheight, show t.width = s.width from hkeeps .width (by simp),
      show t.height = s.height from hkeeps .height (by simp)]
    exact hg
  · rw [hslen', hparams]
    omega
  · rw [hslen', hbitcnt]
    omega
  · rw [streamBits_eq_bitsFrom, bitsFrom_congr hstrm, ← streamBits_eq_bitsFrom, ← hcnt, hbits]

variable (hold : HoldsImage s t n)

include hold

theorem HoldsImage.codeOk (hc : CodeOk s) : CodeOk t := hc.of_same hold.code hold.ncode

theorem HoldsImage.codesOf_image_le (hi : i ≤ n) :
    (t.codesOf (s.image i)).length ≤ t.bitcnt.toNat := by
  rw [hold.bitcnt, codesOf_congr hold.code]
  exact (codesOf_image_prefix s hi).length_le

theorem HoldsImage.streamBits_codesOf_image (hi : i ≤ n) :
    t.streamBits (t.codesOf (s.image i)).length = t.codesOf (s.image i) := by
  rw [codesOf_congr hold.code]
  exact streamBits_of_prefix (codesOf_image_prefix s hi) hold.bits

theorem HoldsImage.hasCode (hi : i < n) : HasCode t (s.pixAt i).toNat :=
  (hasCode_congr hold.code _).2 (hold.coded _ (List.mem_map_of_mem (List.mem_range.2 hi)))

/-- The first pixels have codes, none longer than MAXSCAN if those of s are not. -/
theorem HoldsImage.coded_image (hi : i ≤ n)
    (hscan : ∀ j, j < i → (s.codeAt (s.pixAt j).toNat).len.toNat ≤ s.params.maxScan) :
    ∀ v ∈ s.image i, HasCode t v.toNat ∧ (t.codeAt v.toNat).len.toNat ≤ t.params.maxScan := by
  intro v hv
  obtain ⟨j, hj, rfl⟩ := List.mem_map.1 hv
  have hj := List.mem_range.1 hj
  rw [codeAt_congr hold.code, hold.params]
  exact ⟨hold.hasCode (hj.trans_le hi), hscan j hj⟩

/-- After the codes of the first i pixels the stream holds that of pixel i. -/
theorem HoldsImage.codeStands (hi : i < n) :
    CodeStands t (t.codesOf (s.image i)).length (s.pixAt i).toNat := by
  have hbits := hold.streamBits_codesOf_image (show i + 1 ≤ n from hi)
  rw [codesOf_image_succ, List.length_append, length_codeBits, streamBits_eq_bitsFrom, bitsFrom_add,
    Nat.zero_add] at hbits
  exact ⟨hold.hasCode hi, (List.append_inj_right hbits length_bitsFrom).symm⟩

theorem HoldsImage.codesOf_image_add_le (hi : i < n) :
    (t.codesOf (s.image i)).length + (t.codeAt (s.pixAt i).toNat).len.toNat ≤ t.bitcnt.toNat := by
  have hle := hold.codesOf_image_le (show i + 1 ≤ n from hi)
  rwa [codesOf_image_succ, List.length_append, length_codeBits] at hle

/-- Where the code of pixel i is longer than MAXSCAN, no shorter one stands in its place. -/
theorem HoldsImage.noMatchAt (hc : CodeOk s) (hi : i < n)
    (hlong : t.params.maxScan < (t.codeAt (s.pixAt i).toNat).len.toNat) :
    NoMatchAt t (t.codesOf (s.image i)).length := by
  refine noMatchAt_iff.2 fun x hx hlen => ?_
  rw [(hold.codeOk hc).codeStands_unique hx (hold.codeStands hi)] at hlen
  omega

end

/-- Settles O51: under a valid table a code stands at every position, so no scan within MAXSCAN runs
out of candidates; and at most one does, so none is found in place of a longer one. -/
theorem hdecUnmatchedExactlyPastMaxscan : Obligations.HdecUnmatchedExactlyPastMaxscan := by
  refine ⟨fun s t hc hscan h hst => ?_,
    fun s t t' n i hP hg hc hn h hst hsame hf hi hbefore hlong => ?_⟩
  · have hother := hc.status_exec_hdec hscan h
    rw [hst] at hother
    revert hother
    decide
  · have hold := holdsImage_of_henc hP hg h hst hsame
    have hn' : t'.ncode ≠ 1 := by
      rw [hold.ncode]
      intro h1
      rw [h1] at hn
      exact absurd hn (by decide)
    have hlong' : t'.params.maxScan < (t'.codeAt (s.pixAt i).toNat).len.toNat := by
      rwa [hold.params, codeAt_congr hold.code]
    obtain ⟨-, -, hscan⟩ := hdecReportsExhaustedAndUnmatched t' n (hold.params ▸ hP) hold.grid
      (hold.codeOk hc) hf hn'
    obtain ⟨-, hunmatched⟩ := hscan hold.slen hold.within (s.image i)
      ((length_image s i).trans_lt hi) (hold.coded_image hi.le hbefore)
      (hold.codesOf_image_le hi.le) (hold.streamBits_codesOf_image hi.le)
      (hold.noMatchAt hc hi hlong')
    have hroom := hold.codesOf_image_add_le hi
    obtain ⟨u, hu, hust, hresult⟩ := hunmatched (by omega)
    exact ⟨u, hu, hust, hresult.trans (by rw [codesOf_congr hold.code])⟩

/-! ### The round trip -/

/-- With NCODE 1 only one intensity has a code (44_huffman_build.md R146 (a)). -/
theorem CodeOk.eq_of_hasCode {s : State} (hc : CodeOk s) (h1 : s.ncode = 1) {x y : Nat}
    (hx : HasCode s x) (hy : HasCode s y) : x = y := by
  obtain ⟨-, -, hcount⟩ := hc.size
  rw [h1, List.countP_eq_length_filter] at hcount
  obtain ⟨z, hz⟩ := List.length_eq_one_iff.1 hcount.symm
  have hmem : ∀ x, HasCode s x → x = z := fun x hx => List.mem_singleton.1
    (hz ▸ List.mem_filter.2 ⟨List.mem_range.2 hx.1, hx.2⟩)
  rw [hmem x hx, hmem y hy]

/-- Settles O52: with one code the image is of one intensity; with more, the stream is the codes of
the image. -/
theorem hencThenHdecRestoresTheImage : Obligations.HencThenHdecRestoresTheImage := by
  intro s t t' n hP hg hc hscan h hst hsame hf
  have hold := holdsImage_of_henc hP hg h hst hsame
  have hc' := hold.codeOk hc
  by_cases h1 : s.ncode = 1
  · have h1' : t'.ncode = 1 := hold.ncode.trans h1
    have hx := hold.hasCode hg.pos
    obtain ⟨u, hu, hust, hresult, himage, -⟩ := hdecDegenerateFillsTheGrid t' n (s.pixAt 0)
      hold.grid (flagsSet_of_submask hf (by decide)) h1' hx fun y hy => hc'.eq_of_hasCode h1' hy hx
    refine ⟨u, hu, hust, himage.trans ?_, hresult.trans (if_pos h1).symm⟩
    refine (List.eq_replicate_iff.2 ⟨length_image s n, fun v hv => ?_⟩).symm
    have hv := (hasCode_congr hold.code _).2 (hold.coded v hv)
    exact BitVec.eq_of_toNat_eq (hc'.eq_of_hasCode h1' hv hx)
  · obtain ⟨-, hbitcnt, -⟩ := hsame
    obtain ⟨u, hu, hust, himage, hresult, -⟩ := hdecScansTheCodes t' n (s.image n)
      (hold.params ▸ hP) hold.grid hc' hf (hold.ncode ▸ h1) hold.slen hold.within
      (length_image s n)
      (hold.coded_image le_rfl fun j hj => hscan _ (hold.coded _
        (List.mem_map_of_mem (List.mem_range.2 hj))))
      (hold.codesOf_image_le le_rfl) (hold.streamBits_codesOf_image le_rfl)
    refine ⟨u, hu, hust, himage, (if_neg h1).symm ▸ BitVec.eq_of_toNat_eq ?_⟩
    rw [hresult, codesOf_congr hold.code, ← hold.bitcnt, hbitcnt]

end Sys2Proof.Machine

/-! SUPPORT. The whole Huffman codec (45_huffman_stream.md R166): HFREQ, HBUILD and HGEN leave a valid
table for the image's own intensities, and its packed length is a sum over the counts.
Settles O53. -/

namespace Sys2Proof.Machine

open Sys2Proof.Config

/-! ### Sums over pixels -/

/-- A sum over the pixels, from their counts. -/
theorem sum_map_eq_sum_count (px : List Byte) (g : Byte → Nat) :
    (px.map g).sum = (allBytes.map fun v => px.count v * g v).sum := by
  rw [Finset.sum_list_map_count, ← List.sum_toFinset _ nodup_allBytes]
  refine Finset.sum_subset (fun v _ => List.mem_toFinset.2 (mem_allBytes v)) fun v _ hv => ?_
  rw [List.count_eq_zero_of_not_mem fun h => hv (List.mem_toFinset.2 h), zero_smul]

/-- The packed length of an image, from the counts of its intensities. -/
theorem length_codesOf_eq_sum (s : State) (px : List Byte) :
    (s.codesOf px).length =
      ((List.range 256).map fun x => px.count (BitVec.ofNat 8 x) * (s.codeAt x).len.toNat).sum := by
  rw [State.codesOf, List.length_flatMap, sum_map_eq_sum_count, allBytes, List.map_map]
  refine congrArg List.sum (List.map_congr_left fun x hx => ?_)
  simp only [Function.comp_apply, length_codeBits]
  rw [toNat_ofNat_of_lt (show x < 2 ^ 8 from List.mem_range.1 hx)]

/-! ### The table that the image's counts give -/

section

variable {s a b c : State} {n : Nat}

theorem exec_hfreq_success (hg : GridOk s n) (h : exec .hfreq s = .next a)
    (hst : a.status = 0x00000002) :
    a = (s.putCounts n).finish (toWord ((histogram (s.image n)).countP fun c => c ≠ 0)) .freq := by
  rw [exec_hfreq_of_ok hg (flagsSet_of_gridBody_success hg h hst)] at h
  cases h
  rfl

/-- What HENC and HDEC are to know of the state in which HFREQ, HBUILD and HGEN of s have ended. -/
structure TableOfImage (s c : State) (n : Nat) : Prop where
  params : c.params = s.params
  grid : GridOk c n
  image : c.image n = s.image n
  code : CodeOk c
  lengths : ∀ x, (c.codeAt x).len.toNat ≤ c.result.toNat
  counts : ∀ x, x < 256 → (c.freqAt x).toNat = (c.image n).count (BitVec.ofNat 8 x)

theorem tableOfImage_of_build (hP : s.params.wf = true) (hg : GridOk s n)
    (ha : exec .hfreq s = .next a) (hast : a.status = 0x00000002)
    (hb : exec .hbuild a = .next b) (hbst : b.status = 0x00000002)
    (hc : exec .hgen b = .next c) (hcst : c.status = 0x00000002) : TableOfImage s c n := by
  obtain rfl := exec_hfreq_success hg ha hast
  obtain ⟨hne, rfl⟩ := exec_hbuild_success hb hbst
  obtain rfl := exec_hgen_success hc hcst
  have htree := (treeOk_putTree hne).finish
    (toWord ((s.putCounts n).finish (toWord ((histogram (s.image n)).countP fun c => c ≠ 0))
      .freq).occurring.length) .node
  obtain ⟨hall, -, -, hle⟩ := htree.greatestLength_treeCodes
  refine ⟨rfl, hg, rfl, htree.codeOk_putCodes.of_same rfl rfl, fun x => ?_,
    fun x hx => toNat_freqAt_putCounts hP hg hx⟩
  exact (hall x).trans_eq (toWord_toNat (hle.trans_lt (by norm_num))).symm

end

/-- Settles O53: the table is valid and none of its codes is longer than HGEN's RESULT, so O52
applies; the length of the stream is the weighted sum that O45 bounds. -/
theorem huffmanRoundTripRestoresTheImage : Obligations.HuffmanRoundTripRestoresTheImage := by
  intro s a b c t t' n hP hg ha hast hb hbst hc hcst ht htst hsame hf hscan
  have htable := tableOfImage_of_build hP hg ha hast hb hbst hc hcst
  have hPc : c.params.wf = true := htable.params ▸ hP
  have hold := holdsImage_of_henc hPc htable.grid ht htst hsame
  obtain ⟨u, hu, hust, himage, hresult⟩ := hencThenHdecRestoresTheImage c t t' n hPc htable.grid
    htable.code (fun x _ => (htable.lengths x).trans (htable.params ▸ hscan)) ht htst hsame hf
  obtain ⟨-, hbitcnt, -, hncode⟩ := hsame
  refine ⟨u, hu, hust, himage.trans htable.image, ?_, ?_⟩
  · rw [← hncode, hold.ncode]
    exact hresult
  · obtain ⟨-, hbound⟩ := huffmanCodesAreOptimal s a b c n hP hg ha hast hb hbst hc hcst
    calc t.bitcnt.toNat = (c.codesOf (c.image n)).length := hbitcnt ▸ hold.bitcnt
      _ = ((List.range 256).map fun x => (c.freqAt x).toNat * (c.codeAt x).len.toNat).sum := by
        rw [length_codesOf_eq_sum]
        refine congrArg List.sum (List.map_congr_left fun x hx => ?_)
        rw [htable.counts x (List.mem_range.1 hx)]
      _ ≤ 8 * n := hbound

end Sys2Proof.Machine

/-! SUPPORT. The command port and the host's register writes (46_system.md R180, R181, R184): the
step of a legal command, the STATUS in which every command ends, the state SRST leaves, and the step
of a write to a register. Settles O4, O7, O15 and O22. -/

namespace Sys2Proof.Machine

open Sys2Proof.Config

/-! ### A write to CMD -/

/-- The step of a pending write to CMD (46_system.md R180). -/
theorem step_writeCmd {s : State} {v : HostWord} {rest : List HostMove}
    (h : s.script = .writeReg 0 v :: rest) :
    step s = onNext State.afterCommand (issue (s.hostWord v) { s with script := rest }) := by
  rw [step_of_script h, runMove, if_pos rfl, hostWord_setScript]

theorem issue_of_decode {w : Word} {i : Instr} (h : decode w = .ok i) (s : State) :
    issue w s = exec i s.begin := by
  rw [issue, h]

/-- Settles O4. -/
theorem stepRunsTheDecodedOperation : Obligations.StepRunsTheDecodedOperation := by
  intro s v rest i h hi
  rw [step_writeCmd h, issue_of_decode hi]
  rfl

/-! ### SRST -/

theorem exec_srst (s : State) : exec .srst s = .next (s.toReset.finish 0 .none) := rfl

section

variable (s : State)

/-- After SRST the host reads DONE alone in STATUS. -/
theorem readReg_status_toReset_finish : (s.toReset.finish 0 .none).readReg 1 = 0x00000002 := by
  have hread : statusSuccess &&& statusMask = 0x00000002 := by decide
  exact hread

/-- After SRST every register but STATUS reads its reset value. -/
theorem readReg_toReset_finish {k : Nat} (hk : k ≠ 1) :
    (s.toReset.finish 0 .none).readReg k = 0 := by
  simp [State.readReg, hk, Dest.flags]

/-- The buffers after SRST are those of the reset state. -/
theorem readBuf_toReset_finish (sp : Space) (i : Nat) :
    (s.toReset.finish 0 .none).readBuf sp i = zeroDatum sp :=
  readBuf_resetWith s.params i sp

end

/-- Settles O15. -/
theorem srstRestoresTheResetState : Obligations.SrstRestoresTheResetState :=
  ⟨rfl, fun s => ⟨_, exec_srst s, readReg_status_toReset_finish s, fun _ => readReg_toReset_finish s,
    readBuf_toReset_finish s, rfl, rfl, rfl, rfl, rfl⟩⟩

/-! ### STATUS after a command -/

/-- Every operation, SRST too, answers a next state, whose STATUS is that of a success or of an
error of one of its kinds (60_exceptions.md R202, R203). -/
theorem exec_status (i : Instr) (s : State) : ∃ t, exec i s = .next t ∧
    (t.status = statusSuccess ∨ ∃ k ∈ errorKinds i, t.status = statusError k) := by
  by_cases hi : i = .srst
  · subst hi
    exact ⟨_, exec_srst s, .inl rfl⟩
  · obtain ⟨k, hk, info, hx⟩ | ⟨t, r, hx, -⟩ := exec_cases i s hi
    · exact ⟨_, hx, .inr ⟨k, hk, rfl⟩⟩
    · exact ⟨_, hx, .inl rfl⟩

theorem statusDone_statusSuccess : statusDone statusSuccess = true := by decide

theorem statusDone_statusError (k : ErrKind) : statusDone (statusError k) = true := by
  cases k <;> decide

/-- A command ends with a legal STATUS, and DONE in it. -/
theorem statusLegal_and_done_of_end {w : Word} {ks : List ErrKind}
    (h : w = statusSuccess ∨ ∃ k ∈ ks, w = statusError k) :
    StatusLegal w ∧ statusDone w = true := by
  obtain rfl | ⟨k, -, rfl⟩ := h
  · exact ⟨statusLegal_statusSuccess, statusDone_statusSuccess⟩
  · exact ⟨statusLegal_statusError k, statusDone_statusError k⟩

/-- Settles O22: the words that STATUS can be at the end of an operation are legal ones with DONE. -/
theorem everyCommandEndsDone : Obligations.EveryCommandEndsDone := by
  intro i s
  obtain ⟨t, hx, hstatus⟩ := exec_status i s
  obtain ⟨⟨hbusy, herr, -⟩, hdone⟩ := statusLegal_and_done_of_end hstatus
  exact ⟨t, hx, hbusy, hdone, herr, hstatus⟩

/-! ### A write to another register -/

section

variable (s : State) (rest : List HostMove) (k : Nat) (w : Word)

theorem State.writeReg_script : (s.writeReg k w).script = s.script :=
  keepsAllBut_writeReg s k w .script (by simp)

theorem slen_writeReg (p : Fin 8) : (s.writeReg (16 + p.val) w).slen[p] = w := by
  rw [← readReg_slen]
  exact readReg_writeReg_same s w (by omega)

/-- VALID after a host write has no reserved bit, so it is read whole (10_state.md R34, R44). -/
theorem readReg_valid_writeReg : (s.writeReg 3 w).readReg 3 = (s.writeReg 3 w).valid :=
  readReg_valid (validLegal_validAfterHostWrite s.valid w)

/-- What the step of a register write can touch. -/
theorem keepsAllBut_setScript_writeReg :
    KeepsAllBut ([.valid, .width, .height, .arg, .vlen, .bitcnt, .script] ++
      (List.finRange 8).map .slen) s (State.writeReg k w { s with script := rest }) :=
  keepsAllBut_trans (keepsAllBut_mono (keepsAllBut_setScript s rest) (by simp))
    (keepsAllBut_mono (keepsAllBut_writeReg _ k w)
      (List.append_subset.2 ⟨by simp, List.subset_append_right _ _⟩))

end

/-- Settles O7, the register that the write reaches by its number. -/
theorem hostRegisterWriteStoresOrIsIgnored : Obligations.HostRegisterWriteStoresOrIsIgnored := by
  intro s k v rest h hk
  refine ⟨_, step_writeReg h hk, State.writeReg_script _ _ _, ?_, ?_, ?_, ?_, ?_, ?_,
    readReg_writeReg_same _ _, ?_, fun _ => readReg_writeReg_other { s with script := rest } _, ?_,
    keepsAllBut_setScript_writeReg s rest k _⟩
  iterate 5
    · rintro rfl
      rfl
  · rintro p rfl
    exact slen_writeReg _ _ p
  · rintro rfl
    exact ⟨rfl, readReg_valid_writeReg _ _⟩
  · intro hignored
    rw [writeReg_ignored _ _ hignored]
    exact keepsAllBut_setScript s rest

end Sys2Proof.Machine

/-! SUPPORT. How operations end (60_exceptions.md R202, R203): the two ends told apart by ERR, the
kinds of error that one STATUS word can stand for, and the frame of each end.
Settles O19 and O20. -/

namespace Sys2Proof.Machine

open Sys2Proof.Config

/-! ### STATUS words -/

theorem statusErr_statusError (k : ErrKind) : statusErr (statusError k) = true := by
  cases k <;> decide

theorem statusErr_statusSuccess : statusErr statusSuccess = false := by decide

/-- A STATUS word tells the kind of its error (60_exceptions.md R190). -/
theorem statusError_injective {k k' : ErrKind} (h : statusError k = statusError k') : k = k' := by
  revert h
  cases k <;> cases k' <;> decide

section

variable {i : Instr} {s t : State}

/-- An operation reports only errors of its own kinds. -/
theorem kind_mem_of_status {k : ErrKind} (h : exec i s = .next t) (hst : t.status = statusError k) :
    k ∈ errorKinds i := by
  obtain ⟨u, hu, hstatus⟩ := exec_status i s
  cases hu.symm.trans h
  obtain hsuccess | ⟨k', hk', hstatus⟩ := hstatus
  · exact absurd (hst.symm.trans hsuccess) (statusError_ne_success k)
  · rwa [statusError_injective (hst.symm.trans hstatus)]

/-- ERR = 1 says that the operation has raised one of its errors. -/
theorem exec_eq_raise_of_err (h : exec i s = .next t) (herr : statusErr t.status = true) :
    ∃ k ∈ errorKinds i, ∃ info, t = s.raise k info (destination i) := by
  have habsurd : ∀ {u r d}, exec i s = .next (State.finish r d u) → False := by
    intro u r d hx
    cases hx.symm.trans h
    exact Bool.false_ne_true (statusErr_statusSuccess.symm.trans herr)
  by_cases hi : i = .srst
  · subst hi
    exact (habsurd (exec_srst s)).elim
  · obtain ⟨k, hk, info, hx⟩ | ⟨u, r, hx, -⟩ := exec_cases i s hi
    · cases hx.symm.trans h
      exact ⟨k, hk, info, rfl⟩
    · exact (habsurd hx).elim

/-- ERR = 0 says that the operation has done its writes. -/
theorem exec_eq_finish_of_no_err (hi : i ≠ .srst) (h : exec i s = .next t)
    (herr : statusErr t.status = false) :
    ∃ u r, t = u.finish r (destination i) ∧
      KeepsAllBut ((destination i).fields ++ lengthFields i) s u := by
  obtain ⟨k, -, info, hx⟩ | ⟨u, r, hx, hkeep⟩ := exec_cases i s hi
  · cases hx.symm.trans h
    exact absurd (herr.symm.trans (statusErr_statusError k)) Bool.false_ne_true
  · cases hx.symm.trans h
    exact ⟨u, r, rfl, hkeep⟩

end

/-! ### The frames -/

theorem drawn_unspecify (s : State) (d : Dest) : d.Drawn s (s.unspecify d) := by
  cases d with
  | none => rfl
  | planes => exact ⟨fun p => (s.unspecify_plane .planes p).trans (if_pos rfl), rfl⟩
  | plane p => exact ⟨(s.unspecify_plane (.plane p) p).trans (by simp), rfl⟩
  | strm p => exact ⟨(s.unspecify_strm (.strm p) p).trans (if_pos rfl), rfl⟩
  | _ => exact ⟨rfl, rfl⟩

/-- `raise` leaves its destination unspecified (60_exceptions.md R202). -/
theorem drawn_raise (s : State) (k : ErrKind) (info : Word) (d : Dest) :
    d.Drawn s (s.raise k info d) := by
  have h := drawn_unspecify s d
  cases d with
  | _ => exact h

/-- Settles O19, by what `raise` does. -/
theorem errorTouchesOnlyTheDestination : Obligations.ErrorTouchesOnlyTheDestination := by
  intro i s t h herr
  obtain ⟨k, hk, info, rfl⟩ := exec_eq_raise_of_err h herr
  exact ⟨⟨k, hk, rfl⟩, State.raise_valid s k info _, drawn_raise s k info _,
    keepsAllBut_raise s k info _⟩

/-- Settles O20, by what `done` does. -/
theorem successTouchesOnlyItsDestination : Obligations.SuccessTouchesOnlyItsDestination := by
  intro i s t hi h herr
  obtain ⟨u, r, rfl, hkeep⟩ := exec_eq_finish_of_no_err hi h herr
  have hvalid : u.valid = s.valid := hkeep .valid (valid_notMem_written i)
  refine ⟨rfl, ?_, ?_⟩
  · rw [State.finish_valid, hvalid]
  · rw [List.append_assoc]
    exact hkeep.finish r _

end Sys2Proof.Machine

/-! SUPPORT. The checks that stand at the head of an operation (60_exceptions.md R197, R200): what
each operation ends with when one of them fails. Settles O17 and O18. -/

namespace Sys2Proof.Machine

open Sys2Proof.Config

section

variable {i : Instr} {s : State}

/-! ### The shape of the operations -/

/-- A grid operation checks the dimensions, then its source flags. -/
theorem exec_of_usesGrid (h : usesGrid i = true) (s : State) :
    ∃ rest : Nat → Except OpError State, exec i s = conclude (destination i) s
      (do let n ← gridCheck s; requireFlags (sourceFlags i) s; rest n) := by
  cases i with
  | venc | vdec | hbuild | hgen | srst => exact absurd h Bool.false_ne_true
  | _ => exact ⟨_, rfl⟩

/-- An operation that requires flags and calls no GridCheck begins with its source flags. -/
theorem exec_of_not_usesGrid (h : usesGrid i = false) (hflags : sourceFlags i ≠ 0) (s : State) :
    ∃ rest : Except OpError State, exec i s = conclude (destination i) s
      (do requireFlags (sourceFlags i) s; rest) := by
  cases i with
  | vdec | hbuild | hgen => exact ⟨_, rfl⟩
  | venc | srst => exact absurd rfl hflags
  | _ => exact absurd h.symm Bool.false_ne_true

theorem exec_of_gridCheck_error {e : OpError} (h : usesGrid i = true)
    (he : gridCheck s = .error e) :
    exec i s = .next (s.raise e.kind e.info (destination i)) := by
  obtain ⟨rest, hx⟩ := exec_of_usesGrid h s
  rw [hx, he, except_error_bind, conclude_error]

/-- A missing source flag is reported once the dimension check, if there is one, has passed. -/
theorem exec_of_missing_flags (hg : usesGrid i = true → ∃ n, GridOk s n)
    (hmissing : sourceFlags i &&& ~~~ s.valid ≠ 0) :
    exec i s = .next (s.raise .sourceInvalid (sourceFlags i &&& ~~~ s.valid) (destination i)) := by
  have hf : ¬ FlagsSet (sourceFlags i) s := fun hf =>
    hmissing ((missingFlags_eq_zero_iff s _).2 hf)
  by_cases h : usesGrid i = true
  · obtain ⟨n, hn⟩ := hg h
    obtain ⟨rest, hx⟩ := exec_of_usesGrid h s
    rw [hx, gridCheck_of_ok hn, except_ok_bind, requireFlags_error s hf, except_error_bind,
      conclude_error]
  · have hflags : sourceFlags i ≠ 0 := fun h0 => hmissing (by rw [h0]; exact BitVec.zero_and)
    obtain ⟨rest, hx⟩ := exec_of_not_usesGrid (Bool.eq_false_of_not_eq_true h) hflags s
    rw [hx, requireFlags_error s hf, except_error_bind, conclude_error]

/-- HDEC's second source check (60_exceptions.md R197). -/
theorem exec_hdec_of_missing_stream {n : Nat} (hg : GridOk s n) (hc : FlagsSet codev s)
    (h1 : s.ncode ≠ 1) (hs : ¬ FlagsSet (strmv 0) s) :
    exec .hdec s = .next (s.raise .sourceInvalid (strmv 0) .pix) := by
  have hmissing : strmv 0 &&& ~~~ s.valid = strmv 0 :=
    missingFlags_of_single_flag (b := 16) (by decide) hs
  change execHdec s = _
  unfold execHdec
  rw [gridCheck_of_ok hg, except_ok_bind, requireFlags_of_set hc, except_ok_bind, if_neg h1,
    requireFlags_error s hs, hmissing, except_error_bind, conclude_error]

end

/-! ### The information words of GridCheck -/

theorem toNat_dimensionErrors (s : State) :
    (dimensionErrors s).toNat =
      (if s.width.toInt ≤ 0 then 1 else 0) + (if s.height.toInt ≤ 0 then 2 else 0) := by
  unfold dimensionErrors
  split <;> split <;> rfl

theorem toNat_toWord_min_pixelCount {s : State} (hw : 0 < s.width.toInt) (hh : 0 < s.height.toInt) :
    ((toWord (min (pixelCount s) (2 ^ 32 - 1))).toNat : Int) =
      min (s.width.toInt * s.height.toInt) (2 ^ 32 - 1) := by
  have hpos := Int.mul_pos hw hh
  rw [toWord_toNat (by omega)]
  unfold pixelCount
  omega

/-- Settles O17, by the three ends of GridCheck. -/
theorem gridOperationsCheckDimensionsFirst : Obligations.GridOperationsCheckDimensionsFirst := by
  intro i s h
  obtain ⟨n, ⟨hw, hh, hn, hfits⟩, -⟩ | ⟨hdim, he⟩ | ⟨hlarge, hw, hh, he⟩ := gridCheck_cases s
  · exact ⟨fun hdim => by omega, fun _ _ hlarge => by omega⟩
  · exact ⟨fun _ => ⟨_, exec_of_gridCheck_error h he, rfl, toNat_dimensionErrors s⟩,
      fun _ _ _ => by omega⟩
  · exact ⟨fun hdim => by omega,
      fun _ _ _ => ⟨_, exec_of_gridCheck_error h he, rfl, toNat_toWord_min_pixelCount hw hh⟩⟩

/-- Settles O18: the first source check of every operation, HDEC's second, and the kinds of error
that VENC and SRST have. -/
theorem missingSourceFlagsAreReported : Obligations.MissingSourceFlagsAreReported := by
  refine ⟨fun i s hg hmissing => ⟨_, exec_of_missing_flags hg hmissing, rfl, rfl⟩,
    fun s n hg hc h1 hs => ⟨_, exec_hdec_of_missing_stream hg hc h1 hs, rfl, rfl⟩,
    fun s t h hst => ?_⟩
  obtain h | h := h
  · exact absurd (kind_mem_of_status (k := .sourceInvalid) h hst) (by decide)
  · exact absurd (kind_mem_of_status (k := .sourceInvalid) h hst) (by decide)

end Sys2Proof.Machine

/-! SUPPORT. Streams that the two run-length decoders cannot replay (60_exceptions.md R192, R196):
the replay of the items before the fault, and then the fault. Settles O34 and O38. -/

namespace Sys2Proof.Machine

open Sys2Proof.Config

/-- With legal parameters a number of pixels that fits the grid fits RESULT (00_scope.md R6). -/
theorem GridOk.toNat_toWord_of_lt {s : State} {n i : Nat} (hP : s.params.wf = true)
    (h : GridOk s n) (hi : i < n) : (toWord i).toNat = i :=
  toWord_toNat (hi.trans (h.lt_of_wf hP))

/-! ### RGDEC -/

section

variable {n : Nat} {tail : List Byte}

/-- Where pixel i is missing, a rest of fewer than two bytes, or one whose item passes the end of
the grid, is an error. -/
theorem grayReplay_of_stuck {i pos : Nat} (hi : i < n)
    (htail : tail.length < 2 ∨ ∃ len val rest, tail = len :: val :: rest ∧ n < i + len.toNat) :
    grayReplay n tail i pos = .error ⟨.malformedArtifact, toWord i⟩ := by
  obtain hshort | ⟨len, val, rest, rfl, hover⟩ := htail
  · match tail with
    | [] | [_] => simp [grayReplay, hi]
    | _ :: _ :: _ => simp at hshort
  · rw [grayReplay, if_neg (by omega), if_pos hover]

/-- The error comes after the items before it, with the pixels they cover. -/
theorem grayReplay_of_malformed {its : List (Byte × Byte)}
    (hroom : itemsTotal (its.map Prod.fst) < n)
    (htail : tail.length < 2 ∨ ∃ len val rest, tail = len :: val :: rest ∧
      n < itemsTotal (its.map Prod.fst) + len.toNat) :
    grayReplay n ((its.flatMap fun it => [it.1, it.2]) ++ tail) 0 0 =
      .error ⟨.malformedArtifact, toWord (itemsTotal (its.map Prod.fst))⟩ := by
  rw [grayReplay_items n its tail 0 0 (by omega), Nat.zero_add, grayReplay_of_stuck hroom htail,
    except_error_bind]

variable {s : State}

theorem exec_rgdec_of_long_stream (hg : GridOk s n) (hf : FlagsSet (strmv 0) s)
    (hl : s.params.maxStrm < s.slen[(0 : Fin 8)].toNat) :
    exec .rgdec s = .next (s.raise .capacityExceeded s.slen[(0 : Fin 8)] .pix) := by
  change execRgdec s = _
  unfold execRgdec
  rw [gridCheck_of_ok hg, except_ok_bind, requireFlags_of_set hf, except_ok_bind,
    streamFits_error s hl, except_error_bind, conclude_error]

theorem exec_rgdec_of_replay_error {e : OpError} (hg : GridOk s n) (hf : FlagsSet (strmv 0) s)
    (hl : s.slen[(0 : Fin 8)].toNat ≤ s.params.maxStrm)
    (h : grayReplay n (s.stream 0 s.slen[(0 : Fin 8)].toNat) 0 0 = .error e) :
    exec .rgdec s = .next (s.raise e.kind e.info .pix) := by
  refine (execRgdec_of_checks hg hf hl).trans ?_
  rw [h, except_error_bind, conclude_error]

end

/-- Settles O34. -/
theorem rgdecReportsMalformedStreams : Obligations.RgdecReportsMalformedStreams := by
  refine fun s n hP hg hf => ⟨fun hl => ⟨_, exec_rgdec_of_long_stream hg hf hl, rfl, rfl⟩,
    fun hl its tail hstream hroom htail => ?_⟩
  have hreplay :=
    (congrArg (grayReplay n · 0 0) hstream).trans (grayReplay_of_malformed hroom htail)
  exact ⟨_, exec_rgdec_of_replay_error hg hf hl hreplay, rfl, hg.toNat_toWord_of_lt hP hroom, rfl⟩

/-! ### BPDEC -/

section

variable {n : Nat} {tail : List Byte}

/-- Where pixel i is missing, no byte, or a run that passes the end of the plane, is an error. -/
theorem planeReplay_of_stuck {i pos : Nat} {c : Bool} (hi : i < n)
    (htail : tail = [] ∨ ∃ len rest, tail = len :: rest ∧ n < i + len.toNat) :
    planeReplay n tail i pos c = .error ⟨.malformedArtifact, toWord i⟩ := by
  obtain rfl | ⟨len, rest, rfl, hover⟩ := htail
  · rw [planeReplay, if_neg (by omega)]
  · rw [planeReplay, if_neg (by omega), if_pos hover]

/-- The error comes after the run lengths before it, with the pixels they cover. -/
theorem planeReplay_of_malformed {its : List Byte} (hroom : itemsTotal its < n)
    (htail : tail = [] ∨ ∃ len rest, tail = len :: rest ∧ n < itemsTotal its + len.toNat) :
    planeReplay n (its ++ tail) 0 0 true =
      .error ⟨.malformedArtifact, toWord (itemsTotal its)⟩ := by
  rw [planeReplay_items n its tail 0 0 true (by omega), Nat.zero_add,
    planeReplay_of_stuck hroom htail, except_error_bind]

variable {s : State} {p : Fin 8}

theorem exec_bpdec_of_long_stream (hg : GridOk s n) (hf : FlagsSet (strmv p) s)
    (hl : s.params.maxStrm < s.slen[p].toNat) :
    exec (.bpdec p) s = .next (s.raise .capacityExceeded s.slen[p] (.plane p)) := by
  change execBpdec p s = _
  unfold execBpdec
  rw [gridCheck_of_ok hg, except_ok_bind, requireFlags_of_set hf, except_ok_bind,
    streamFits_error s hl, except_error_bind, conclude_error]

theorem exec_bpdec_of_replay_error {e : OpError} (hg : GridOk s n) (hf : FlagsSet (strmv p) s)
    (hl : s.slen[p].toNat ≤ s.params.maxStrm)
    (h : planeReplay n (s.stream p s.slen[p].toNat) 0 0 true = .error e) :
    exec (.bpdec p) s = .next (s.raise e.kind e.info (.plane p)) := by
  refine (execBpdec_of_checks hg hf hl).trans ?_
  rw [h, except_error_bind, conclude_error]

end

/-- Settles O38. -/
theorem bpdecReportsMalformedStreams : Obligations.BpdecReportsMalformedStreams := by
  refine fun s n p hP hg hf => ⟨fun hl => ⟨_, exec_bpdec_of_long_stream hg hf hl, rfl, rfl⟩,
    fun hl its tail hstream hroom htail => ?_⟩
  have hreplay :=
    (congrArg (planeReplay n · 0 0 true) hstream).trans (planeReplay_of_malformed hroom htail)
  exact ⟨_, exec_bpdec_of_replay_error hg hf hl hreplay, rfl, hg.toNat_toWord_of_lt hP hroom, rfl⟩

end Sys2Proof.Machine

/-! SUPPORT. The two errors that one operation alone reports: HBUILD's EmptyImage (60_exceptions.md
R194) and HENC's NoCode (R199). Settles O42 and O47. -/

namespace Sys2Proof.Machine

open Sys2Proof.Config

/-! ### HBUILD -/

theorem emptyImage_mem_errorKinds {i : Instr} (h : .emptyImage ∈ errorKinds i) : i = .hbuild := by
  cases i with
  | hbuild => rfl
  | _ => exact absurd h (by simp [errorKinds])

section

variable {s t : State}

theorem occurring_eq_nil_iff : s.occurring = [] ↔ ∀ x, x < 256 → s.freqAt x = 0 := by
  simp [List.eq_nil_iff_forall_not_mem, mem_occurring]

theorem exec_hbuild_of_empty (hf : FlagsSet freqv s) (h : s.occurring = []) :
    exec .hbuild s = .next (s.raise .emptyImage 0 .node) := by
  change execHbuild s = _
  unfold execHbuild
  rw [requireFlags_of_set hf, except_ok_bind, if_pos (by rw [h]; rfl), conclude_error]

theorem exec_hbuild_of_missing_flag (hf : ¬ FlagsSet freqv s) :
    exec .hbuild s = .next (s.raise .sourceInvalid (freqv &&& ~~~ s.valid) .node) :=
  exec_of_missing_flags (i := .hbuild) (fun h => absurd h Bool.false_ne_true)
    fun hmissing => hf ((missingFlags_eq_zero_iff s freqv).1 hmissing)

/-- EmptyImage is what HBUILD reports of counts that are all 0, and of no others. -/
theorem occurring_eq_nil_of_emptyImage (h : exec .hbuild s = .next t)
    (hst : t.status = statusError .emptyImage) : s.occurring = [] := by
  by_contra hcount
  by_cases hf : FlagsSet freqv s
  · cases (exec_hbuild_of_ok hf hcount).symm.trans h
    exact statusError_ne_success _ hst.symm
  · cases (exec_hbuild_of_missing_flag hf).symm.trans h
    exact absurd (statusError_injective hst) (by decide)

end

/-- Settles O42. -/
theorem hbuildRejectsAnEmptyTable : Obligations.HbuildRejectsAnEmptyTable := by
  refine ⟨fun s hf hzero => ?_, fun i s t h hst => ?_⟩
  · exact ⟨_, exec_hbuild_of_empty hf (occurring_eq_nil_iff.2 hzero), rfl, rfl, rfl, rfl, rfl⟩
  · obtain rfl := emptyImage_mem_errorKinds (kind_mem_of_status h hst)
    exact ⟨rfl, occurring_eq_nil_iff.1 (occurring_eq_nil_of_emptyImage h hst)⟩

/-! ### HENC -/

theorem noCode_mem_errorKinds {i : Instr} (h : .noCode ∈ errorKinds i) : i = .henc := by
  cases i with
  | henc => rfl
  | _ => exact absurd h (by simp [errorKinds])

/-- Pixels that have codes and fit are packed, and the packing goes on after them. -/
theorem packCodes_append (code : Nat → CodeRec) (capacity : Nat) (px tail : List Byte) (i cnt : Nat)
    (hp : ∀ v ∈ px, (code v.toNat).present = true)
    (hc : cnt + (px.flatMap fun v => codeBits (code v.toNat)).length ≤ capacity) :
    packCodes code capacity (px ++ tail) i cnt =
      (packCodes code capacity tail (i + px.length)
          (cnt + (px.flatMap fun v => codeBits (code v.toNat)).length) >>= fun bits =>
        .ok ((px.flatMap fun v => codeBits (code v.toNat)) ++ bits)) := by
  induction px generalizing i cnt with
  | nil =>
    change packCodes code capacity tail i cnt = (packCodes code capacity tail i cnt >>= .ok)
    cases packCodes code capacity tail i cnt <;> rfl
  | cons v vs ih =>
    obtain ⟨hv, hvs⟩ := List.forall_mem_cons.1 hp
    simp only [List.flatMap_cons, List.length_append, length_codeBits, ← Nat.add_assoc] at hc ⊢
    rw [List.cons_append, packCodes, if_neg (by simp [hv]), if_neg (by omega), ih _ _ hvs hc,
      List.length_cons, Nat.add_right_comm i 1, Nat.add_assoc i]
    cases packCodes code capacity tail (i + (vs.length + 1)) _ <;> simp

section

variable {s : State} {n i : Nat}

theorem image_eq_append (hi : i < n) : ∃ rest, s.image n = s.image i ++ s.pixAt i :: rest := by
  obtain ⟨rest, hrest⟩ := map_range_prefix s.pixAt (Nat.succ_le_of_lt hi)
  refine ⟨rest, hrest.symm.trans ?_⟩
  change s.image (i + 1) ++ rest = _
  rw [image_succ, List.append_assoc, List.singleton_append]

/-- After i pixels whose codes fit, HENC ends with the error that pixel i gives. -/
theorem exec_henc_of_bad_pixel {e : OpError} (hg : GridOk s n)
    (hf : FlagsSet (pixv ||| codev) s) (hi : i < n)
    (hcodes : ∀ v ∈ s.image i, HasCode s v.toNat)
    (hfits : (s.codesOf (s.image i)).length ≤ 8 * s.params.maxStrm)
    (hbad : ∀ rest, packCodes s.codeAt (8 * s.params.maxStrm) (s.pixAt i :: rest) i
      (s.codesOf (s.image i)).length = .error e) :
    exec .henc s = .next (s.raise e.kind e.info (.strm 0)) := by
  obtain ⟨rest, himage⟩ := image_eq_append (s := s) hi
  have hpack : packCodes s.codeAt (8 * s.params.maxStrm) (s.image n) 0 0 = .error e := by
    rw [himage, packCodes_append _ _ _ _ _ _ (fun v hv => (hcodes v hv).2)
      ((Nat.zero_add _).trans_le hfits), Nat.zero_add, Nat.zero_add, length_image]
    exact congrArg (· >>= _) (hbad rest)
  refine (execHenc_of_checks hg hf).trans ?_
  rw [hpack, except_error_bind, conclude_error]

theorem hasCode_iff_present (v : Byte) :
    HasCode s v.toNat ↔ (s.codeAt v.toNat).present = true :=
  and_iff_right v.isLt

end

/-- Settles O47: the pixels before the bad one are packed, and of it NoCode is tested before the
capacity. -/
theorem hencReportsTheFirstBadPixel : Obligations.HencReportsTheFirstBadPixel := by
  refine ⟨fun i s t h hst => noCode_mem_errorKinds (kind_mem_of_status h hst),
    fun s n i hP hg hf hi hcodes hfits => ⟨fun hnone => ?_, fun hcode hfull => ?_⟩⟩
  · rw [hasCode_iff_present, Bool.not_eq_true] at hnone
    have hbad := exec_henc_of_bad_pixel hg hf hi hcodes hfits fun rest => by
      rw [packCodes, if_pos hnone]
    exact ⟨_, hbad, rfl, hg.toNat_toWord_of_lt hP hi, rfl, rfl⟩
  · rw [hasCode_iff_present] at hcode
    rw [codesOf_image_succ, List.length_append, length_codeBits] at hfull
    have hbad := exec_henc_of_bad_pixel hg hf hi hcodes hfits fun rest => by
      rw [packCodes, if_neg (by simp [hcode]), if_pos hfull]
    exact ⟨_, hbad, rfl, hg.toNat_toWord_of_lt hP hi, rfl, rfl⟩

end Sys2Proof.Machine

/-! SUPPORT. How far a success writes into its destination (70_reset_and_hazards.md R229,
10_state.md R46): each operation's count, and the elements from there on. Settles O21. -/

namespace Sys2Proof.Machine

open Sys2Proof.Config

/-- What an operation's end without ERR is known to give. -/
theorem property_of_success {P : State → Prop} {s t : State} {d : Dest}
    {body : Except OpError State} (hb : SucceedsWith P body) (h : conclude d s body = .next t)
    (herr : statusErr t.status = false) : P t := by
  obtain ⟨u, hu, hc⟩ | ⟨k, info, -, hc⟩ := conclude_cases s d body
  · cases hc.symm.trans h
    exact hb _ hu
  · cases hc.symm.trans h
    exact absurd (herr.symm.trans (statusErr_statusError k)) Bool.false_ne_true

section

variable {s : State} {i : Instr}

/-- The elements from the operation's count on are as they were. -/
abbrev KeepsPast (i : Instr) (s t : State) : Prop :=
  (destination i).SameFrom (writtenCount s t i) s t

/-- The body of a grid operation, given N. -/
theorem succeedsWith_keepsPast_grid {m : Word} {rest : Nat → Except OpError State}
    (hr : ∀ n, GridOk s n → SucceedsWith (KeepsPast i s) (rest n)) :
    SucceedsWith (KeepsPast i s) (do let n ← gridCheck s; requireFlags m s; rest n) :=
  succeedsWith_bind (fun n hn => (gridCheck_ok_iff s n).1 hn) fun n hn =>
    succeedsWith_check fun _ => hr n hn

/-- N pixels written to PIX. -/
theorem pixAt_putPixels_past {n j : Nat} {vs : List Byte} (hg : GridOk s n) (hl : vs.length = n)
    (hj : pixelCount s ≤ j) : (s.putPixels vs).pixAt j = s.pixAt j :=
  pixAt_putPixels_of_le s (hl.trans_le (hg.pixelCount.symm.trans_le hj))

/-- A stream, whose length register counts its bytes. -/
theorem strmAt_putStream_past {p : Fin 8} {j : Nat} {vs : List Byte} (hl : vs.length < 2 ^ 32)
    (hj : (s.putStream p vs).slen[p].toNat ≤ j) : (s.putStream p vs).strmAt p j = s.strmAt p j :=
  strmAt_putStream_of_le s p ((toNat_slen_putStream s p hl).symm.trans_le hj)

theorem nodeAt_putTree_past {j : Nat} (h : s.occurring ≠ [])
    (hj : 2 * s.putTree.nsym.toNat - 1 ≤ j) : s.putTree.nodeAt j = s.nodeAt j := by
  have hlen := length_huffmanNodes h
  rw [toNat_nsym_putTree] at hj
  rw [nodeAt_putTree, List.getElem?_eq_none (by omega), Option.getD_none]

theorem succeedsWith_henc_keepsPast {n : Nat} (hP : s.params.wf = true) :
    SucceedsWith (KeepsPast .henc s)
      (packCodes s.codeAt (8 * s.params.maxStrm) (s.pixels n) 0 0 >>= fun bits =>
        .ok ((s.putPacked bits).finish (toWord bits.length) (.strm 0))) := by
  refine succeedsWith_bind (succeedsWith_packCodes _ _ _ (Nat.zero_le _)) fun bits hbits =>
    succeedsWith_ok fun j hj => ?_
  have hlt := lt_of_le_capacity hP ((Nat.zero_add _).symm.trans_le hbits)
  exact strmAt_putPacked_of_le s ((toNat_slen_putPacked s hlt).symm.trans_le hj)

/-- A success of any operation but SRST leaves the elements past its count alone. -/
theorem keepsPast_of_success {t : State} (hP : s.params.wf = true) (hi : i ≠ .srst)
    (h : exec i s = .next t) (herr : statusErr t.status = false) : KeepsPast i s t := by
  have of_body : ∀ {d body}, SucceedsWith (KeepsPast i s) body → conclude d s body = .next t →
      KeepsPast i s t := fun hb hc => property_of_success hb hc herr
  cases i with
  | srst => exact absurd rfl hi
  | vdec => exact trivial
  | hfreq | hgen => exact fun j hj hlt => absurd hj (Nat.not_le.2 hlt)
  | venc =>
    refine of_body ?_ h
    split
    · exact succeedsWith_error _
    · refine succeedsWith_ok fun j hj => vbAt_putVarint_of_le s _ ?_
      exact (toNat_toWord_varintLength s.arg).symm.trans_le hj
  | bpx =>
    refine of_body (succeedsWith_keepsPast_grid fun n hg => succeedsWith_ok fun p j hj => ?_) h
    rw [pixels_eq_image]
    exact (planeAt_putImagePlanes s n p j).trans (if_neg (Nat.not_lt.2 (hg.pixelCount ▸ hj)))
  | bpc =>
    refine of_body (succeedsWith_keepsPast_grid fun n hg => succeedsWith_ok fun j hj => ?_) h
    exact pixAt_putPixels_past hg (by simp) hj
  | bpenc p =>
    refine of_body (succeedsWith_keepsPast_grid fun n hg => succeedsWith_ok fun j hj => ?_) h
    rw [planeBits_eq_planeImage] at hj ⊢
    exact strmAt_putStream_past (length_planeStream_planeImage_lt hP hg) hj
  | bpdec p =>
    refine of_body (succeedsWith_keepsPast_grid fun n hg => succeedsWith_check fun _ =>
      succeedsWith_bind (succeedsWith_planeReplay _ _ _ _ _) fun r hr =>
        succeedsWith_ok fun j hj => ?_) h
    exact planeAt_putPlane_of_le s p (hr.trans_le (hg.pixelCount ▸ hj))
  | rgenc =>
    refine of_body (succeedsWith_keepsPast_grid fun n hg => succeedsWith_ok fun j hj => ?_) h
    rw [pixels_eq_image] at hj ⊢
    exact strmAt_putStream_past (length_grayStream_image_lt hP hg) hj
  | rgdec =>
    refine of_body (succeedsWith_keepsPast_grid fun n hg => succeedsWith_check fun _ =>
      succeedsWith_bind (succeedsWith_grayReplay _ _ _ _) fun r hr =>
        succeedsWith_ok fun j hj => ?_) h
    exact pixAt_putPixels_past hg hr hj
  | hbuild =>
    obtain ⟨-, hcount, rfl⟩ | ⟨k, info, rfl⟩ := exec_hbuild_cases h
    · exact fun j hj => nodeAt_putTree_past hcount hj
    · exact absurd (herr.symm.trans (statusErr_statusError k)) Bool.false_ne_true
  | henc => exact of_body (succeedsWith_keepsPast_grid fun n _ => succeedsWith_henc_keepsPast hP) h
  | hdec =>
    refine of_body (succeedsWith_keepsPast_grid fun n hg => ?_) h
    split
    · exact succeedsWith_ok fun j hj => pixAt_putPixels_past hg List.length_replicate hj
    · refine succeedsWith_check fun _ => succeedsWith_check fun _ => ?_
      split
      · exact succeedsWith_error _
      · exact succeedsWith_bind (succeedsWith_scanPixels s _ _ _) fun r hr =>
          succeedsWith_ok fun j hj => pixAt_putPixels_past hg hr hj

end

/-- Settles O21. -/
theorem elementsPastTheWrittenRangeStay : Obligations.ElementsPastTheWrittenRangeStay :=
  fun _ _ _ hP hi h herr => keepsPast_of_success hP hi h herr

end Sys2Proof.Machine

/-! SUPPORT. What commands leave of the parameters and of the host's own fields
(70_reset_and_hazards.md R222; notes/assumptions/3.md), for SRST too; an illegal word, stop-on-error
and the reset state.
Settles O3, O5, O6, O12, O14, O16 and O58. -/

namespace Sys2Proof.Machine

open Sys2Proof.Config

/-! ### The parameters and the host's fields -/

/-- The parameters, the pending moves and stop-on-error: what every command leaves alone. -/
def hostFields : List Field := [.params, .script, .stopOnError]

theorem hostFields_notMem_written (i : Instr) :
    ∀ f ∈ hostFields, f ∉ [.status, .result, .valid] ++ ((destination i).fields ++ lengthFields i) ∧
      f ∉ [.status, .result, .valid] ++ .draws :: (destination i).fields := by
  cases i <;> simp [hostFields, destination, Dest.fields, lengthFields]

section

variable {s t : State}

/-- Every command, SRST too, leaves them alone. -/
theorem exec_same_hostFields {i : Instr} (h : exec i s = .next t) {f : Field}
    (hf : f ∈ hostFields) : f.Same s t := by
  by_cases hi : i = .srst
  · subst hi
    cases h
    obtain rfl | rfl | rfl : f = .params ∨ f = .script ∨ f = .stopOnError := by
      simpa [hostFields] using hf
    all_goals rfl
  · obtain ⟨hdone, hraise⟩ := hostFields_notMem_written i f hf
    obtain ⟨k, -, info, hx⟩ | ⟨u, r, hx, hkeep⟩ := exec_cases i s hi
    · cases hx.symm.trans h
      exact keepsAllBut_raise s k info _ f hraise
    · cases hx.symm.trans h
      exact hkeep.finish r _ f hdone

theorem exec_params {i : Instr} (h : exec i s = .next t) : t.params = s.params :=
  exec_same_hostFields h (f := .params) (by decide)

/-- Settles O12, by the cases of a step. -/
theorem noStepChangesTheParameters : Obligations.NoStepChangesTheParameters := by
  intro s t h
  obtain ⟨-, rfl⟩ | ⟨m, rest, -, hm⟩ := step_cases s h
  · rfl
  obtain ⟨ds, rfl⟩ | ⟨k, v, -, -, rfl⟩ | ⟨v, i, u, -, -, hx, rfl⟩ | ⟨v, -, -, rfl⟩ |
    ⟨sp, i, v, -, rfl⟩ | ⟨on, -, rfl⟩ | ⟨-, rfl⟩ := hm
  · rfl
  · exact keepsAllBut_writeReg _ k _ .params (by simp)
  · have hparams := exec_params hx
    exact u.afterCommand_params.trans hparams
  · exact State.afterCommand_params _
  · exact keepsAllBut_writeBuf _ sp i v .params (by simp)
  · rfl
  · rfl

end

/-! ### Stop-on-error and illegal words -/

theorem State.afterCommand_script (s : State) : s.afterCommand.script =
    if s.stopOnError = true ∧ statusErr s.status = true then [] else s.script := by
  unfold State.afterCommand
  simp only [← Bool.and_eq_true]
  split <;> rfl

/-- A write to CMD answers a next state and leaves the host's fields to the host. -/
theorem issue_answers (w : Word) (s : State) : ∃ u, issue w s = .next u ∧ u.script = s.script ∧
    u.stopOnError = s.stopOnError := by
  unfold issue
  split
  · next i _ =>
    obtain ⟨u, hu, -⟩ := exec_status i s.begin
    exact ⟨u, hu, exec_same_hostFields hu (f := .script) (by decide),
      exec_same_hostFields hu (f := .stopOnError) (by decide)⟩
  · exact ⟨_, rfl, rfl, rfl⟩

/-- Settles O6: the pending moves before the look at STATUS are the rest of the script. -/
theorem stopOnErrorAbandonsTheScript : Obligations.StopOnErrorAbandonsTheScript := by
  intro s v rest h
  obtain ⟨u, hu, hscript, hstop⟩ := issue_answers (s.hostWord v) { s with script := rest }
  have hstep : step s = .next u.afterCommand := by rw [step_writeCmd h, hu, onNext_next]
  have hafter := u.afterCommand_script
  rw [hscript, hstop] at hafter
  refine ⟨_, hstep, fun hon herr => ?_, fun hoff => ?_⟩
  · rw [u.afterCommand_status] at herr
    exact hafter.trans (if_pos ⟨hon, herr⟩)
  · rw [u.afterCommand_status] at hoff
    refine hafter.trans (if_neg ?_)
    rintro ⟨hon, herr⟩
    obtain hoff | hoff := hoff
    · exact Bool.false_ne_true (hoff.symm.trans hon)
    · exact Bool.false_ne_true (hoff.symm.trans herr)

theorem decode_ne_ok_of_illegal {w : Word} (h : wellFormedWord w = false) (i : Instr) :
    decode w ≠ .ok i :=
  decode_ne_ok_of_no_row (by simpa [wellFormedWord] using h) i

/-- The step of an illegal word written to CMD. -/
theorem step_illegalCommand {s : State} {v : HostWord} {rest : List HostMove}
    (h : s.script = .writeReg 0 v :: rest) (hw : wellFormedWord (s.hostWord v) = false) :
    step s = .next ((State.begin { s with script := rest }).raise .illegalCommand (s.hostWord v)
      .none).afterCommand := by
  rw [step_writeCmd h, issue_of_illegal (decode_ne_ok_of_illegal hw), onNext_next]

/-- Settles O5. -/
theorem illegalWordChangesStatusAndResultOnly :
    Obligations.IllegalWordChangesStatusAndResultOnly := by
  intro s v rest h hw
  refine ⟨_, step_illegalCommand h hw, State.afterCommand_status _, State.afterCommand_result _,
    ?_, ?_⟩
  · refine (State.afterCommand_script _).trans ?_
    exact if_congr (and_iff_left (statusErr_statusError .illegalCommand)) rfl rfl
  · have hraise :=
      keepsAllBut_begin_raise_none { s with script := rest } .illegalCommand (s.hostWord v)
    exact keepsAllBut_trans (keepsAllBut_mono (keepsAllBut_setScript s rest) (by simp))
      (keepsAllBut_trans (keepsAllBut_mono hraise (by simp))
        (keepsAllBut_mono (keepsAllBut_afterCommand _) (by simp)))

/-! ### Reset -/

theorem readReg_toReset (s : State) (k : Nat) : s.toReset.readReg k = 0 :=
  readReg_resetWith s.params k

theorem readBuf_toReset (s : State) (sp : Space) (i : Nat) :
    s.toReset.readBuf sp i = zeroDatum sp := readBuf_resetWith s.params i sp

/-- `done` with result 0 and no destination differs from the reset state in STATUS alone. -/
theorem keepsAllBut_toReset_finish (s : State) :
    KeepsAllBut [.status] s.toReset (s.toReset.finish 0 .none) := by
  intro f hf
  cases f with
  | status => exact absurd (by simp) hf
  | valid => exact BitVec.or_zero
  | _ => rfl

/-- Settles O16. -/
theorem hardResetDiffersFromSrstInStatusAlone :
    Obligations.HardResetDiffersFromSrstInStatusAlone := fun s rest h =>
  ⟨_, _, step_of_script h, exec_srst { s with script := rest }, readReg_toReset _,
    readBuf_toReset _, rfl, readReg_status_toReset_finish _, keepsAllBut_toReset_finish _⟩

theorem not_flagsSet_resetWith {m : Word} (hm : m ≠ 0) (P : Params) :
    ¬ FlagsSet m (State.resetWith P) := fun h => hm (h.symm.trans BitVec.zero_and)

/-- Settles O58: the buffers are empty, and no flag vouches for a tree or a table. -/
theorem resetMeetsTheInvariants : Obligations.ResetMeetsTheInvariants := fun P =>
  ⟨BuffersOk.toReset (State.resetWith P), registersOk_toReset (State.resetWith P),
    fun h => absurd h (not_flagsSet_resetWith (by decide) P),
    fun h => absurd h (not_flagsSet_resetWith (by decide) P)⟩

/-- VENC of ARG = 0 is one zero byte, and fits every legal VB (00_scope.md R5). -/
theorem exec_venc_resetWith {P : Params} (hP : P.wf = true) :
    exec .venc (State.resetWith P) =
      .next (((State.resetWith P).putVarint 0).finish (toWord (varintLength 0)) .vb) := by
  have hfits : varintLength 0 ≤ P.maxVb := by
    simp only [Params.wf, Bool.and_eq_true, decide_eq_true_eq] at hP
    unfold varintLength
    omega
  exact exec_venc_of_fits (s := State.resetWith P) hfits

theorem exec_resetWith_of_missing_flags {i : Instr} (hg : usesGrid i = false)
    (hflags : sourceFlags i ≠ 0) (P : Params) :
    ∃ t, exec i (State.resetWith P) = .next t ∧ t.status = 0x00000076 := by
  have hmissing : sourceFlags i &&& ~~~ (State.resetWith P).valid ≠ 0 := fun h =>
    not_flagsSet_resetWith hflags P ((missingFlags_eq_zero_iff _ _).1 h)
  exact ⟨_, exec_of_missing_flags (fun h => absurd (hg.symm.trans h) Bool.false_ne_true) hmissing,
    rfl⟩

/-- Settles O14: no dimension is positive and no flag is set. -/
theorem fromResetOnlyVencAndSrstSucceed : Obligations.FromResetOnlyVencAndSrstSucceed := by
  refine fun P hP => ⟨fun i hi => ?_, fun i hi => ?_, fun w hw => ?_, ?_, ?_⟩
  · obtain ⟨hdim, -⟩ := gridOperationsCheckDimensionsFirst i (State.resetWith P) hi
    obtain ⟨t, ht, hst, -⟩ := hdim (.inl le_rfl)
    exact ⟨t, ht, hst⟩
  · obtain rfl | rfl | rfl := hi
    all_goals exact exec_resetWith_of_missing_flags rfl (by decide) P
  · exact ⟨_, issue_of_illegal (decode_ne_ok_of_illegal hw) _, rfl⟩
  · exact ⟨_, exec_venc_resetWith hP, rfl, vbAt_putVarint _ 0 0, rfl⟩
  · exact ⟨_, exec_srst _, rfl⟩

end Sys2Proof.Machine

namespace Sys2Proof

/-- Settles O3: the legal words are encodings, and the three illegal ones fail each at its own
field. -/
theorem sampleWordsDecode : Obligations.SampleWordsDecode :=
  ⟨decode_encode .venc, decode_encode .bpx, decode_encode (.bpenc 7), decode_encode (.bpdec 3),
    decode_encode .rgenc, decode_encode .hbuild, decode_encode .hdec, decode_encode .srst,
    rfl, rfl, rfl⟩

end Sys2Proof
